-- ==== Sys2Proof/Word.lean ====
section
/-! DEFINITION. The two machine words of the block: a byte lane (R204) and a 32-bit register word (R101, R11). -/

namespace Sys2Proof

/-- One byte lane of a register word (20_memory.md R204). -/
abbrev Byte := BitVec 8

/-- One 32-bit word: a register word, an operand, a result, a decoded address (00_scope.md R11). -/
abbrev Word := BitVec 32

end Sys2Proof
end

