-- ==== Sys2Proof/Syntax.lean ====
section
/-! DEFINITION. The transactions of the block as syntax: the record presented at a port (R301), the regions,
units and fields operands name (R104, R304, R305), and one constructor per row of opcode_table.json (R303). -/

namespace Sys2Proof

/-- A transaction as a port presents it: operation code, address or selector operand, data operand
(30_encoding.md R301). -/
structure Transaction where
  op : BitVec 8
  a : Word
  d : Word
deriving DecidableEq, Repr

/-- A memory-fill unit (10_state.md R110). -/
inductive FillUnit where
  | fill0
  | fill1
deriving DecidableEq, Repr

/-- A framebuffer unit (10_state.md R111). -/
inductive FbUnit where
  | fb0
  | fb1
deriving DecidableEq, Repr

/-- The address set FBLIVE selects (30_encoding.md R304). -/
inductive Eye where
  | left
  | right
deriving DecidableEq, Repr

/-- The four asynchronous region instances, those with an operation state (10_state.md R120). -/
inductive Region where
  | fill0
  | fill1
  | xfer
  | cmd
deriving DecidableEq, Repr

/-- The ports transactions are presented at (10_state.md R140); `done` is DONE[r]. -/
inductive Port where
  | bus
  | raw
  | field
  | dec
  | acc
  | done (r : Region)
  | host
deriving DecidableEq, Repr

/-- The width of a bus access (20_memory.md R210). -/
inductive Width where
  | w8
  | w16
  | w32
deriving DecidableEq, Repr

/-- The named fields of a memory-fill unit (10_state.md R110). -/
inductive FillField where
  | addressStart
  | addressEnd
  | value32
  | value16
  | value24r
  | value24g
  | value24b
  | trigger
  | finished
  | fill24
  | fill32
deriving DecidableEq, Repr

/-- The named fields of a framebuffer unit (10_state.md R111). -/
inductive FbField where
  | width
  | height
  | addressLeft1
  | addressLeft2
  | colorFormat
  | activeFb
  | stride
  | addressRight1
  | addressRight2
deriving DecidableEq, Repr

/-- The named fields of the display-transfer engine (10_state.md R112). -/
inductive XferField where
  | inputAddress
  | outputAddress
  | outputWidth
  | outputHeight
  | inputWidth
  | inputHeight
  | flipData
  | outputTiled
  | convertToTiled
  | isRawCopy
  | disableUntiling
  | inputFormat
  | outputFormat
  | scalingMode
  | trigger
  | textureCopySize
  | inputLineUnits
  | inputPaddingUnits
  | outputLineUnits
  | outputPaddingUnits
deriving DecidableEq, Repr

/-- The named fields of the command processor (10_state.md R113). -/
inductive CmdField where
  | size
  | address
  | trigger
deriving DecidableEq, Repr

/-- A named field of one region instance: what a field identifier names (30_encoding.md R305). -/
inductive FieldId where
  | fill (u : FillUnit) (f : FillField)
  | fb (u : FbUnit) (f : FbField)
  | xfer (f : XferField)
  | cmd (f : CmdField)
deriving DecidableEq, Repr

/-- The operations of the block, one constructor per row of opcode_table.json (30_encoding.md R303). An operand
that R303 calls "ignored" is no operand here. FGET and FSET keep the identifier byte a[7:0] of R305. -/
inductive Instr where
  | bread8 (a : Word)
  | bread16 (a : Word)
  | bread32 (a : Word)
  | bwrite8 (a : Word) (v : BitVec 8)
  | bwrite16 (a : Word) (v : BitVec 16)
  | bwrite32 (a : Word) (v : Word)
  | rread (i : Word)
  | rwrite (i : Word) (v : Word)
  | filldone (u : FillUnit)
  | xferdone
  | cmddone
  | fget (id : BitVec 8)
  | fset (id : BitVec 8) (v : Word)
  | decaddr (v : Word)
  | decfmt (c : Word)
  | fblive (f : FbUnit) (e : Eye)
  | fbfmt (f : FbUnit)
  | init
  | teardown
deriving DecidableEq, Repr

end Sys2Proof
end

