-- ==== Sys2Proof/WellFormed.lean ====
section
/-! DEFINITION. Which instructions are well formed: a field identifier must be a listed one (R305). Every other
operand of `Instr` admits every value of its type, since out-of-range addresses, indices and codes are errors of
the transaction, not of its form (R801, R804). -/

namespace Sys2Proof

/-- The identifiers that the table of 30_encoding.md R305 lists, as ranges: every other one is reserved. -/
def listedFieldCode (id : BitVec 8) : Bool :=
  decide (id ≤ 0x0A#8)
  || (decide (0x10#8 ≤ id) && decide (id ≤ 0x1A#8))
  || (decide (0x20#8 ≤ id) && decide (id ≤ 0x28#8))
  || (decide (0x30#8 ≤ id) && decide (id ≤ 0x38#8))
  || (decide (0x40#8 ≤ id) && decide (id ≤ 0x53#8))
  || (decide (0x60#8 ≤ id) && decide (id ≤ 0x62#8))

/-- An instruction is well formed when the field identifier it carries, if any, is listed (R305, R321). -/
def Instr.wellFormed : Instr → Bool
  | .bread8 _ => true
  | .bread16 _ => true
  | .bread32 _ => true
  | .bwrite8 _ _ => true
  | .bwrite16 _ _ => true
  | .bwrite32 _ _ => true
  | .rread _ => true
  | .rwrite _ _ => true
  | .filldone _ => true
  | .xferdone => true
  | .cmddone => true
  | .fget id => listedFieldCode id
  | .fset id _ => listedFieldCode id
  | .decaddr _ => true
  | .decfmt _ => true
  | .fblive _ _ => true
  | .fbfmt _ => true
  | .init => true
  | .teardown => true

end Sys2Proof
end

