-- ==== Sys2Proof/Decode.lean ====
section
/-! DEFINITION. The encoding of 30_encoding.md section 1: operation codes (R303), selector bits (R304), field
identifiers (R305), the decoder with its rejections by name (R320, R321), the encoder, and the byte form of a
transaction (log 5). -/

namespace Sys2Proof

/-- Why a transaction names no operation (30_encoding.md R321). Each is reported as InvalidTransaction. -/
inductive Reject where
  /-- An operation code R303 does not list (R320). -/
  | reservedOp
  /-- A field identifier R305 does not list, or a[31:8] not zero. -/
  | reservedField
  /-- A must-be-0 selector bit of FBLIVE or FBFMT is not zero (R304). -/
  | nonzeroSelector
deriving DecidableEq, Repr

/-- What the decoder answers. -/
inductive Decoded where
  | ok (i : Instr)
  | reject (r : Reject)
deriving DecidableEq, Repr

/-- The fields of a fill unit in the order of their identifiers 0x?0..0x?A (R305). -/
def FillField.ofIndex : Nat → Option FillField
  | 0x0 => some .addressStart
  | 0x1 => some .addressEnd
  | 0x2 => some .value32
  | 0x3 => some .value16
  | 0x4 => some .value24r
  | 0x5 => some .value24g
  | 0x6 => some .value24b
  | 0x7 => some .trigger
  | 0x8 => some .finished
  | 0x9 => some .fill24
  | 0xA => some .fill32
  | _ => none

/-- The fields of a framebuffer unit in the order of their identifiers 0x?0..0x?8 (R305). -/
def FbField.ofIndex : Nat → Option FbField
  | 0x0 => some .width
  | 0x1 => some .height
  | 0x2 => some .addressLeft1
  | 0x3 => some .addressLeft2
  | 0x4 => some .colorFormat
  | 0x5 => some .activeFb
  | 0x6 => some .stride
  | 0x7 => some .addressRight1
  | 0x8 => some .addressRight2
  | _ => none

/-- The fields of XFER in the order of their identifiers 0x40..0x53 (R305). -/
def XferField.ofIndex : Nat → Option XferField
  | 0x00 => some .inputAddress
  | 0x01 => some .outputAddress
  | 0x02 => some .outputWidth
  | 0x03 => some .outputHeight
  | 0x04 => some .inputWidth
  | 0x05 => some .inputHeight
  | 0x06 => some .flipData
  | 0x07 => some .outputTiled
  | 0x08 => some .convertToTiled
  | 0x09 => some .isRawCopy
  | 0x0A => some .disableUntiling
  | 0x0B => some .inputFormat
  | 0x0C => some .outputFormat
  | 0x0D => some .scalingMode
  | 0x0E => some .trigger
  | 0x0F => some .textureCopySize
  | 0x10 => some .inputLineUnits
  | 0x11 => some .inputPaddingUnits
  | 0x12 => some .outputLineUnits
  | 0x13 => some .outputPaddingUnits
  | _ => none

/-- The fields of CMD in the order of their identifiers 0x60..0x62 (R305). -/
def CmdField.ofIndex : Nat → Option CmdField
  | 0x0 => some .size
  | 0x1 => some .address
  | 0x2 => some .trigger
  | _ => none

/-- The field an identifier names (30_encoding.md R305); `none` for a reserved identifier. -/
def FieldId.ofCode (id : BitVec 8) : Option FieldId :=
  let n := id.toNat
  if n < 0x10 then (FillField.ofIndex n).map (.fill .fill0)
  else if n < 0x20 then (FillField.ofIndex (n - 0x10)).map (.fill .fill1)
  else if n < 0x30 then (FbField.ofIndex (n - 0x20)).map (.fb .fb0)
  else if n < 0x40 then (FbField.ofIndex (n - 0x30)).map (.fb .fb1)
  else if n < 0x60 then (XferField.ofIndex (n - 0x40)).map .xfer
  else (CmdField.ofIndex (n - 0x60)).map .cmd

/-- The operation code of each instruction (30_encoding.md R302, R303). -/
def Instr.opcode : Instr → BitVec 8
  | .bread8 _ => 0x01
  | .bread16 _ => 0x02
  | .bread32 _ => 0x03
  | .bwrite8 _ _ => 0x05
  | .bwrite16 _ _ => 0x06
  | .bwrite32 _ _ => 0x07
  | .rread _ => 0x10
  | .rwrite _ _ => 0x11
  | .filldone .fill0 => 0x20
  | .filldone .fill1 => 0x21
  | .xferdone => 0x22
  | .cmddone => 0x23
  | .fget _ => 0x30
  | .fset _ _ => 0x31
  | .decaddr _ => 0x40
  | .decfmt _ => 0x41
  | .fblive _ _ => 0x50
  | .fbfmt _ => 0x51
  | .init => 0xF0
  | .teardown => 0xF1

/-- The port an instruction is presented at (30_encoding.md R303, 10_state.md R140). -/
def Instr.port : Instr → Port
  | .bread8 _ => .bus
  | .bread16 _ => .bus
  | .bread32 _ => .bus
  | .bwrite8 _ _ => .bus
  | .bwrite16 _ _ => .bus
  | .bwrite32 _ _ => .bus
  | .rread _ => .raw
  | .rwrite _ _ => .raw
  | .filldone .fill0 => .done .fill0
  | .filldone .fill1 => .done .fill1
  | .xferdone => .done .xfer
  | .cmddone => .done .cmd
  | .fget _ => .field
  | .fset _ _ => .field
  | .decaddr _ => .dec
  | .decfmt _ => .dec
  | .fblive _ _ => .acc
  | .fbfmt _ => .acc
  | .init => .host
  | .teardown => .host

/-- FBLIVE and FBFMT: a[0] selects the unit (30_encoding.md R304). -/
def fbUnitOf (a : Word) : FbUnit := if a.getLsbD 0 then .fb1 else .fb0

/-- FBLIVE: a[1] selects the eye (30_encoding.md R304). -/
def eyeOf (a : Word) : Eye := if a.getLsbD 1 then .right else .left

/-- The field operand of FGET and FSET: a[31:8] = 0 and a listed a[7:0] (30_encoding.md R305). -/
def decodeField (a : Word) (f : BitVec 8 → Instr) : Decoded :=
  if a.toNat < 0x100 ∧ (FieldId.ofCode (a.setWidth 8)).isSome then .ok (f (a.setWidth 8)) else .reject .reservedField

/-- The decoder of transactions, total and rejecting by name (30_encoding.md R303, R304, R305, R320, R321). -/
def decode (t : Transaction) : Decoded :=
  match t.op.toNat with
  | 0x01 => .ok (.bread8 t.a)
  | 0x02 => .ok (.bread16 t.a)
  | 0x03 => .ok (.bread32 t.a)
  | 0x05 => .ok (.bwrite8 t.a (t.d.setWidth 8))
  | 0x06 => .ok (.bwrite16 t.a (t.d.setWidth 16))
  | 0x07 => .ok (.bwrite32 t.a t.d)
  | 0x10 => .ok (.rread t.a)
  | 0x11 => .ok (.rwrite t.a t.d)
  | 0x20 => .ok (.filldone .fill0)
  | 0x21 => .ok (.filldone .fill1)
  | 0x22 => .ok .xferdone
  | 0x23 => .ok .cmddone
  | 0x30 => decodeField t.a .fget
  | 0x31 => decodeField t.a (.fset · t.d)
  | 0x40 => .ok (.decaddr t.d)
  | 0x41 => .ok (.decfmt t.d)
  | 0x50 => if t.a.toNat < 4 then .ok (.fblive (fbUnitOf t.a) (eyeOf t.a)) else .reject .nonzeroSelector
  | 0x51 => if t.a.toNat < 2 then .ok (.fbfmt (fbUnitOf t.a)) else .reject .nonzeroSelector
  | 0xF0 => .ok .init
  | 0xF1 => .ok .teardown
  | _ => .reject .reservedOp

/-- The selector bit of a framebuffer unit (30_encoding.md R304). -/
def FbUnit.selector : FbUnit → Word
  | .fb0 => 0
  | .fb1 => 1

/-- The selector bit of an eye, at its place a[1] (30_encoding.md R304). -/
def Eye.selector : Eye → Word
  | .left => 0
  | .right => 2

/-- The operand `a` of an instruction's transaction; 0 where R303 ignores it. -/
def Instr.operandA : Instr → Word
  | .bread8 a => a
  | .bread16 a => a
  | .bread32 a => a
  | .bwrite8 a _ => a
  | .bwrite16 a _ => a
  | .bwrite32 a _ => a
  | .rread i => i
  | .rwrite i _ => i
  | .filldone _ => 0
  | .xferdone => 0
  | .cmddone => 0
  | .fget id => id.setWidth 32
  | .fset id _ => id.setWidth 32
  | .decaddr _ => 0
  | .decfmt _ => 0
  | .fblive f e => f.selector + e.selector
  | .fbfmt f => f.selector
  | .init => 0
  | .teardown => 0

/-- The operand `d` of an instruction's transaction; 0 where R303 ignores it or part of it. -/
def Instr.operandD : Instr → Word
  | .bread8 _ => 0
  | .bread16 _ => 0
  | .bread32 _ => 0
  | .bwrite8 _ v => v.setWidth 32
  | .bwrite16 _ v => v.setWidth 32
  | .bwrite32 _ v => v
  | .rread _ => 0
  | .rwrite _ v => v
  | .filldone _ => 0
  | .xferdone => 0
  | .cmddone => 0
  | .fget _ => 0
  | .fset _ v => v
  | .decaddr v => v
  | .decfmt c => c
  | .fblive _ _ => 0
  | .fbfmt _ => 0
  | .init => 0
  | .teardown => 0

/-- The transaction that presents an instruction (30_encoding.md R301, R303). -/
def encode (i : Instr) : Transaction := ⟨i.opcode, i.operandA, i.operandD⟩

/-- The bits of `a` that an operation code reads: none where R303 says "ignored" (30_encoding.md R303). -/
def usedBitsA (op : BitVec 8) : Word :=
  match op.toNat with
  | 0x20 => 0
  | 0x21 => 0
  | 0x22 => 0
  | 0x23 => 0
  | 0x40 => 0
  | 0x41 => 0
  | 0xF0 => 0
  | 0xF1 => 0
  | _ => 0xFFFFFFFF

/-- The bits of `d` that an operation code reads: d[7:0], d[15:0], d, or none where R303 of 30_encoding.md calls the
operand ignored. That BWRITE8 and BWRITE16 do not read the bits above is DEDUCED from their operands (log 14). -/
def usedBitsD (op : BitVec 8) : Word :=
  match op.toNat with
  | 0x05 => 0x000000FF
  | 0x06 => 0x0000FFFF
  | 0x07 => 0xFFFFFFFF
  | 0x11 => 0xFFFFFFFF
  | 0x31 => 0xFFFFFFFF
  | 0x40 => 0xFFFFFFFF
  | 0x41 => 0xFFFFFFFF
  | _ => 0

/-- A transaction with every bit that its operation does not read set to 0. -/
def Transaction.canonical (t : Transaction) : Transaction :=
  ⟨t.op, t.a &&& usedBitsA t.op, t.d &&& usedBitsD t.op⟩

/-! ### The byte form (log 5): the op byte, then a and d, each least significant byte first -/

/-- Four bytes, the least significant first, as a word. -/
def wordOfBytes (b0 b1 b2 b3 : Byte) : Word := b3 ++ b2 ++ b1 ++ b0

/-- The first transaction of a byte string and the rest; `none` when fewer than nine bytes are left. -/
def Transaction.ofBytes : List Byte → Option (Transaction × List Byte)
  | op :: a0 :: a1 :: a2 :: a3 :: d0 :: d1 :: d2 :: d3 :: rest =>
    some (⟨op, wordOfBytes a0 a1 a2 a3, wordOfBytes d0 d1 d2 d3⟩, rest)
  | _ => none

/-- The byte string of a transaction. -/
def Transaction.toBytes (t : Transaction) : List Byte :=
  [t.op,
   t.a.extractLsb' 0 8, t.a.extractLsb' 8 8, t.a.extractLsb' 16 8, t.a.extractLsb' 24 8,
   t.d.extractLsb' 0 8, t.d.extractLsb' 8 8, t.d.extractLsb' 16 8, t.d.extractLsb' 24 8]

/-- The decoder on a byte string: the first transaction's verdict and the rest, or `none` on a short string. -/
def decodeBytes (bs : List Byte) : Option (Decoded × List Byte) :=
  match Transaction.ofBytes bs with
  | some (t, rest) => some (decode t, rest)
  | none => none

/-- The transaction whose bits are `w`, numbered as opcode_table.json numbers them: op at bits 7..0, a at bits
39..8, d at bits 71..40 (log 5); every bit from `nbits` on is 0. -/
def Transaction.ofTableWord (nbits w : Nat) : Transaction :=
  let w := w % 2 ^ nbits
  ⟨BitVec.ofNat 8 w, BitVec.ofNat 32 (w / 2 ^ 8), BitVec.ofNat 32 (w / 2 ^ 40)⟩

/-- The instruction the decoder reads from a table word. -/
def decodeTableWord (nbits w : Nat) : Option Instr :=
  match decode (Transaction.ofTableWord nbits w) with
  | .ok i => some i
  | .reject _ => none

end Sys2Proof
end

