-- ==== Sys2Proof/Config.lean ====
section
/-! DEFINITION. The parameters of 00_scope.md section 3: the types of those that are data of a machine
(`Params`, a field of State, log 3) and the opaque constants for those with no value at all (log 2, log 11). -/

namespace Sys2Proof

/-- `FILL24_ORDER`: the component order of a 24-bit fill value (44_memory_fill.md R608, D14). -/
inductive Fill24Order where
  | rgbLowFirst
  | bgrLowFirst
deriving DecidableEq, Repr

/-- `BUS_ERROR_POLICY`: what the CPU bus layer does with an error (43_access_dispatcher.md R566, D5). -/
inductive BusErrorPolicy where
  | report
  | ignore
deriving DecidableEq, Repr, Inhabited

/-- The place of one named field: its word in the array, its lowest bit and its width (10_state.md R110..R114). -/
structure FieldPos where
  word : Nat
  lsb : Nat
  width : Nat
deriving DecidableEq, Repr

/-- One row of the region table, in words (10_state.md R104). -/
structure RegionRow where
  offset : Nat
  size : Nat
deriving DecidableEq, Repr

/-- The six rows of the region table (10_state.md R104). -/
structure RegionTable where
  fill0 : RegionRow
  fill1 : RegionRow
  fb0 : RegionRow
  fb1 : RegionRow
  xfer : RegionRow
  cmd : RegionRow
deriving DecidableEq, Repr

/-- The fields of one memory-fill unit (10_state.md R110). `value24r` and `value24b` are the places under
RGB_LOW_FIRST; BGR_LOW_FIRST exchanges the two. -/
structure FillLayout where
  addressStart : FieldPos
  addressEnd : FieldPos
  value32 : FieldPos
  value16 : FieldPos
  value24r : FieldPos
  value24g : FieldPos
  value24b : FieldPos
  trigger : FieldPos
  finished : FieldPos
  fill24 : FieldPos
  fill32 : FieldPos
deriving DecidableEq, Repr

/-- The fields of one framebuffer unit (10_state.md R111). -/
structure FbLayout where
  width : FieldPos
  height : FieldPos
  addressLeft1 : FieldPos
  addressLeft2 : FieldPos
  colorFormat : FieldPos
  activeFb : FieldPos
  stride : FieldPos
  addressRight1 : FieldPos
  addressRight2 : FieldPos
deriving DecidableEq, Repr

/-- The fields of the display-transfer engine (10_state.md R112). The lowest bit of `convertToTiled` is
overridden by `CONVERT_TO_TILED_BIT`. -/
structure XferLayout where
  inputAddress : FieldPos
  outputAddress : FieldPos
  outputWidth : FieldPos
  outputHeight : FieldPos
  inputWidth : FieldPos
  inputHeight : FieldPos
  flipData : FieldPos
  outputTiled : FieldPos
  convertToTiled : FieldPos
  isRawCopy : FieldPos
  disableUntiling : FieldPos
  inputFormat : FieldPos
  outputFormat : FieldPos
  scalingMode : FieldPos
  trigger : FieldPos
  textureCopySize : FieldPos
  inputLineUnits : FieldPos
  inputPaddingUnits : FieldPos
  outputLineUnits : FieldPos
  outputPaddingUnits : FieldPos
deriving DecidableEq, Repr

/-- The fields of the command processor (10_state.md R113). -/
structure CmdLayout where
  size : FieldPos
  address : FieldPos
  trigger : FieldPos
deriving DecidableEq, Repr

/-- What INIT asserts (70_reset_and_hazards.md R902): the word count, the region table and `FIELD_LAYOUT`. -/
structure Layout where
  wordCount : Nat
  regions : RegionTable
  fill0 : FillLayout
  fill1 : FillLayout
  fb0 : FbLayout
  fb1 : FbLayout
  xfer : XferLayout
  cmd : CmdLayout
deriving DecidableEq, Repr

/-- The parameters that are fixed for a context (70_reset_and_hazards.md R901) and that its rules read. -/
structure Params where
  layout : Layout
  fill24Order : Fill24Order
  fillNeitherIs16bit : Bool
  convertToTiledBit : Nat
deriving DecidableEq, Repr

/-- `GPU_REG_BASE`: where the window stands in the CPU's address map (20_memory.md R201, D1). OPEN. -/
opaque Config.gpuRegBase : Word

/-- `BUS_ERROR_POLICY` of the bus layer (43_access_dispatcher.md R566, D5). OPEN. -/
opaque Config.busErrorPolicy : BusErrorPolicy

/-- The value the CPU sees of the failed read at a position of the order, under `ignore` (U6, log 11): free. -/
opaque Config.failedReadValue : Nat → Word

/-- The byte of `INIT_WORDS` that the context built after the TEARDOWN at a position of the order finds at a
byte offset (10_state.md R150, D50, log 2): free. -/
opaque Config.freshInitByte : Nat → Nat → Byte

end Sys2Proof
end

