-- ==== Sys2Proof/Machine/Layout.lean ====
section
/-! DEFINITION. The region table and FIELD_LAYOUT at the values the spec takes (R104, R110..R113), the place of
each named field under the parameters, and the layout assertions of INIT (R902, R114). -/

namespace Sys2Proof

/-- The region table (10_state.md R104), in words. -/
def RegionTable.spec : RegionTable where
  fill0 := ⟨0x004, 4⟩
  fill1 := ⟨0x008, 4⟩
  fb0 := ⟨0x117, 64⟩
  fb1 := ⟨0x157, 64⟩
  xfer := ⟨0x300, 11⟩
  cmd := ⟨0x638, 5⟩

/-- The fields of the fill unit with base word B (10_state.md R110). -/
def FillLayout.spec (B : Nat) : FillLayout where
  addressStart := ⟨B + 0, 0, 32⟩
  addressEnd := ⟨B + 1, 0, 32⟩
  value32 := ⟨B + 2, 0, 32⟩
  value16 := ⟨B + 2, 0, 16⟩
  value24r := ⟨B + 2, 0, 8⟩
  value24g := ⟨B + 2, 8, 8⟩
  value24b := ⟨B + 2, 16, 8⟩
  trigger := ⟨B + 3, 0, 1⟩
  finished := ⟨B + 3, 1, 1⟩
  fill24 := ⟨B + 3, 8, 1⟩
  fill32 := ⟨B + 3, 9, 1⟩

/-- The fields of the framebuffer unit with base word B (10_state.md R111). -/
def FbLayout.spec (B : Nat) : FbLayout where
  width := ⟨B + 0x00, 0, 16⟩
  height := ⟨B + 0x00, 16, 16⟩
  addressLeft1 := ⟨B + 0x03, 0, 32⟩
  addressLeft2 := ⟨B + 0x04, 0, 32⟩
  colorFormat := ⟨B + 0x05, 0, 3⟩
  activeFb := ⟨B + 0x07, 0, 1⟩
  stride := ⟨B + 0x0D, 0, 32⟩
  addressRight1 := ⟨B + 0x0E, 0, 32⟩
  addressRight2 := ⟨B + 0x0F, 0, 32⟩

/-- The fields of XFER (10_state.md R112). -/
def XferLayout.spec : XferLayout where
  inputAddress := ⟨0x300, 0, 32⟩
  outputAddress := ⟨0x301, 0, 32⟩
  outputWidth := ⟨0x302, 0, 16⟩
  outputHeight := ⟨0x302, 16, 16⟩
  inputWidth := ⟨0x303, 0, 16⟩
  inputHeight := ⟨0x303, 16, 16⟩
  flipData := ⟨0x304, 0, 1⟩
  outputTiled := ⟨0x304, 1, 1⟩
  convertToTiled := ⟨0x304, 1, 1⟩
  isRawCopy := ⟨0x304, 3, 1⟩
  disableUntiling := ⟨0x304, 5, 1⟩
  inputFormat := ⟨0x304, 8, 3⟩
  outputFormat := ⟨0x304, 12, 3⟩
  scalingMode := ⟨0x304, 24, 2⟩
  trigger := ⟨0x306, 0, 32⟩
  textureCopySize := ⟨0x308, 0, 32⟩
  inputLineUnits := ⟨0x309, 0, 16⟩
  inputPaddingUnits := ⟨0x309, 16, 16⟩
  outputLineUnits := ⟨0x30A, 0, 16⟩
  outputPaddingUnits := ⟨0x30A, 16, 16⟩

/-- The fields of CMD (10_state.md R113). -/
def CmdLayout.spec : CmdLayout where
  size := ⟨0x638, 0, 32⟩
  address := ⟨0x63A, 0, 32⟩
  trigger := ⟨0x63C, 0, 1⟩

/-- The layout the spec takes (00_scope.md section 3: 4096 words, R104, R110..R113). -/
def Layout.spec : Layout where
  wordCount := 4096
  regions := RegionTable.spec
  fill0 := FillLayout.spec 0x004
  fill1 := FillLayout.spec 0x008
  fb0 := FbLayout.spec 0x117
  fb1 := FbLayout.spec 0x157
  xfer := XferLayout.spec
  cmd := CmdLayout.spec

/-- The parameters at the values the spec takes (00_scope.md section 3). -/
def Params.spec : Params where
  layout := Layout.spec
  fill24Order := .rgbLowFirst
  fillNeitherIs16bit := false
  convertToTiledBit := 1

/-! ### The place of a named field -/

/-- The fields of a fill unit under `FILL24_ORDER`: BGR_LOW_FIRST exchanges the places of the r and b
components (10_state.md R110). -/
def FillLayout.pos (L : FillLayout) (o : Fill24Order) : FillField → FieldPos
  | .addressStart => L.addressStart
  | .addressEnd => L.addressEnd
  | .value32 => L.value32
  | .value16 => L.value16
  | .value24r => match o with | .rgbLowFirst => L.value24r | .bgrLowFirst => L.value24b
  | .value24g => L.value24g
  | .value24b => match o with | .rgbLowFirst => L.value24b | .bgrLowFirst => L.value24r
  | .trigger => L.trigger
  | .finished => L.finished
  | .fill24 => L.fill24
  | .fill32 => L.fill32

/-- The fields of a framebuffer unit (10_state.md R111). -/
def FbLayout.pos (L : FbLayout) : FbField → FieldPos
  | .width => L.width
  | .height => L.height
  | .addressLeft1 => L.addressLeft1
  | .addressLeft2 => L.addressLeft2
  | .colorFormat => L.colorFormat
  | .activeFb => L.activeFb
  | .stride => L.stride
  | .addressRight1 => L.addressRight1
  | .addressRight2 => L.addressRight2

/-- The fields of XFER; `CONVERT_TO_TILED_BIT` gives the bit of convert_to_tiled (10_state.md R112). -/
def XferLayout.pos (L : XferLayout) (bit : Nat) : XferField → FieldPos
  | .inputAddress => L.inputAddress
  | .outputAddress => L.outputAddress
  | .outputWidth => L.outputWidth
  | .outputHeight => L.outputHeight
  | .inputWidth => L.inputWidth
  | .inputHeight => L.inputHeight
  | .flipData => L.flipData
  | .outputTiled => L.outputTiled
  | .convertToTiled => { L.convertToTiled with lsb := bit }
  | .isRawCopy => L.isRawCopy
  | .disableUntiling => L.disableUntiling
  | .inputFormat => L.inputFormat
  | .outputFormat => L.outputFormat
  | .scalingMode => L.scalingMode
  | .trigger => L.trigger
  | .textureCopySize => L.textureCopySize
  | .inputLineUnits => L.inputLineUnits
  | .inputPaddingUnits => L.inputPaddingUnits
  | .outputLineUnits => L.outputLineUnits
  | .outputPaddingUnits => L.outputPaddingUnits

/-- The fields of CMD (10_state.md R113). -/
def CmdLayout.pos (L : CmdLayout) : CmdField → FieldPos
  | .size => L.size
  | .address => L.address
  | .trigger => L.trigger

/-- The place of a named field under the parameters (10_state.md R110..R113). -/
def fieldPos (p : Params) : FieldId → FieldPos
  | .fill .fill0 f => p.layout.fill0.pos p.fill24Order f
  | .fill .fill1 f => p.layout.fill1.pos p.fill24Order f
  | .fb .fb0 f => p.layout.fb0.pos f
  | .fb .fb1 f => p.layout.fb1.pos f
  | .xfer f => p.layout.xfer.pos p.convertToTiledBit f
  | .cmd f => p.layout.cmd.pos f

/-! ### The layout assertions of INIT -/

/-- Every named field of a fill unit. -/
def FillField.all : List FillField :=
  [.addressStart, .addressEnd, .value32, .value16, .value24r, .value24g, .value24b, .trigger, .finished, .fill24, .fill32]

/-- Every named field of a framebuffer unit. -/
def FbField.all : List FbField :=
  [.width, .height, .addressLeft1, .addressLeft2, .colorFormat, .activeFb, .stride, .addressRight1, .addressRight2]

/-- Every named field of XFER. -/
def XferField.all : List XferField :=
  [.inputAddress, .outputAddress, .outputWidth, .outputHeight, .inputWidth, .inputHeight, .flipData, .outputTiled,
   .convertToTiled, .isRawCopy, .disableUntiling, .inputFormat, .outputFormat, .scalingMode, .trigger,
   .textureCopySize, .inputLineUnits, .inputPaddingUnits, .outputLineUnits, .outputPaddingUnits]

/-- Every named field of CMD. -/
def CmdField.all : List CmdField := [.size, .address, .trigger]

/-- The region instance a field belongs to. -/
def regionRow (L : Layout) : FieldId → RegionRow
  | .fill .fill0 _ => L.regions.fill0
  | .fill .fill1 _ => L.regions.fill1
  | .fb .fb0 _ => L.regions.fb0
  | .fb .fb1 _ => L.regions.fb1
  | .xfer _ => L.regions.xfer
  | .cmd _ => L.regions.cmd

/-- lsb + width <= 32, width not 0 (D24), and the word in its own region instance (10_state.md R114). -/
def wellPlaced (q : FieldPos) (r : RegionRow) : Bool :=
  decide (1 ≤ q.width) && decide (q.lsb + q.width ≤ 32) && decide (r.offset ≤ q.word) && decide (q.word < r.offset + r.size)

/-- Two fields share a bit of one word. -/
def overlaps (q r : FieldPos) : Bool :=
  decide (q.word = r.word) && decide (q.lsb < r.lsb + r.width) && decide (r.lsb < q.lsb + q.width)

/-- The value forms of a fill unit: value_16bit and value_24bit_* are views inside value_32bit (10_state.md R110). -/
def FillField.isValueForm : FillField → Bool
  | .value32 => true
  | .value16 => true
  | .value24r => true
  | .value24g => true
  | .value24b => true
  | .addressStart => false
  | .addressEnd => false
  | .trigger => false
  | .finished => false
  | .fill24 => false
  | .fill32 => false

/-- The aliases the tables allow: the value forms of a fill unit, and convert_to_tiled with output_tiled
(10_state.md R114). Two components of the 24-bit value do not share a bit. -/
def mayAlias : FieldId → FieldId → Bool
  | .fill _ f, .fill _ g =>
    f.isValueForm && g.isValueForm && (f == .value32 || g == .value32 || f == .value16 || g == .value16)
  | .xfer .convertToTiled, .xfer .outputTiled => true
  | .xfer .outputTiled, .xfer .convertToTiled => true
  | _, _ => false

/-- A view lies inside value_32bit (10_state.md R114). -/
def viewInside (p : Params) (u : FillUnit) (f : FillField) : Bool :=
  let v := fieldPos p (.fill u f)
  let w := fieldPos p (.fill u .value32)
  decide (v.word = w.word) && decide (w.lsb ≤ v.lsb) && decide (v.lsb + v.width ≤ w.lsb + w.width)

/-- The fields of one region instance: each well placed, and no two sharing a bit unless a table allows it. -/
def regionFieldsOk (p : Params) (fs : List FieldId) : Bool :=
  fs.all fun f =>
    wellPlaced (fieldPos p f) (regionRow p.layout f)
    && fs.all fun g => f == g || !overlaps (fieldPos p f) (fieldPos p g) || mayAlias f g

/-- The field layout meets 10_state.md R114. -/
def fieldLayoutOk (p : Params) : Bool :=
  regionFieldsOk p (FillField.all.map (.fill .fill0))
  && regionFieldsOk p (FillField.all.map (.fill .fill1))
  && regionFieldsOk p (FbField.all.map (.fb .fb0))
  && regionFieldsOk p (FbField.all.map (.fb .fb1))
  && regionFieldsOk p (XferField.all.map .xfer)
  && regionFieldsOk p (CmdField.all.map .cmd)
  && FillField.all.all fun f => !f.isValueForm || (viewInside p .fill0 f && viewInside p .fill1 f)

/-- The layout assertions INIT runs (70_reset_and_hazards.md R902): the word count, every row of R104, and R114. -/
def layoutOk (p : Params) : Bool :=
  p.layout.wordCount == 4096 && p.layout.regions == RegionTable.spec && fieldLayoutOk p

end Sys2Proof
end

