-- ==== Sys2Proof/Machine/State.lean ====
section
/-! DEFINITION. The state of the block as plain data: the context (word array, operation states with the held
requests), the parameters, and the ports (R101..R103, R120..R122, R140, R301). INVENTORY.md lists each field
with its rule and its reset value. -/

namespace Sys2Proof.Machine

/-! ### Requests (60_exceptions.md R819) -/

/-- The three fill modes (44_memory_fill.md R606, R608). -/
inductive FillMode where
  | m16
  | m24
  | m32
deriving DecidableEq, Repr

/-- The fill value handed to the executor (44_memory_fill.md R608). -/
inductive FillValue where
  | v16 (v : Word)
  | rgb (r g b : Word)
  | v32 (v : Word)
deriving DecidableEq, Repr

/-- FillRequest(u, mode) (44_memory_fill.md R607). -/
structure FillRequest where
  unit : FillUnit
  start : Word
  stop : Word
  mode : FillMode
  value : FillValue
deriving DecidableEq, Repr

/-- The five pixel formats (30_encoding.md R311). -/
inductive PixelFormat where
  | rgba8
  | rgb8
  | rgb565
  | rgba5551
  | rgba4
deriving DecidableEq, Repr

/-- TextureCopy() (46_display_transfer.md R708). -/
structure TextureCopy where
  size : Word
  inputBytesPerLine : Word
  inputPaddingBytesPerLine : Word
  inputTotalBytesPerLine : Word
  outputBytesPerLine : Word
  outputPaddingBytesPerLine : Word
  outputTotalBytesPerLine : Word
deriving DecidableEq, Repr

/-- XferRequest() (46_display_transfer.md R706). Field values are passed on as raw 32-bit values (R11, R710). -/
structure XferRequest where
  inAddr : Word
  outAddr : Word
  outWidth : Word
  outHeight : Word
  inWidth : Word
  inHeight : Word
  flipData : Word
  outputTiled : Word
  convertToTiled : Word
  isRawCopy : Word
  disableUntiling : Word
  scalingMode : Word
  inFmt : Option PixelFormat
  outFmt : Option PixelFormat
  copy : Option TextureCopy
deriving DecidableEq, Repr

/-- The command-list request (47_command_processor.md R753). -/
structure CmdRequest where
  addr : Word
  len : Word
deriving DecidableEq, Repr

/-- What a REQ[r] port hands to its executor (60_exceptions.md R820). -/
inductive Request where
  | fill (q : FillRequest)
  | xfer (q : XferRequest)
  | cmd (q : CmdRequest)
deriving DecidableEq, Repr

/-! ### The context -/

/-- The register window as cells (byte offset, byte): offsets strictly rising, no entry 0 (log 1). An offset
that is not listed reads as 0. -/
abbrev Memory := List Host.Cell

/-- The canonical form of the register window: inside the window, strictly rising, no entry equal to what an
unlisted offset reads as (10_state.md R101; log 1). -/
abbrev Memory.wf (x : Memory) : Prop :=
  x.Pairwise (fun c d => c.1 < d.1) ∧ ∀ c ∈ x, c.2 ≠ 0 ∧ c.1 < 0x4000

/-- The operation state st[r] with the held request req[r] (10_state.md R120, R122; log 9). -/
inductive OpState (ρ : Type) where
  | idle
  | busy (q : ρ)
deriving DecidableEq, Repr

/-- The context object: the register file and the operation states of the four asynchronous regions
(10_state.md R103, R120). -/
structure Context where
  x : Memory
  fill0 : OpState FillRequest
  fill1 : OpState FillRequest
  xfer : OpState XferRequest
  cmd : OpState CmdRequest
deriving DecidableEq, Repr

/-! ### Responses -/

/-- The error kinds with the info each records (60_exceptions.md R800..R809). None of them stops the block: each
is reported in the response of its transaction (R810, R813, R814; log 7). -/
inductive ErrorKind where
  /-- A bus word index or a raw index of 4096 or more; info: the address or index as given (R801). -/
  | outOfRange (a : Word)
  /-- FSET of a value too wide for the field; info: the value and the width (R803). -/
  | fieldOverflow (v : Word) (width : Nat)
  /-- A format code of 5 or more where a format is decoded; info: the failing code (R804). -/
  | invalidFormatCode (c : Word)
  /-- A fill trigger with both or neither mode bit; info: the unit and the two bits (R808). -/
  | invalidFillMode (u : FillUnit) (b24 b32 : Word)
  /-- A trigger write to a Busy region; info: the region (R805). -/
  | operationAlreadyInProgress (r : Region)
  /-- A 16- or 32-bit access that is not naturally aligned; info: the address (R802). -/
  | misalignedAccess (a : Word)
  /-- A transaction that names no operation, or none possible in this state; info: the op (R807). -/
  | invalidTransaction (op : BitVec 8)
  /-- INIT with a region row or a field layout that breaks the contract (R809). -/
  | layoutViolation
deriving DecidableEq, Repr

/-- The status of a response: OK or one error kind (30_encoding.md R301). -/
inductive Status where
  | ok
  | error (e : ErrorKind)
deriving DecidableEq, Repr

/-- The response of a transaction: `result` is absent where R301 and R303 give none (30_encoding.md R301). -/
structure Response where
  status : Status
  result : Option Word
deriving DecidableEq, Repr

/-! ### The machine -/

/-- The state of the block and of its ports. -/
structure State where
  params : Params
  initWords : Memory
  ctx : Option Context
  pending : List Transaction
  response : Option Response
  emitted : Option Request
  position : Nat
deriving DecidableEq, Repr

/-- No transaction faults: the block has no trap, and after an error the next transaction is performed like any
other (60_exceptions.md R813, R814), so there is no reason to name. Safe: nothing stops. -/
inductive Fault where
deriving DecidableEq, Repr

/-- Why a step has no meaning. -/
inductive Refusal where
  /-- Raised by exec for an instruction with no meaning yet (no arm raises it). Safe: the machine stops. -/
  | notModelled (mnemonic : String)
deriving DecidableEq, Repr

/-- A context right after construction over given initial words: every region Idle, nothing held (R901, R151). -/
def Context.fresh (x : Memory) : Context := ⟨x, .idle, .idle, .idle, .idle⟩

/-- The machine right after reset, that is after INIT (70_reset_and_hazards.md section 1): the parameters at the
values the spec takes, a context with every region Idle (R151), no transaction presented yet. The spec gives no
value for the words (R150, R903): they are 0 here, the model's DESIGN CHOICE (log 1, log 2, log 10). -/
def State.reset : State where
  params := Params.spec
  initWords := []
  ctx := some (Context.fresh [])
  pending := []
  response := none
  emitted := none
  position := 0

end Sys2Proof.Machine
end

