-- ==== Sys2Proof/Machine/Operands.lean ====
section
/-! DEFINITION. The operand forms: PackedField (R451, R452), the decoders (R501, R503), the bus address check with
its lane mask (R552, R553), and the reads of named fields (R455). -/

namespace Sys2Proof.Machine

/-! ### The register window (20_memory.md R203..R206, log 1) -/

/-- The byte at an offset of the window; an offset not listed reads as 0. -/
def Memory.byte : Memory → Nat → Byte
  | [], _ => 0
  | (k, v) :: x, a => if k = a then v else Memory.byte x a

/-- Put a cell in its place among cells with other offsets. -/
def Memory.insertCell : Memory → Nat → Byte → Memory
  | [], a, b => [(a, b)]
  | (k, v) :: x, a, b => if a < k then (a, b) :: (k, v) :: x else (k, v) :: Memory.insertCell x a b

/-- Store one byte, keeping the canonical form: storing 0 removes the entry. -/
def Memory.setByte (x : Memory) (a : Nat) (b : Byte) : Memory :=
  let y : Memory := x.filter (fun c => c.1 ≠ a)
  if b = 0 then y else Memory.insertCell y a b

/-- Word i of the register file, x[i]: byte 4i + k is lane k, bits [8k+7:8k] (20_memory.md R204, D3). -/
def Memory.word (x : Memory) (i : Nat) : Word :=
  x.byte (4 * i + 3) ++ x.byte (4 * i + 2) ++ x.byte (4 * i + 1) ++ x.byte (4 * i)

/-- x[i] <- v (00_scope.md R10, lanes as in 20_memory.md R204). -/
def Memory.setWord (x : Memory) (i : Nat) (v : Word) : Memory :=
  (((x.setByte (4 * i) (v.extractLsb' 0 8)).setByte (4 * i + 1) (v.extractLsb' 8 8)).setByte
    (4 * i + 2) (v.extractLsb' 16 8)).setByte (4 * i + 3) (v.extractLsb' 24 8)

/-- The window whose byte at each offset is given by a function, in canonical form: the form a draw of
`INIT_WORDS` takes (10_state.md R150, log 2). -/
def Memory.ofBytes (f : Nat → Byte) : Memory :=
  (List.range 0x4000).filterMap (fun a => if f a = 0 then none else some (a, f a))

/-! ### PackedField (41_packed_field.md) -/

/-- 2^wid - 1, computed without a 32-bit overflow (41_packed_field.md R451, D24). -/
def lowMask (wid : Nat) : Word := BitVec.ofNat 32 (2 ^ wid - 1)

/-- extract(w, off, wid) (41_packed_field.md R451). -/
def extract (w : Word) (off wid : Nat) : Word := (w >>> off) &&& lowMask wid

/-- The result of insert for a value that fits (41_packed_field.md R452). -/
def insertBits (w : Word) (off wid : Nat) (v : Word) : Word := (w &&& ~~~(lowMask wid <<< off)) ||| (v <<< off)

/-- insert(w, off, wid, v): FieldOverflow when v needs more than wid bits (41_packed_field.md R452). -/
def insertField (w : Word) (off wid : Nat) (v : Word) : Except ErrorKind Word :=
  if 2 ^ wid ≤ v.toNat then .error (.fieldOverflow v wid) else .ok (insertBits w off wid v)

/-- The value of the field at a place, zero-extended (41_packed_field.md R455). -/
def fieldAt (x : Memory) (q : FieldPos) : Word := extract (x.word q.word) q.lsb q.width

/-- Store a value that fits into the field at a place, keeping every other bit (41_packed_field.md R452). -/
def setFieldAt (x : Memory) (q : FieldPos) (v : Word) : Memory :=
  x.setWord q.word (insertBits (x.word q.word) q.lsb q.width v)

/-- The value of a named field under the parameters (41_packed_field.md R455). -/
def field (p : Params) (x : Memory) (f : FieldId) : Word := fieldAt x (fieldPos p f)

/-! ### The decoders (42_decoders.md) -/

/-- dec_addr(v) = (v * 8) mod 2^32 (42_decoders.md R501). -/
def decAddr (v : Word) : Word := v * 8

/-- A named address field, decoded through the one address decoder (42_decoders.md R502). -/
def decodedField (p : Params) (x : Memory) (f : FieldId) : Word := decAddr (field p x f)

/-- dec_fmt(c): the table lookup of 42_decoders.md R503, on all 32 bits of c. -/
def decFmt (c : Word) : Except ErrorKind PixelFormat :=
  match c.toNat with
  | 0 => .ok .rgba8
  | 1 => .ok .rgb8
  | 2 => .ok .rgb565
  | 3 => .ok .rgba5551
  | 4 => .ok .rgba4
  | _ => .error (.invalidFormatCode c)

/-- The table index of a format (30_encoding.md R311, 42_decoders.md R503). -/
def PixelFormat.index : PixelFormat → Word
  | .rgba8 => 0
  | .rgb8 => 1
  | .rgb565 => 2
  | .rgba5551 => 3
  | .rgba4 => 4

/-! ### Bus addresses (43_access_dispatcher.md) -/

/-- The bytes of an access (43_access_dispatcher.md R552). -/
def widthBytes : Width → Nat
  | .w8 => 1
  | .w16 => 2
  | .w32 => 4

/-- The address check: OutOfRange, then MisalignedAccess (43_access_dispatcher.md R552, R812). -/
def checkAccess (a : Word) (w : Width) : Option ErrorKind :=
  if 4096 ≤ a.toNat / 4 then some (.outOfRange a)
  else if a.toNat % widthBytes w ≠ 0 then some (.misalignedAccess a)
  else none

/-- The word a byte address selects (20_memory.md R203). -/
def wordIndex (a : Word) : Nat := a.toNat / 4

/-- The first lane of an access (20_memory.md R203). -/
def lane (a : Word) : Nat := a.toNat % 4

/-- The lane mask m(k, n) = (2^(8n) - 1) << 8k (43_access_dispatcher.md R553). -/
def laneMask (a : Word) (w : Width) : Word := lowMask (8 * widthBytes w) <<< (8 * lane a)

/-- MemRead(a, n) (43_access_dispatcher.md R556). -/
def memRead (x : Memory) (a : Word) (w : Width) : Word :=
  (x.word (wordIndex a) >>> (8 * lane a)) &&& lowMask (8 * widthBytes w)

/-- The word MemWrite stores: the written lanes replaced, every other bit kept (43_access_dispatcher.md R557). -/
def mergeLanes (old : Word) (a : Word) (w : Width) (v : Word) : Word :=
  (old &&& ~~~(laneMask a w)) ||| (v <<< (8 * lane a))

/-- MemWrite(a, n, v), v zero-extended (43_access_dispatcher.md R557). -/
def memWrite (x : Memory) (a : Word) (w : Width) (v : Word) : Memory :=
  x.setWord (wordIndex a) (mergeLanes (x.word (wordIndex a)) a w v)

end Sys2Proof.Machine
end

