-- ==== Sys2Proof/Machine/Ops.lean ====
section
/-! DEFINITION. The operations every meaning shares: the reply of a transaction, raising an error (R10, R806,
R810), refusing a transaction (R321, R807), acting on the context (R904), the operation states (R120), and taking
the next presented transaction (R130, R220). -/

namespace Sys2Proof.Machine

/-- What a transaction on the context leaves: the context, the status, the result and the request emitted. -/
structure Reply where
  ctx : Context
  status : Status
  result : Option Word
  emitted : Option Request
deriving DecidableEq, Repr

/-- A transaction that succeeds with no result. -/
def done (c : Context) : Reply := ⟨c, .ok, none, none⟩

/-- A read that succeeds: the context is as before (20_memory.md R211). -/
def answer (c : Context) (r : Word) : Reply := ⟨c, .ok, some r, none⟩

/-- raise E(info): the transaction ends with the error kind; what it stored before stays (00_scope.md R10,
60_exceptions.md R806, R810). This is all an error does: there is no trap entry (R813). -/
def raise (c : Context) (e : ErrorKind) : Reply := ⟨c, .error e, none, none⟩

/-- A region starts: the request is held and emitted in the same transaction (60_exceptions.md R820). `c` already
holds the Busy state. -/
def start (c : Context) (q : Request) : Reply := ⟨c, .ok, none, some q⟩

/-- The state after a transaction that acted on a context. -/
def State.finish (s : State) (r : Reply) : State :=
  { s with ctx := some r.ctx, response := some ⟨r.status, r.result⟩, emitted := r.emitted }

/-- The state after a transaction that ends with a status and no data, the context left as given: the form of
the HOST transactions. -/
def State.respond (s : State) (c : Option Context) (st : Status) : State :=
  { s with ctx := c, response := some ⟨st, none⟩, emitted := none }

/-- refuse InvalidTransaction: nothing changes, no data, the op is reported (30_encoding.md R321,
60_exceptions.md R807). -/
def State.refuse (s : State) (op : BitVec 8) : State := s.respond s.ctx (.error (.invalidTransaction op))

/-- A transaction on the context: refused when no context exists (70_reset_and_hazards.md R904). -/
def onContext (i : Instr) (f : Params → Context → Reply) (s : State) : Host.Outcome State Fault Refusal :=
  match s.ctx with
  | none => .next (s.refuse i.opcode)
  | some c => .next (s.finish (f s.params c))

/-! ### Operation states (10_state.md R120..R123) -/

/-- The region of a fill unit. -/
def fillRegion : FillUnit → Region
  | .fill0 => .fill0
  | .fill1 => .fill1

/-- st and req of a fill unit. -/
def Context.fillOp (c : Context) : FillUnit → OpState FillRequest
  | .fill0 => c.fill0
  | .fill1 => c.fill1

/-- Replace st and req of a fill unit. -/
def Context.setFillOp (c : Context) (u : FillUnit) (o : OpState FillRequest) : Context :=
  match u with
  | .fill0 => { c with fill0 := o }
  | .fill1 => { c with fill1 := o }

/-- The operation state is Busy. -/
def OpState.isBusy {ρ : Type} : OpState ρ → Bool
  | .idle => false
  | .busy _ => true

/-- The request req[r] a region holds, as its executor receives it; none while Idle (10_state.md R122). -/
def Context.held (c : Context) : Region → Option Request
  | .fill0 => match c.fill0 with | .idle => none | .busy q => some (.fill q)
  | .fill1 => match c.fill1 with | .idle => none | .busy q => some (.fill q)
  | .xfer => match c.xfer with | .idle => none | .busy q => some (.xfer q)
  | .cmd => match c.cmd with | .idle => none | .busy q => some (.cmd q)

/-- st[r] = Busy (10_state.md R120). -/
def Context.isBusy (c : Context) (r : Region) : Bool := (c.held r).isSome

/-- Some region is Busy (70_reset_and_hazards.md R905). -/
def Context.anyBusy (c : Context) : Bool :=
  c.isBusy .fill0 || c.isBusy .fill1 || c.isBusy .xfer || c.isBusy .cmd

/-! ### Presented transactions (10_state.md R130, 20_memory.md R220; log 6) -/

/-- The first transaction in the total order and the state from which it is performed: it is taken off the list
and the position moves on. None when nothing is presented. -/
def State.takeNext (s : State) : Option (Transaction × State) :=
  match s.pending with
  | [] => none
  | t :: rest => some (t, { s with pending := rest, position := s.position + 1 })

/-- Present a transaction to be the next one performed. -/
def State.presentFirst (s : State) (t : Transaction) : State := { s with pending := t :: s.pending }

/-- Present a transaction at the end of the order. -/
def State.present (s : State) (t : Transaction) : State := { s with pending := s.pending ++ [t] }

/-- The code of an error kind (60_exceptions.md R800). -/
def ErrorKind.code : ErrorKind → Nat
  | .outOfRange _ => 1
  | .fieldOverflow _ _ => 2
  | .invalidFormatCode _ => 3
  | .invalidFillMode _ _ _ => 4
  | .operationAlreadyInProgress _ => 5
  | .misalignedAccess _ => 6
  | .invalidTransaction _ => 7
  | .layoutViolation => 0x80

/-- The code of a status; 0 is OK (60_exceptions.md R800). -/
def Status.code : Status → Nat
  | .ok => 0
  | .error e => e.code

end Sys2Proof.Machine
end

