-- ==== Sys2Proof/Machine/Flags.lean ====
section
/-! DEFINITION. The block's only flags, the trigger and finished fields (10_state.md R115): when a write covers a
field (R554), when it is a trigger write (R603, R703, R753), and what a completion leaves (R610, R712, R758). -/

namespace Sys2Proof.Machine

/-- The bit mask of a field in its word (43_access_dispatcher.md R554). -/
def fieldMask (q : FieldPos) : Word := lowMask q.width <<< q.lsb

/-- A write to the field's word with lane mask m covers the field: the masks have a bit in common
(43_access_dispatcher.md R554). -/
def covers (m : Word) (q : FieldPos) : Bool := (m &&& fieldMask q) != 0

/-- The write covers the field and leaves it nonzero: a trigger write of FILL or CMD (44_memory_fill.md R603,
47_command_processor.md R753; D7). x is the array after the store. -/
def isTriggerWrite (x : Memory) (m : Word) (q : FieldPos) : Bool := covers m q && (fieldAt x q != 0)

/-- The completion of a fill: trigger 0 and finished 1, in one update (44_memory_fill.md R610, 20_memory.md R222). -/
def completeFill (p : Params) (x : Memory) (u : FillUnit) : Memory :=
  setFieldAt (setFieldAt x (fieldPos p (.fill u .trigger)) 0) (fieldPos p (.fill u .finished)) 1

/-- The completion of a transfer: the trigger field, a whole word, becomes 0 (46_display_transfer.md R712). -/
def completeXfer (p : Params) (x : Memory) : Memory := setFieldAt x (fieldPos p (.xfer .trigger)) 0

/-- The completion of a command list: the trigger becomes 0 (47_command_processor.md R758). -/
def completeCmd (p : Params) (x : Memory) : Memory := setFieldAt x (fieldPos p (.cmd .trigger)) 0

/-- FillMode(b24, b32) (44_memory_fill.md R606, 30_encoding.md R314). -/
def fillMode (p : Params) (u : FillUnit) (b24 b32 : Word) : Except ErrorKind FillMode :=
  if b24 ≠ 0 then
    if b32 ≠ 0 then .error (.invalidFillMode u b24 b32) else .ok .m24
  else
    if b32 ≠ 0 then .ok .m32
    else if p.fillNeitherIs16bit then .ok .m16 else .error (.invalidFillMode u b24 b32)

end Sys2Proof.Machine
end

