-- ==== Sys2Proof/Machine/Command.lean ====
section
/-! DEFINITION. Command processor (47_command_processor.md): the request (R753, R757), CmdHook (R753) and the
completion transaction CMDDONE (R758). -/

namespace Sys2Proof.Machine

/-- The byte length of the command list, (size * 8) mod 2^32 (47_command_processor.md R757, D28). -/
def commandLength (size : Word) : Word := size * 8

/-- The command-list request (47_command_processor.md R753). -/
def cmdRequest (p : Params) (x : Memory) : CmdRequest where
  addr := decodedField p x (.cmd .address)
  len := commandLength (field p x (.cmd .size))

/-- CmdHook(m), run after the store (47_command_processor.md R753). -/
def cmdHook (p : Params) (c : Context) (m : Word) : Reply :=
  if isTriggerWrite c.x m (fieldPos p (.cmd .trigger)) then
    match c.cmd with
    | .busy _ => raise c (.operationAlreadyInProgress .cmd)
    | .idle =>
      let q := cmdRequest p c.x
      start { c with cmd := .busy q } (.cmd q)
  else done c

/-- CMDDONE (47_command_processor.md R758): refused while CMD is Idle. -/
def execCmddone (s : State) : Host.Outcome State Fault Refusal :=
  onContext .cmddone (fun p c =>
    match c.cmd with
    | .idle => raise c (.invalidTransaction (Instr.opcode .cmddone))
    | .busy _ => done { c with x := completeCmd p c.x, cmd := .idle }) s

end Sys2Proof.Machine
end

