-- ==== Sys2Proof/Machine/Fill.lean ====
section
/-! DEFINITION. Memory fill (44_memory_fill.md): the request derivation (R607, R608), FillHook (R603) and the
completion transaction FILLDONE (R610). -/

namespace Sys2Proof.Machine

/-- FillValue(w, mode) on the value word's named views (44_memory_fill.md R608); FILL24_ORDER gives the places of
the r and b components (10_state.md R110). -/
def fillValue (p : Params) (x : Memory) (u : FillUnit) : FillMode → FillValue
  | .m16 => .v16 (field p x (.fill u .value16))
  | .m24 => .rgb (field p x (.fill u .value24r)) (field p x (.fill u .value24g)) (field p x (.fill u .value24b))
  | .m32 => .v32 (field p x (.fill u .value32))

/-- FillRequest(u, mode), from the words as they stand (44_memory_fill.md R607). -/
def fillRequest (p : Params) (x : Memory) (u : FillUnit) (m : FillMode) : FillRequest where
  unit := u
  start := decodedField p x (.fill u .addressStart)
  stop := decodedField p x (.fill u .addressEnd)
  mode := m
  value := fillValue p x u m

/-- FillHook(u, m), run after the store (44_memory_fill.md R603..R606). -/
def fillHook (p : Params) (c : Context) (u : FillUnit) (m : Word) : Reply :=
  if isTriggerWrite c.x m (fieldPos p (.fill u .trigger)) then
    match c.fillOp u with
    | .busy _ => raise c (.operationAlreadyInProgress (fillRegion u))
    | .idle =>
      match fillMode p u (field p c.x (.fill u .fill24)) (field p c.x (.fill u .fill32)) with
      | .error e => raise c e
      | .ok mode =>
        let q := fillRequest p c.x u mode
        start (c.setFillOp u (.busy q)) (.fill q)
  else done c

/-- FILLDONE u (44_memory_fill.md R610): refused while the unit is Idle. -/
def execFilldone (u : FillUnit) (s : State) : Host.Outcome State Fault Refusal :=
  onContext (.filldone u) (fun p c =>
    match c.fillOp u with
    | .idle => raise c (.invalidTransaction (Instr.opcode (.filldone u)))
    | .busy _ => done ({ c with x := completeFill p c.x u }.setFillOp u .idle)) s

end Sys2Proof.Machine
end

