-- ==== Sys2Proof/Machine/Transfer.lean ====
section
/-! DEFINITION. Display transfer (46_display_transfer.md): the request derivation (R706..R708), XferHook (R703)
and the completion transaction XFERDONE (R712). -/

namespace Sys2Proof.Machine

/-- TextureCopy(): line and padding sizes in units of 16 bytes (46_display_transfer.md R708, 30_encoding.md R312). -/
def textureCopy (p : Params) (x : Memory) : TextureCopy :=
  let inLine := field p x (.xfer .inputLineUnits) * 16
  let inPad := field p x (.xfer .inputPaddingUnits) * 16
  let outLine := field p x (.xfer .outputLineUnits) * 16
  let outPad := field p x (.xfer .outputPaddingUnits) * 16
  { size := field p x (.xfer .textureCopySize)
    inputBytesPerLine := inLine
    inputPaddingBytesPerLine := inPad
    inputTotalBytesPerLine := inLine + inPad
    outputBytesPerLine := outLine
    outputPaddingBytesPerLine := outPad
    outputTotalBytesPerLine := outLine + outPad }

/-- The fields of the request that do not depend on the kind of copy, with the parts that do
(46_display_transfer.md R706). -/
def xferRequestWith (p : Params) (x : Memory) (inFmt outFmt : Option PixelFormat) (copy : Option TextureCopy) :
    XferRequest where
  inAddr := decodedField p x (.xfer .inputAddress)
  outAddr := decodedField p x (.xfer .outputAddress)
  outWidth := field p x (.xfer .outputWidth)
  outHeight := field p x (.xfer .outputHeight)
  inWidth := field p x (.xfer .inputWidth)
  inHeight := field p x (.xfer .inputHeight)
  flipData := field p x (.xfer .flipData)
  outputTiled := field p x (.xfer .outputTiled)
  convertToTiled := field p x (.xfer .convertToTiled)
  isRawCopy := field p x (.xfer .isRawCopy)
  disableUntiling := field p x (.xfer .disableUntiling)
  scalingMode := field p x (.xfer .scalingMode)
  inFmt := inFmt
  outFmt := outFmt
  copy := copy

/-- XferRequest(): without raw copy the input format is decoded first, then the output format, and the first bad
code is the error; with raw copy no format is decoded (46_display_transfer.md R706, R707). -/
def xferRequest (p : Params) (x : Memory) : Except ErrorKind XferRequest :=
  if field p x (.xfer .isRawCopy) ≠ 0 then
    .ok (xferRequestWith p x none none (some (textureCopy p x)))
  else
    match decFmt (field p x (.xfer .inputFormat)) with
    | .error e => .error e
    | .ok fin =>
      match decFmt (field p x (.xfer .outputFormat)) with
      | .error e => .error e
      | .ok fout => .ok (xferRequestWith p x (some fin) (some fout) none)

/-- XferHook(m, v), run after the store; the test is on the value written (46_display_transfer.md R703). The write
also has to cover the trigger field (20_memory.md R212): every write to word 0x306 does, since the field is the
whole word there (R702). -/
def xferHook (p : Params) (c : Context) (m v : Word) : Reply :=
  if v = 0 || !covers m (fieldPos p (.xfer .trigger)) then done c
  else
    match c.xfer with
    | .busy _ => raise c (.operationAlreadyInProgress .xfer)
    | .idle =>
      match xferRequest p c.x with
      | .error e => raise c e
      | .ok q => start { c with xfer := .busy q } (.xfer q)

/-- XFERDONE (46_display_transfer.md R712): refused while XFER is Idle. -/
def execXferdone (s : State) : Host.Outcome State Fault Refusal :=
  onContext .xferdone (fun p c =>
    match c.xfer with
    | .idle => raise c (.invalidTransaction (Instr.opcode .xferdone))
    | .busy _ => done { c with x := completeXfer p c.x, xfer := .idle }) s

end Sys2Proof.Machine
end

