-- ==== Sys2Proof/Machine/Bus.lean ====
section
/-! DEFINITION. The AccessDispatcher's bus access (43_access_dispatcher.md): the shared read and write
(R556..R559) and the six BUS transactions (R560..R565). -/

namespace Sys2Proof.Machine

/-- A bus read: the check, then the lanes, zero-extended (43_access_dispatcher.md R552, R556). -/
def busRead (w : Width) (a : Word) (c : Context) : Reply :=
  match checkAccess a w with
  | some e => raise c e
  | none => answer c (memRead c.x a w)

/-- The inspection of the word a store went to (43_access_dispatcher.md R558): the hook of the region whose trigger
field lies in word i, with the lane mask m and the written value v. -/
def inspect (p : Params) (c : Context) (i : Nat) (m v : Word) : Reply :=
  if i = (fieldPos p (.fill .fill0 .trigger)).word then fillHook p c .fill0 m
  else if i = (fieldPos p (.fill .fill1 .trigger)).word then fillHook p c .fill1 m
  else if i = (fieldPos p (.xfer .trigger)).word then xferHook p c m v
  else if i = (fieldPos p (.cmd .trigger)).word then cmdHook p c m
  else done c

/-- BusWrite(a, n, v): the check, the store, then the inspection (43_access_dispatcher.md R558). -/
def busWrite (w : Width) (a v : Word) (p : Params) (c : Context) : Reply :=
  match checkAccess a w with
  | some e => raise c e
  | none => inspect p { c with x := memWrite c.x a w v } (wordIndex a) (laneMask a w) v

/-- BREAD8 (43_access_dispatcher.md R560). -/
def execBread8 (a : Word) (s : State) : Host.Outcome State Fault Refusal :=
  onContext (.bread8 a) (fun _ c => busRead .w8 a c) s

/-- BREAD16 (43_access_dispatcher.md R561). -/
def execBread16 (a : Word) (s : State) : Host.Outcome State Fault Refusal :=
  onContext (.bread16 a) (fun _ c => busRead .w16 a c) s

/-- BREAD32 (43_access_dispatcher.md R562). -/
def execBread32 (a : Word) (s : State) : Host.Outcome State Fault Refusal :=
  onContext (.bread32 a) (fun _ c => busRead .w32 a c) s

/-- BWRITE8 (43_access_dispatcher.md R563). -/
def execBwrite8 (a : Word) (v : BitVec 8) (s : State) : Host.Outcome State Fault Refusal :=
  onContext (.bwrite8 a v) (busWrite .w8 a (v.setWidth 32)) s

/-- BWRITE16 (43_access_dispatcher.md R564). -/
def execBwrite16 (a : Word) (v : BitVec 16) (s : State) : Host.Outcome State Fault Refusal :=
  onContext (.bwrite16 a v) (busWrite .w16 a (v.setWidth 32)) s

/-- BWRITE32 (43_access_dispatcher.md R565). -/
def execBwrite32 (a v : Word) (s : State) : Host.Outcome State Fault Refusal :=
  onContext (.bwrite32 a v) (busWrite .w32 a v) s

end Sys2Proof.Machine
end

