-- ==== Sys2Proof/Machine/Field.lean ====
section
/-! DEFINITION. The FIELD port (41_packed_field.md): FGET (R455) and FSET (R456). Neither dispatches (R403). -/

namespace Sys2Proof.Machine

/-- FGET (41_packed_field.md R455). -/
def execFget (id : BitVec 8) (s : State) : Host.Outcome State Fault Refusal :=
  onContext (.fget id) (fun p c =>
    match FieldId.ofCode id with
    | none => raise c (.invalidTransaction (Instr.opcode (.fget id)))
    | some f => answer c (field p c.x f)) s

/-- FSET (41_packed_field.md R456): FieldOverflow stores nothing. -/
def execFset (id : BitVec 8) (v : Word) (s : State) : Host.Outcome State Fault Refusal :=
  onContext (.fset id v) (fun p c =>
    match FieldId.ofCode id with
    | none => raise c (.invalidTransaction (Instr.opcode (.fset id v)))
    | some f =>
      let q := fieldPos p f
      match insertField (c.x.word q.word) q.lsb q.width v with
      | .error e => raise c e
      | .ok w => done { c with x := c.x.setWord q.word w }) s

end Sys2Proof.Machine
end

