-- ==== Sys2Proof/Machine/Decoders.lean ====
section
/-! DEFINITION. The DEC port (42_decoders.md): DECADDR (R501) and DECFMT (R503). Both are pure (R505). -/

namespace Sys2Proof.Machine

/-- Answer with the table index of a format, or raise the decoder's error (42_decoders.md R503). -/
def answerFormat (c : Context) (code : Word) : Reply :=
  match decFmt code with
  | .error e => raise c e
  | .ok f => answer c f.index

/-- DECADDR (42_decoders.md R501). -/
def execDecaddr (v : Word) (s : State) : Host.Outcome State Fault Refusal :=
  onContext (.decaddr v) (fun _ c => answer c (decAddr v)) s

/-- DECFMT (42_decoders.md R503). -/
def execDecfmt (code : Word) (s : State) : Host.Outcome State Fault Refusal :=
  onContext (.decfmt code) (fun _ c => answerFormat c code) s

end Sys2Proof.Machine
end

