-- ==== Sys2Proof/Machine/Framebuffer.lean ====
section
/-! DEFINITION. The ACC port of the framebuffer units (45_framebuffer.md): FBLIVE (R653) and FBFMT (R655). -/

namespace Sys2Proof.Machine

/-- The address field that is live for an eye: active_fb selects the "...1" or the "...2" set
(45_framebuffer.md R651, R653; D19). R653 reads bit 0 of the word; under a FIELD_LAYOUT that gives active_fb more
bits, testing the whole field for zero is the model's DESIGN CHOICE (log 22). -/
def liveField (p : Params) (x : Memory) (f : FbUnit) : Eye → FieldId
  | .left => if field p x (.fb f .activeFb) = 0 then .fb f .addressLeft1 else .fb f .addressLeft2
  | .right => if field p x (.fb f .activeFb) = 0 then .fb f .addressRight1 else .fb f .addressRight2

/-- FBLIVE (45_framebuffer.md R653). -/
def execFblive (f : FbUnit) (e : Eye) (s : State) : Host.Outcome State Fault Refusal :=
  onContext (.fblive f e) (fun p c => answer c (decodedField p c.x (liveField p c.x f e))) s

/-- FBFMT (45_framebuffer.md R655). The rule extracts the low 3 bits; under a FIELD_LAYOUT that gives color_format
another place or width, decoding that whole field is the model's DESIGN CHOICE (log 22). -/
def execFbfmt (f : FbUnit) (s : State) : Host.Outcome State Fault Refusal :=
  onContext (.fbfmt f) (fun p c => answerFormat c (field p c.x (.fb f .colorFormat))) s

end Sys2Proof.Machine
end

