-- ==== Sys2Proof/Machine/Lifecycle.lean ====
section
/-! DEFINITION. The HOST port (70_reset_and_hazards.md section 1): INIT (R901, R902) and TEARDOWN (R905). -/

namespace Sys2Proof.Machine

/-- A draw of `INIT_WORDS` for the context built after the TEARDOWN at a position of the order (R150, log 2): a
free value. -/
def drawInitWords (position : Nat) : Memory := Memory.ofBytes (Config.freshInitByte position)

/-- INIT (70_reset_and_hazards.md R901..R903): refused when a context exists; a layout that breaks the contract
leaves no context (R809, log 8); else every word is `INIT_WORDS` and every region Idle. -/
def execInit (s : State) : Host.Outcome State Fault Refusal :=
  match s.ctx with
  | some _ => .next (s.refuse (Instr.opcode .init))
  | none =>
    if layoutOk s.params then .next (s.respond (some (Context.fresh s.initWords)) .ok)
    else .next (s.respond none (.error .layoutViolation))

/-- TEARDOWN (70_reset_and_hazards.md R905): refused when no context exists or a region is Busy; else the context
is gone, and the words the next INIT finds are a new draw (log 2). -/
def execTeardown (s : State) : Host.Outcome State Fault Refusal :=
  match s.ctx with
  | none => .next (s.refuse (Instr.opcode .teardown))
  | some c =>
    if c.anyBusy then .next (s.refuse (Instr.opcode .teardown))
    else .next { s.respond none .ok with initWords := drawInitWords s.position }

end Sys2Proof.Machine
end

