-- ==== Sys2Proof/Machine/Raw.lean ====
section
/-! DEFINITION. The RegisterFile's raw port (40_register_file.md): RREAD (R401) and RWRITE (R402). Neither
dispatches (R403). -/

namespace Sys2Proof.Machine

/-- RREAD (40_register_file.md R401). -/
def execRread (i : Word) (s : State) : Host.Outcome State Fault Refusal :=
  onContext (.rread i) (fun _ c =>
    if 4096 ≤ i.toNat then raise c (.outOfRange i) else answer c (c.x.word i.toNat)) s

/-- RWRITE (40_register_file.md R402, R403). -/
def execRwrite (i v : Word) (s : State) : Host.Outcome State Fault Refusal :=
  onContext (.rwrite i v) (fun _ c =>
    if 4096 ≤ i.toNat then raise c (.outOfRange i) else done { c with x := c.x.setWord i.toNat v }) s

end Sys2Proof.Machine
end

