-- ==== Sys2Proof/Machine/Dispatch.lean ====
section
/-! DEFINITION. One arm per instruction of opcode_table.json: its meaning (30_encoding.md R303). -/

namespace Sys2Proof.Machine

def exec (i : Instr) (s : State) : Host.Outcome State Fault Refusal :=
  match i with
  | .bread8 a => Sys2Proof.Machine.execBread8 a s
  | .bread16 a => Sys2Proof.Machine.execBread16 a s
  | .bread32 a => Sys2Proof.Machine.execBread32 a s
  | .bwrite8 a v => Sys2Proof.Machine.execBwrite8 a v s
  | .bwrite16 a v => Sys2Proof.Machine.execBwrite16 a v s
  | .bwrite32 a v => Sys2Proof.Machine.execBwrite32 a v s
  | .rread j => Sys2Proof.Machine.execRread j s
  | .rwrite j v => Sys2Proof.Machine.execRwrite j v s
  | .filldone u => Sys2Proof.Machine.execFilldone u s
  | .xferdone => Sys2Proof.Machine.execXferdone s
  | .cmddone => Sys2Proof.Machine.execCmddone s
  | .fget f => Sys2Proof.Machine.execFget f s
  | .fset f v => Sys2Proof.Machine.execFset f v s
  | .decaddr v => Sys2Proof.Machine.execDecaddr v s
  | .decfmt c => Sys2Proof.Machine.execDecfmt c s
  | .fblive f e => Sys2Proof.Machine.execFblive f e s
  | .fbfmt f => Sys2Proof.Machine.execFbfmt f s
  | .init => Sys2Proof.Machine.execInit s
  | .teardown => Sys2Proof.Machine.execTeardown s

end Sys2Proof.Machine
end

