-- ==== Sys2Proof/Machine/Step.lean ====
section
/-! DEFINITION. One step: the next presented transaction is performed, atomically (10_state.md R130, 20_memory.md
R220). -/

namespace Sys2Proof.Machine

/-- One step of the block: the first presented transaction is taken, decoded and performed; one that names no
operation is refused with InvalidTransaction (30_encoding.md R321); with nothing presented nothing happens
(log 6). -/
def step (s : State) : Host.Outcome State Fault Refusal :=
  match s.takeNext with
  | none => .next s
  | some (t, s') =>
    match decode t with
    | .ok i => exec i s'
    | .reject _ => .next (s'.refuse t.op)

/-- The state in which the transaction with table word `w` is the next one performed: it is presented first, and
nothing else changes (log 5, log 6). -/
def State.withFetchWord (s : State) (nbits w : Nat) : State := s.presentFirst (Transaction.ofTableWord nbits w)

end Sys2Proof.Machine
end

