-- ==== Sys2Proof/Machine/Assembly.lean ====
section
/-! DEFINITION. The spec's own assembler notation: the line of a transaction (30_encoding.md R330) and the
expansions of the pseudo-instructions (R331). POLL is a loop of the CPU, no transaction (R331). -/

namespace Sys2Proof.Machine

/-- An operand of an assembly line: a number, a region instance, a named field, or an eye. -/
inductive AsmOperand where
  | num (v : Word)
  | region (r : Region)
  | fieldName (f : FieldId)
  | eye (e : Eye)
deriving DecidableEq, Repr

/-- One line: the mnemonic and its operands (30_encoding.md R330). -/
structure AsmLine where
  mnemonic : String
  operands : List AsmOperand
deriving DecidableEq, Repr

/-- The number of a framebuffer unit. -/
def fbNumber : FbUnit → Word
  | .fb0 => 0
  | .fb1 => 1

/-- The field operand of FGET and FSET; a reserved identifier has no name and is written as its number. -/
def asmField (id : BitVec 8) : AsmOperand :=
  match FieldId.ofCode id with
  | some f => .fieldName f
  | none => .num (id.setWidth 32)

/-- The assembly line of an instruction (30_encoding.md R330). -/
def assembly : Instr → AsmLine
  | .bread8 a => ⟨"R8", [.num a]⟩
  | .bread16 a => ⟨"R16", [.num a]⟩
  | .bread32 a => ⟨"R32", [.num a]⟩
  | .bwrite8 a v => ⟨"W8", [.num a, .num (v.setWidth 32)]⟩
  | .bwrite16 a v => ⟨"W16", [.num a, .num (v.setWidth 32)]⟩
  | .bwrite32 a v => ⟨"W32", [.num a, .num v]⟩
  | .rread i => ⟨"RR", [.num i]⟩
  | .rwrite i v => ⟨"RW", [.num i, .num v]⟩
  | .filldone .fill0 => ⟨"DONE", [.region .fill0]⟩
  | .filldone .fill1 => ⟨"DONE", [.region .fill1]⟩
  | .xferdone => ⟨"DONE", [.region .xfer]⟩
  | .cmddone => ⟨"DONE", [.region .cmd]⟩
  | .fget id => ⟨"FGET", [asmField id]⟩
  | .fset id v => ⟨"FSET", [asmField id, .num v]⟩
  | .decaddr v => ⟨"DECADDR", [.num v]⟩
  | .decfmt c => ⟨"DECFMT", [.num c]⟩
  | .fblive f e => ⟨"FBLIVE", [.num (fbNumber f), .eye e]⟩
  | .fbfmt f => ⟨"FBFMT", [.num (fbNumber f)]⟩
  | .init => ⟨"INIT", []⟩
  | .teardown => ⟨"TEARDOWN", []⟩

/-- The pseudo-instructions that expand to transactions (30_encoding.md R331). `FILL` takes m = 24 or 32. -/
inductive Pseudo where
  | fill24 (u : FillUnit) (s e v : Word)
  | fill32 (u : FillUnit) (s e v : Word)
  | cmdlist (p n : Word)
  | fbswap (f : FbUnit) (second : Bool)
  | tcopy (i o n ip op : Word)
deriving DecidableEq, Repr

/-- The base byte of a fill unit, 0x010 + 0x10 u (10_state.md R110). -/
def fillBaseByte : FillUnit → Word
  | .fill0 => 0x010
  | .fill1 => 0x020

/-- The FILL expansion with control word c (30_encoding.md R331). -/
def expandFill (u : FillUnit) (s e v c : Word) : List Instr :=
  let b := fillBaseByte u
  [.bwrite32 b s, .bwrite32 (b + 4) e, .bwrite32 (b + 8) v, .bwrite32 (b + 0xC) c]

/-- The expansion of a pseudo-instruction (30_encoding.md R331). -/
def expand : Pseudo → List Instr
  | .fill24 u s e v => expandFill u s e v 0x101
  | .fill32 u s e v => expandFill u s e v 0x201
  | .cmdlist p n => [.bwrite32 0x18E0 n, .bwrite32 0x18E8 p, .bwrite32 0x18F0 1]
  | .fbswap f second => [.bwrite32 (0x478 + 0x100 * fbNumber f) (if second then 1 else 0)]
  | .tcopy i o n ip op =>
    [.bwrite32 0xC00 i, .bwrite32 0xC04 o, .bwrite32 0xC10 0x8, .bwrite32 0xC20 n, .bwrite32 0xC24 ip,
     .bwrite32 0xC28 op, .bwrite32 0xC18 1]

end Sys2Proof.Machine
end

