-- ==== Sys2Proof/Machine/BusLayer.lean ====
section
/-! DEFINITION. The CPU bus layer in front of the BUS port, as far as the spec gives it: the address it presents
(20_memory.md R201) and what the CPU sees of a response under `BUS_ERROR_POLICY` (43_access_dispatcher.md R566;
log 11). No transaction of the block reads these. -/

namespace Sys2Proof.Machine

/-- What the CPU sees of a bus access. -/
inductive CpuSees where
  | done
  | value (v : Word)
  | fault (e : ErrorKind)
deriving DecidableEq, Repr

/-- The window offset the bus layer presents for a CPU address: it subtracts the base (20_memory.md R201). For an
address below the base the spec gives no offset; the difference taken modulo 2^32 is the model's DESIGN CHOICE
(log 21). -/
def windowOffset (cpuAddress : Word) : Word := cpuAddress - Config.gpuRegBase

/-- What a bus layer with a policy shows of a response: an error is a fault, or it is no-op and the value of a
failed read is a draw (43_access_dispatcher.md R566, U6). -/
def cpuSees (policy : BusErrorPolicy) (draw : Word) (isRead : Bool) (r : Response) : CpuSees :=
  match r.status with
  | .ok =>
    match r.result with
    | some v => .value v
    | none => .done
  | .error e =>
    match policy with
    | .report => .fault e
    | .ignore => if isRead then .value draw else .done

/-- What the CPU sees of the last transaction, when that was a bus access (R810): the policy and the failed read's
value are the free constants of Config. -/
def State.cpuSees (s : State) (isRead : Bool) : Option CpuSees :=
  s.response.map (Sys2Proof.Machine.cpuSees Config.busErrorPolicy (Config.failedReadValue s.position) isRead)

end Sys2Proof.Machine
end

