-- ==== Sys2Proof/Safety.lean ====
section
/-! DEFINITION. What claims are stated in: the invariant of the machine, the records handed to the executors as the
spec writes them, and executions with the executors' fairness (60_exceptions.md R821). -/

namespace Sys2Proof.Machine

/-- The state after a transaction of the context: the context `c`, the status, the result and the emission;
everything else is as in `s`. -/
def State.replied (s : State) (c : Context) (st : Status) (r : Option Word) (e : Option Request) : State :=
  { s with ctx := some c, response := some ⟨st, r⟩, emitted := e }

/-! ### The invariant -/

/-- The predicate holds of the request a Busy region holds. -/
def OpState.Holds {ρ : Type} (P : ρ → Prop) : OpState ρ → Prop
  | .idle => True
  | .busy q => P q

/-- A held fill request: its own unit, addresses that are multiples of 8, a value in the form of its mode
(44_memory_fill.md R607, R608, 42_decoders.md R501). -/
def FillRequest.Ok (u : FillUnit) (q : FillRequest) : Prop :=
  q.unit = u ∧ q.start.toNat % 8 = 0 ∧ q.stop.toNat % 8 = 0 ∧
  match q.mode with
  | .m16 => ∃ v, q.value = .v16 v
  | .m24 => ∃ r g b, q.value = .rgb r g b
  | .m32 => ∃ v, q.value = .v32 v

/-- A held transfer request: addresses that are multiples of 8, and formats exactly when there is no raw copy, the
copy record exactly when there is (46_display_transfer.md R706). -/
def XferRequest.Ok (q : XferRequest) : Prop :=
  q.inAddr.toNat % 8 = 0 ∧ q.outAddr.toNat % 8 = 0 ∧
  (q.isRawCopy = 0 → q.inFmt.isSome ∧ q.outFmt.isSome ∧ q.copy = none) ∧
  (q.isRawCopy ≠ 0 → q.inFmt = none ∧ q.outFmt = none ∧ q.copy.isSome)

/-- A held command-list request: an address and a length that are multiples of 8 (47_command_processor.md R753). -/
def CmdRequest.Ok (q : CmdRequest) : Prop := q.addr.toNat % 8 = 0 ∧ q.len.toNat % 8 = 0

/-- A context in good order: the window in canonical form, and every held request as its rule makes it. -/
structure Context.Inv (c : Context) : Prop where
  window : c.x.wf
  fill0 : c.fill0.Holds (FillRequest.Ok .fill0)
  fill1 : c.fill1.Holds (FillRequest.Ok .fill1)
  xfer : c.xfer.Holds XferRequest.Ok
  cmd : c.cmd.Holds CmdRequest.Ok

/-- The invariant of the machine: a context exists only over a checked layout (70_reset_and_hazards.md R902,
60_exceptions.md R809) and is in good order; the next INIT's words are in canonical form too. -/
structure State.Inv (s : State) : Prop where
  initWords : s.initWords.wf
  layout : s.ctx.isSome → layoutOk s.params = true
  context : ∀ c, s.ctx = some c → c.Inv

/-! ### Bus writes of any width -/

/-- The value a write of a width carries: the low 8, 16 or 32 bits of the operand (30_encoding.md R303). -/
def carried : Width → Word → Word
  | .w8, v => v &&& 0xFF
  | .w16, v => v &&& 0xFFFF
  | .w32, v => v

/-- The lanes a write of a width covers when it starts at lane 0. -/
def lowLanes : Width → Word
  | .w8 => 0xFF
  | .w16 => 0xFFFF
  | .w32 => 0xFFFFFFFF

/-- The word after a bus write at byte address a: the lanes from a mod 4 on replaced by the carried value
(43_access_dispatcher.md R557). -/
def storedLanes (w : Width) (old a v : Word) : Word :=
  (old &&& ~~~(lowLanes w <<< (8 * (a.toNat % 4)))) ||| (carried w v <<< (8 * (a.toNat % 4)))

/-- The instruction reads and stores nothing (20_memory.md R211, 42_decoders.md R505). -/
def isReadInstr : Instr → Bool
  | .bread8 _ => true
  | .bread16 _ => true
  | .bread32 _ => true
  | .bwrite8 _ _ => false
  | .bwrite16 _ _ => false
  | .bwrite32 _ _ => false
  | .rread _ => true
  | .rwrite _ _ => false
  | .filldone _ => false
  | .xferdone => false
  | .cmddone => false
  | .fget _ => true
  | .fset _ _ => false
  | .decaddr _ => true
  | .decfmt _ => true
  | .fblive _ _ => true
  | .fbfmt _ => true
  | .init => false
  | .teardown => false

/-- The bus write of a width at a byte address. -/
def busWriteOf : Width → Word → Word → Instr
  | .w8, a, v => .bwrite8 a (v.setWidth 8)
  | .w16, a, v => .bwrite16 a (v.setWidth 16)
  | .w32, a, v => .bwrite32 a v

/-- The completion transaction of a region (60_exceptions.md R819). -/
def completionOf : Region → Instr
  | .fill0 => .filldone .fill0
  | .fill1 => .filldone .fill1
  | .xfer => .xferdone
  | .cmd => .cmddone

/-- The trigger field of an asynchronous region (10_state.md R115). -/
def triggerField : Region → FieldId
  | .fill0 => .fill .fill0 .trigger
  | .fill1 => .fill .fill1 .trigger
  | .xfer => .xfer .trigger
  | .cmd => .cmd .trigger

/-- The instruction is a trigger write of region r, x being the words after its store: an aligned bus write inside the
window to the word of the trigger field, whose lanes cover the field (43_access_dispatcher.md R554), and which leaves
the field set (44_memory_fill.md R603, 47_command_processor.md R753) or, for XFER, carries a nonzero value
(46_display_transfer.md R703). -/
def IsTriggerWriteOf (i : Instr) (p : Params) (x : Memory) (r : Region) : Prop :=
  ∃ w a v, i = busWriteOf w a v ∧ a.toNat < 0x4000 ∧ a.toNat % widthBytes w = 0
    ∧ a.toNat / 4 = (fieldPos p (triggerField r)).word
    ∧ laneMask a w &&& fieldMask (fieldPos p (triggerField r)) ≠ 0
    ∧ (r ≠ .xfer → field p x (triggerField r) ≠ 0)
    ∧ (r = .xfer → carried w v ≠ 0)

/-- The region a request is emitted to. -/
def Request.region : Request → Region
  | .fill q => match q.unit with | .fill0 => .fill0 | .fill1 => .fill1
  | .xfer _ => .xfer
  | .cmd _ => .cmd

/-! ### The named fields, row by row (30_encoding.md R305 over 10_state.md R110..R113) -/

/-- One identifier, the field it names and the field's place. -/
structure FieldRow where
  id : BitVec 8
  field : FieldId
  pos : FieldPos
deriving DecidableEq, Repr

/-- The rows of a fill unit, its identifiers from `k` on and its words from `B` on (R110). -/
def fillRows (u : FillUnit) (k : BitVec 8) (B : Nat) (o : Fill24Order) : List FieldRow :=
  [⟨k + 0x0, .fill u .addressStart, ⟨B, 0, 32⟩⟩,
   ⟨k + 0x1, .fill u .addressEnd, ⟨B + 1, 0, 32⟩⟩,
   ⟨k + 0x2, .fill u .value32, ⟨B + 2, 0, 32⟩⟩,
   ⟨k + 0x3, .fill u .value16, ⟨B + 2, 0, 16⟩⟩,
   ⟨k + 0x4, .fill u .value24r, match o with | .rgbLowFirst => ⟨B + 2, 0, 8⟩ | .bgrLowFirst => ⟨B + 2, 16, 8⟩⟩,
   ⟨k + 0x5, .fill u .value24g, ⟨B + 2, 8, 8⟩⟩,
   ⟨k + 0x6, .fill u .value24b, match o with | .rgbLowFirst => ⟨B + 2, 16, 8⟩ | .bgrLowFirst => ⟨B + 2, 0, 8⟩⟩,
   ⟨k + 0x7, .fill u .trigger, ⟨B + 3, 0, 1⟩⟩,
   ⟨k + 0x8, .fill u .finished, ⟨B + 3, 1, 1⟩⟩,
   ⟨k + 0x9, .fill u .fill24, ⟨B + 3, 8, 1⟩⟩,
   ⟨k + 0xA, .fill u .fill32, ⟨B + 3, 9, 1⟩⟩]

/-- The rows of a framebuffer unit (R111; the size word R656, the stride R654). -/
def fbRows (u : FbUnit) (k : BitVec 8) (B : Nat) : List FieldRow :=
  [⟨k + 0x0, .fb u .width, ⟨B, 0, 16⟩⟩,
   ⟨k + 0x1, .fb u .height, ⟨B, 16, 16⟩⟩,
   ⟨k + 0x2, .fb u .addressLeft1, ⟨B + 0x03, 0, 32⟩⟩,
   ⟨k + 0x3, .fb u .addressLeft2, ⟨B + 0x04, 0, 32⟩⟩,
   ⟨k + 0x4, .fb u .colorFormat, ⟨B + 0x05, 0, 3⟩⟩,
   ⟨k + 0x5, .fb u .activeFb, ⟨B + 0x07, 0, 1⟩⟩,
   ⟨k + 0x6, .fb u .stride, ⟨B + 0x0D, 0, 32⟩⟩,
   ⟨k + 0x7, .fb u .addressRight1, ⟨B + 0x0E, 0, 32⟩⟩,
   ⟨k + 0x8, .fb u .addressRight2, ⟨B + 0x0F, 0, 32⟩⟩]

/-- The rows of XFER; `bit` is `CONVERT_TO_TILED_BIT` (R112). -/
def xferRows (bit : Nat) : List FieldRow :=
  [⟨0x40, .xfer .inputAddress, ⟨0x300, 0, 32⟩⟩,
   ⟨0x41, .xfer .outputAddress, ⟨0x301, 0, 32⟩⟩,
   ⟨0x42, .xfer .outputWidth, ⟨0x302, 0, 16⟩⟩,
   ⟨0x43, .xfer .outputHeight, ⟨0x302, 16, 16⟩⟩,
   ⟨0x44, .xfer .inputWidth, ⟨0x303, 0, 16⟩⟩,
   ⟨0x45, .xfer .inputHeight, ⟨0x303, 16, 16⟩⟩,
   ⟨0x46, .xfer .flipData, ⟨0x304, 0, 1⟩⟩,
   ⟨0x47, .xfer .outputTiled, ⟨0x304, 1, 1⟩⟩,
   ⟨0x48, .xfer .convertToTiled, ⟨0x304, bit, 1⟩⟩,
   ⟨0x49, .xfer .isRawCopy, ⟨0x304, 3, 1⟩⟩]
  ++ [⟨0x4A, .xfer .disableUntiling, ⟨0x304, 5, 1⟩⟩,
   ⟨0x4B, .xfer .inputFormat, ⟨0x304, 8, 3⟩⟩,
   ⟨0x4C, .xfer .outputFormat, ⟨0x304, 12, 3⟩⟩,
   ⟨0x4D, .xfer .scalingMode, ⟨0x304, 24, 2⟩⟩,
   ⟨0x4E, .xfer .trigger, ⟨0x306, 0, 32⟩⟩,
   ⟨0x4F, .xfer .textureCopySize, ⟨0x308, 0, 32⟩⟩,
   ⟨0x50, .xfer .inputLineUnits, ⟨0x309, 0, 16⟩⟩,
   ⟨0x51, .xfer .inputPaddingUnits, ⟨0x309, 16, 16⟩⟩,
   ⟨0x52, .xfer .outputLineUnits, ⟨0x30A, 0, 16⟩⟩,
   ⟨0x53, .xfer .outputPaddingUnits, ⟨0x30A, 16, 16⟩⟩]

/-- The rows of CMD (R113). -/
def cmdRows : List FieldRow :=
  [⟨0x60, .cmd .size, ⟨0x638, 0, 32⟩⟩,
   ⟨0x61, .cmd .address, ⟨0x63A, 0, 32⟩⟩,
   ⟨0x62, .cmd .trigger, ⟨0x63C, 0, 1⟩⟩]

/-- Every row of R305 with the place that R110..R113 give its field. -/
def fieldTable (o : Fill24Order) (bit : Nat) : List FieldRow :=
  fillRows .fill0 0x00 0x004 o ++ fillRows .fill1 0x10 0x008 o ++ fbRows .fb0 0x20 0x117 ++ fbRows .fb1 0x30 0x157
    ++ xferRows bit ++ cmdRows

/-- The value read is the field's bits as a number (41_packed_field.md R451, R455). -/
def ReadsField (x : Memory) (q : FieldPos) (r : Word) : Prop :=
  r.toNat = (x.word q.word).toNat / 2 ^ q.lsb % 2 ^ q.width

/-- The window x' is x with the field's bits holding v: every other bit of its word, every other word and every byte
outside the word is the same (41_packed_field.md R452, R456). -/
def WritesOnlyField (x x' : Memory) (q : FieldPos) (v : Word) : Prop :=
  (∀ j, j < 32 → (x'.word q.word).getLsbD j
      = if q.lsb ≤ j ∧ j < q.lsb + q.width then v.getLsbD (j - q.lsb) else (x.word q.word).getLsbD j)
  ∧ (∀ k, k ≠ q.word → x'.word k = x.word k)
  ∧ ∀ b, b / 4 ≠ q.word → x'.byte b = x.byte b

/-! ### The records of the executors, as the rules write them over the words of the spec's layout -/

/-- The base word of a fill unit, B = 0x004 + 4u (10_state.md R110). -/
def fillBase : FillUnit → Nat
  | .fill0 => 0x004
  | .fill1 => 0x008

/-- The base word of a framebuffer unit, B = 0x117 + 0x40 f (10_state.md R111). -/
def fbBase : FbUnit → Nat
  | .fb0 => 0x117
  | .fb1 => 0x157

/-- The word of the address that is live for an eye under a value of active_fb (45_framebuffer.md R653). -/
def liveWord (f : FbUnit) (second : Bool) : Eye → Nat
  | .left => if second then fbBase f + 0x04 else fbBase f + 0x03
  | .right => if second then fbBase f + 0x0F else fbBase f + 0x0E

/-- FillValue(w, mode) as 44_memory_fill.md R608 writes it. -/
def fillValueOf (o : Fill24Order) (w : Word) : FillMode → FillValue
  | .m16 => .v16 (w &&& 0xFFFF)
  | .m32 => .v32 w
  | .m24 =>
    match o with
    | .rgbLowFirst => .rgb (w &&& 0xFF) ((w >>> 8) &&& 0xFF) ((w >>> 16) &&& 0xFF)
    | .bgrLowFirst => .rgb ((w >>> 16) &&& 0xFF) ((w >>> 8) &&& 0xFF) (w &&& 0xFF)

/-- FillRequest(u, mode) as 44_memory_fill.md R607 writes it. -/
def fillRequestOf (o : Fill24Order) (x : Memory) (u : FillUnit) (m : FillMode) : FillRequest where
  unit := u
  start := x.word (fillBase u) * 8
  stop := x.word (fillBase u + 1) * 8
  mode := m
  value := fillValueOf o (x.word (fillBase u + 2)) m

/-- TextureCopy() as 46_display_transfer.md R708 writes it. -/
def textureCopyOf (x : Memory) : TextureCopy where
  size := x.word 0x308
  inputBytesPerLine := (x.word 0x309 &&& 0xFFFF#32) * 16#32
  inputPaddingBytesPerLine := (x.word 0x309 >>> 16) * 16#32
  inputTotalBytesPerLine := (x.word 0x309 &&& 0xFFFF#32) * 16#32 + (x.word 0x309 >>> 16) * 16#32
  outputBytesPerLine := (x.word 0x30A &&& 0xFFFF#32) * 16#32
  outputPaddingBytesPerLine := (x.word 0x30A >>> 16) * 16#32
  outputTotalBytesPerLine := (x.word 0x30A &&& 0xFFFF#32) * 16#32 + (x.word 0x30A >>> 16) * 16#32

/-- XferRequest() as 46_display_transfer.md R706 writes it, with the parts that depend on the kind of copy;
`bit` is `CONVERT_TO_TILED_BIT`. -/
def xferRequestOf (bit : Nat) (x : Memory) (inFmt outFmt : Option PixelFormat) (copy : Option TextureCopy) :
    XferRequest where
  inAddr := x.word 0x300 * 8
  outAddr := x.word 0x301 * 8
  outWidth := x.word 0x302 &&& 0xFFFF
  outHeight := x.word 0x302 >>> 16
  inWidth := x.word 0x303 &&& 0xFFFF
  inHeight := x.word 0x303 >>> 16
  flipData := x.word 0x304 &&& 1
  outputTiled := (x.word 0x304 >>> 1) &&& 1
  convertToTiled := (x.word 0x304 >>> bit) &&& 1
  isRawCopy := (x.word 0x304 >>> 3) &&& 1
  disableUntiling := (x.word 0x304 >>> 5) &&& 1
  scalingMode := (x.word 0x304 >>> 24) &&& 3
  inFmt := inFmt
  outFmt := outFmt
  copy := copy

/-- The input and output format codes of the flags word, F[10:8] and F[14:12] (46_display_transfer.md R706). -/
def inputCode (x : Memory) : Word := (x.word 0x304 >>> 8) &&& 7

/-- See `inputCode`. -/
def outputCode (x : Memory) : Word := (x.word 0x304 >>> 12) &&& 7

/-- The format with a table index (30_encoding.md R311). -/
def formatOf : Nat → Option PixelFormat
  | 0 => some .rgba8
  | 1 => some .rgb8
  | 2 => some .rgb565
  | 3 => some .rgba5551
  | 4 => some .rgba4
  | _ => none

/-! ### Executions and fairness (60_exceptions.md R821, log 12) -/

/-- One move of the block and its agents: the block performs the next transaction, or an agent presents one. -/
inductive Move : State → State → Prop where
  | perform {s s' : State} (h : step s = .next s') : Move s s'
  | present (s : State) (t : Transaction) : Move s (s.present t)

/-- An infinite execution: a state at each time, each next one by a move. -/
def IsExecution (e : Nat → State) : Prop := ∀ n, Move (e n) (e (n + 1))

/-- The region is Busy in a context that exists. -/
def State.isBusy (s : State) (r : Region) : Bool :=
  match s.ctx with
  | none => false
  | some c => c.isBusy r

/-- At time n the block performs the completion transaction of region r. -/
def Completes (e : Nat → State) (r : Region) (n : Nat) : Prop :=
  (∃ t rest, (e n).pending = t :: rest ∧ decode t = .ok (completionOf r)) ∧ step (e n) = .next (e (n + 1))

/-- Weak fairness of the completion step of r: from no time on is the region Busy for ever without its executor
taking the completion step (44_memory_fill.md R611, 46_display_transfer.md R714, 47_command_processor.md R759). -/
def CompletionFair (e : Nat → State) (r : Region) : Prop :=
  ∀ n, (∀ m, n ≤ m → (e m).isBusy r = true) → ∃ m, n ≤ m ∧ Completes e r m

end Sys2Proof.Machine
end

