-- ==== Sys2Proof/Certificates/Slice0/Obligations.lean ====
section
/-! DEFINITION. The statements about the register-file block, from the numbered rules of spec/. The premise
`s.params.layout = Layout.spec` fixes FIELD_LAYOUT at the value the spec takes (10_state.md R110..R113, places the
spec marks as its own decision D10..D13); the other parameters stay free in every statement. -/

open Sys2Proof Sys2Proof.Machine

/-! ### Encoding -/

/-- Transactions written out from 30_encoding.md R303 to R305 decode to the instruction they stand for. -/
def Obligations.SampleTransactionsDecode : Prop :=
  decode ⟨0x07, 0x0000001C, 0x00000201⟩ = .ok (.bwrite32 0x1C 0x201)
  ∧ decode ⟨0x03, 0x0000001C, 0x00000000⟩ = .ok (.bread32 0x1C)
  ∧ decode ⟨0x11, 0x00000FFF, 0xDEADBEEF⟩ = .ok (.rwrite 0xFFF 0xDEADBEEF)
  ∧ decode ⟨0x21, 0x00000000, 0x00000000⟩ = .ok (.filldone .fill1)
  ∧ decode ⟨0x31, 0x00000020, 0x00000190⟩ = .ok (.fset 0x20 0x190)
  ∧ decode ⟨0x41, 0x00000000, 0x00000002⟩ = .ok (.decfmt 2)
  ∧ decode ⟨0x50, 0x00000003, 0x00000000⟩ = .ok (.fblive .fb1 .right)
  ∧ decode ⟨0xF1, 0x00000000, 0x00000000⟩ = .ok .teardown
  ∧ decode ⟨0x04, 0x00000000, 0x00000000⟩ = .reject .reservedOp

/-- Decode and encode agree: every well-formed instruction, with every operand at every value, decodes from its
transaction, and from the transaction's bytes with the rest left over (R301, R303; the byte form is the model's
choice, log 5). -/
def Obligations.EncodeThenDecodeIsIdentity : Prop :=
  ∀ i : Instr, i.wellFormed = true →
    decode (encode i) = .ok i ∧ ∀ rest, decodeBytes ((encode i).toBytes ++ rest) = some (.ok i, rest)

/-- The other direction: a transaction that decodes is the encoding of its instruction up to the operand bits the
decoder does not use, and the instruction is well formed. Those are the operands R303 calls ignored; that d[31:8] of
BWRITE8 and d[31:16] of BWRITE16 are among them is DEDUCED from the operands d[7:0] and d[15:0] of R303 (log 14). -/
def Obligations.DecodedTransactionIsItsCanonicalEncoding : Prop :=
  ∀ (t : Transaction) (i : Instr), decode t = .ok i → i.wellFormed = true ∧ encode i = t.canonical

/-- A reserved op, a reserved field identifier or a nonzero must-be-0 selector bit: the step changes no state of the
block, returns no data and reports InvalidTransaction (30_encoding.md R320, R321, the spec's own decision D32). -/
def Obligations.ReservedEncodingIsRefused : Prop :=
  ∀ (s : State) (t : Transaction) (rest : List Transaction), s.pending = t :: rest →
    (t.op ∉ ([0x01, 0x02, 0x03, 0x05, 0x06, 0x07, 0x10, 0x11, 0x20, 0x21, 0x22, 0x23, 0x30, 0x31, 0x40, 0x41, 0x50, 0x51,
        0xF0, 0xF1] : List (BitVec 8))
      ∨ ((t.op = 0x30 ∨ t.op = 0x31) ∧ (0x100 ≤ t.a.toNat ∨ listedFieldCode (t.a.setWidth 8) = false))
      ∨ (t.op = 0x50 ∧ 4 ≤ t.a.toNat)
      ∨ (t.op = 0x51 ∧ 2 ≤ t.a.toNat)) →
    step s = .next { s with
      pending := rest
      position := s.position + 1
      response := some ⟨.error (.invalidTransaction t.op), none⟩
      emitted := none }

/-! ### The step -/

/-- A step runs the decoded instruction: the first presented transaction is taken off the order, the position moves
on, and exec runs it. With nothing presented nothing happens (the model's choice, log 6). -/
def Obligations.StepRunsTheDecodedInstruction : Prop :=
  (∀ (s : State) (t : Transaction) (rest : List Transaction) (i : Instr), s.pending = t :: rest → decode t = .ok i →
      step s = exec i { s with pending := rest, position := s.position + 1 })
  ∧ ∀ s : State, s.pending = [] → step s = .next s

/-- Whatever the state, a step answers a next state, and the response and the emission of earlier transactions have no
part in it (60_exceptions.md R813, R814). That a step with nothing presented answers the same state is the model's
choice (log 6); that every error is a next state (log 7), and that transactions go on after a LayoutViolation, of which
R809 says that none can follow (log 8), are DEDUCED. -/
def Obligations.ErrorsDoNotAffectLaterTransactions : Prop :=
  ∀ s : State, (∃ s', step s = .next s')
    ∧ (s.pending ≠ [] → ∀ (r : Option Response) (q : Option Request), step { s with response := r, emitted := q } = step s)

/-! ### Invariants of the whole machine -/

/-- Every step keeps the invariant: a context exists only over a layout that passed the assertions of INIT (R902,
R809), its window is canonical and inside 16 KiB (R101), and every held request is one its rule makes (R607, R706,
R753). -/
def Obligations.StepKeepsTheInvariant : Prop :=
  ∀ s s' : State, s.Inv → step s = .next s' → s'.Inv

/-- The machine after reset meets the invariant. -/
def Obligations.ResetMeetsTheInvariant : Prop := State.reset.Inv

/-- No step changes a parameter. 70_reset_and_hazards.md R901 fixes them for one context only; that TEARDOWN and a later
INIT keep them too is the model's choice (log 3). -/
def Obligations.StepKeepsTheParameters : Prop :=
  ∀ s s' : State, step s = .next s' → s'.params = s.params

/-- A region goes Busy only on an accepted trigger write: an aligned bus write to the word of its trigger field whose
lanes cover the field (43_access_dispatcher.md R554) and which leaves it set (44_memory_fill.md R603,
47_command_processor.md R753) or, for XFER, carries a nonzero value (46_display_transfer.md R703); it is answered OK and
emits the request then held (R604, R704, R754). A region goes Idle only on its completion event (10_state.md R121; what
a trigger write is, is the spec's own decision D7; that a write which triggers XFER also covers its field, log 16). -/
def Obligations.OperationStateMovesOnlyOnTriggerAndCompletion : Prop :=
  ∀ (i : Instr) (s s' : State) (c c' : Context) (r : Region),
    s.ctx = some c → exec i s = .next s' → s'.ctx = some c' →
      (c.isBusy r = false → c'.isBusy r = true →
        IsTriggerWriteOf i s.params c'.x r ∧ s'.response = some ⟨.ok, none⟩ ∧ s'.emitted = c'.held r)
      ∧ (c.isBusy r = true → c'.isBusy r = false → i = completionOf r)

/-- An executor receives exactly one request per Idle to Busy move, the one then held, and none otherwise
(60_exceptions.md R820, the spec's own decisions D8 and D21). -/
def Obligations.EmissionIsOneRequestPerStart : Prop :=
  ∀ (i : Instr) (s s' : State), exec i s = .next s' →
    (∀ c c', s.ctx = some c → s'.ctx = some c' →
      ∀ q, s'.emitted = some q ↔ ∃ r, c.isBusy r = false ∧ c'.held r = some q)
    ∧ (s.ctx = none ∨ s'.ctx = none → s'.emitted = none)

/-- While a region is Busy the request it holds is a snapshot: no transaction but its completion changes it, and no
transaction destroys the context (10_state.md R122, 70_reset_and_hazards.md R905; the spec's own decisions D8, D26). -/
def Obligations.HeldRequestIsASnapshot : Prop :=
  ∀ (i : Instr) (s s' : State) (c : Context) (r : Region) (q : Request),
    s.ctx = some c → c.held r = some q → exec i s = .next s' →
      ∃ c', s'.ctx = some c' ∧ (c'.held r = some q ∨ i = completionOf r)

/-- 20_memory.md R211: a read changes no word, no operation state, no parameter; only the response is new. -/
def Obligations.ReadsHaveNoSideEffects : Prop :=
  ∀ (i : Instr) (s s' : State), isReadInstr i = true → exec i s = .next s' →
    s' = { s with response := s'.response, emitted := none }

/-- Every Busy region whose completion step is taken fairly becomes Idle (44_memory_fill.md R611,
46_display_transfer.md R714, 47_command_processor.md R759, 60_exceptions.md R821; the spec's own decision D21). That the
fairness is a premise on executions, and an executor's completion a presented transaction, is the model's choice
(log 12). -/
def Obligations.EveryStartedOperationCompletes : Prop :=
  ∀ (e : Nat → State) (r : Region), IsExecution e → CompletionFair e r →
    ∀ n, (e n).isBusy r = true → ∃ m, n ≤ m ∧ (e m).isBusy r = false

/-- The completion of a Busy region always succeeds and leaves it Idle, with the other regions as they were
(60_exceptions.md R821; the spec's own decision D21). -/
def Obligations.CompletionOfABusyRegionSucceeds : Prop :=
  ∀ (s : State) (c : Context) (r : Region), s.ctx = some c → c.isBusy r = true →
    ∃ s' c', exec (completionOf r) s = .next s' ∧ s'.ctx = some c' ∧ s'.response = some ⟨.ok, none⟩
      ∧ c'.isBusy r = false ∧ ∀ r', r' ≠ r → c'.held r' = c.held r'

/-! ### RAW port -/

/-- 40_register_file.md R401: RREAD. -/
def Obligations.RawReadReturnsTheWord : Prop :=
  ∀ (s : State) (c : Context) (i : Word), s.ctx = some c →
    (encode (.rread i)).op = 0x10 ∧ (encode (.rread i)).a = i
    ∧ (i.toNat < 4096 → exec (.rread i) s = .next (s.replied c .ok (some (c.x.word i.toNat)) none))
    ∧ (4096 ≤ i.toNat → exec (.rread i) s = .next (s.replied c (.error (.outOfRange i)) none none))

/-- 40_register_file.md R402: RWRITE stores the value in its word, leaves every other word, every byte outside the
word and everything else as it was, and fails with OutOfRange outside the array. -/
def Obligations.RawWriteStoresTheWord : Prop :=
  ∀ (s : State) (c : Context) (i v : Word), s.ctx = some c →
    (encode (.rwrite i v)).op = 0x11 ∧ (encode (.rwrite i v)).a = i ∧ (encode (.rwrite i v)).d = v
    ∧ (i.toNat < 4096 → ∃ x, exec (.rwrite i v) s = .next (s.replied { c with x := x } .ok none none)
        ∧ x.word i.toNat = v ∧ (∀ j, j ≠ i.toNat → x.word j = c.x.word j)
        ∧ ∀ b, b / 4 ≠ i.toNat → x.byte b = c.x.byte b)
    ∧ (4096 ≤ i.toNat → exec (.rwrite i v) s = .next (s.replied c (.error (.outOfRange i)) none none))

/-- The write-read law (40_register_file.md R404): RWRITE then RREAD of one word returns the value, when nothing
between them changed that word. -/
def Obligations.RawReadAfterRawWriteReturnsTheValue : Prop :=
  ∀ (s s1 s2 : State) (c c1 c2 : Context) (i v : Word), i.toNat < 4096 → s.ctx = some c →
    exec (.rwrite i v) s = .next s1 → s1.ctx = some c1 → s2.ctx = some c2 → c2.x.word i.toNat = c1.x.word i.toNat →
    exec (.rread i) s2 = .next (s2.replied c2 .ok (some v) none)

/-- RWRITE and FSET never dispatch: no operation state changes, nothing is emitted, and no hook error is raised
(40_register_file.md R403, the spec's own decision D25). -/
def Obligations.RawAndFieldWritesNeverDispatch : Prop :=
  ∀ (i : Instr) (s s' : State) (c : Context), (∃ j v, i = .rwrite j v) ∨ (∃ id v, i = .fset id v) →
    s.ctx = some c → exec i s = .next s' →
      s'.emitted = none ∧ (∃ x, s'.ctx = some { c with x := x })
      ∧ ∀ e, s'.response = some ⟨.error e, none⟩ →
        (∀ r, e ≠ .operationAlreadyInProgress r) ∧ (∀ u b24 b32, e ≠ .invalidFillMode u b24 b32)
        ∧ ∀ code, e ≠ .invalidFormatCode code

/-! ### FIELD port and PackedField -/

/-- The laws of extract and insert (41_packed_field.md R453; widths as in the spec's decision D24). -/
def Obligations.PackedFieldLaws : Prop :=
  ∀ (w : Word) (off wid : Nat), 1 ≤ wid → off + wid ≤ 32 →
    insertField w off wid (extract w off wid) = .ok w
    ∧ ∀ v : Word, v.toNat < 2 ^ wid → ∃ w', insertField w off wid v = .ok w' ∧ extract w' off wid = v
      ∧ ∀ off2 wid2, 1 ≤ wid2 → off2 + wid2 ≤ 32 → off + wid ≤ off2 ∨ off2 + wid2 ≤ off →
        extract w' off2 wid2 = extract w off2 wid2

/-- 60_exceptions.md R803: a value of 2^wid or more is refused by every insert with the value and the width, FSET
reports it and changes nothing, and no instruction but FSET, a bus write among them, raises it. -/
def Obligations.FieldOverflowOnlyFromInsert : Prop :=
  (∀ (w v : Word) (off wid : Nat), 2 ^ wid ≤ v.toNat → insertField w off wid v = .error (.fieldOverflow v wid))
  ∧ (∀ (s : State) (c : Context) (id : BitVec 8) (f : FieldId) (v : Word), s.ctx = some c → FieldId.ofCode id = some f →
      2 ^ (fieldPos s.params f).width ≤ v.toNat →
      exec (.fset id v) s
        = .next (s.replied c (.error (.fieldOverflow v (fieldPos s.params f).width)) none none))
  ∧ ∀ (i : Instr) (s s' : State) (value : Word) (width : Nat) (r : Option Word), (∀ id v, i ≠ .fset id v) →
      exec i s = .next s' → s'.response ≠ some ⟨.error (.fieldOverflow value width), r⟩

/-- FGET returns the field's bits as a number, undecoded, and changes nothing; a reserved identifier is refused. The
identifiers are those of R305, each naming the field of its row, at the place 10_state.md R110..R113 give that field
under the spec's layout (41_packed_field.md R455, 30_encoding.md R305, 45_framebuffer.md R654, R656; field places and
identifiers are the spec's own decisions D10..D13, D19 and D30). -/
def Obligations.FieldReadReturnsTheFieldsBits : Prop :=
  ∀ (s : State) (c : Context) (id : BitVec 8), s.ctx = some c →
    (∀ f, FieldId.ofCode id = some f → layoutOk s.params = true → ∃ r,
      exec (.fget id) s = .next (s.replied c .ok (some r) none) ∧ ReadsField c.x (fieldPos s.params f) r)
    ∧ (s.params.layout = Layout.spec →
      ∀ row ∈ fieldTable s.params.fill24Order s.params.convertToTiledBit, row.id = id →
        FieldId.ofCode id = some row.field ∧ fieldPos s.params row.field = row.pos
        ∧ ∃ r, exec (.fget id) s = .next (s.replied c .ok (some r) none) ∧ ReadsField c.x row.pos r)
    ∧ (listedFieldCode id = true ↔
      ∃ row ∈ fieldTable s.params.fill24Order s.params.convertToTiledBit, row.id = id)
    ∧ (listedFieldCode id = false →
      exec (.fget id) s = .next (s.replied c (.error (.invalidTransaction 0x30)) none none))

/-- FSET of a value that fits writes exactly the field's bits: the field then holds the value, every other bit of its
word, every other word and everything else is as before; a reserved identifier is refused. The field of each identifier
of R305 is that of its row, at the place 10_state.md R110..R113 give it under the spec's layout (41_packed_field.md R456,
30_encoding.md R305; the spec's own decisions D10..D13, D19, D25 and D30). -/
def Obligations.FieldWriteSetsOnlyTheFieldsBits : Prop :=
  ∀ (s : State) (c : Context) (id : BitVec 8) (v : Word), s.ctx = some c →
    (∀ f, FieldId.ofCode id = some f → layoutOk s.params = true → v.toNat < 2 ^ (fieldPos s.params f).width →
      ∃ x, exec (.fset id v) s = .next (s.replied { c with x := x } .ok none none)
        ∧ WritesOnlyField c.x x (fieldPos s.params f) v)
    ∧ (s.params.layout = Layout.spec → layoutOk s.params = true →
      ∀ row ∈ fieldTable s.params.fill24Order s.params.convertToTiledBit, row.id = id → v.toNat < 2 ^ row.pos.width →
        ∃ x, exec (.fset id v) s = .next (s.replied { c with x := x } .ok none none)
          ∧ WritesOnlyField c.x x row.pos v)
    ∧ (listedFieldCode id = false →
      exec (.fset id v) s = .next (s.replied c (.error (.invalidTransaction 0x31)) none none))

/-! ### DEC port -/

/-- 42_decoders.md R501: DECADDR. -/
def Obligations.AddressDecoderMultipliesByEight : Prop :=
  ∀ (s : State) (c : Context) (v : Word), s.ctx = some c →
    (encode (.decaddr v)).op = 0x40 ∧ (encode (.decaddr v)).d = v
    ∧ ∃ r, exec (.decaddr v) s = .next (s.replied c .ok (some r) none)
      ∧ r.toNat = v.toNat * 8 % 2 ^ 32 ∧ r = v <<< 3 ∧ r.toNat % 8 = 0

/-- 42_decoders.md R503: DECFMT and the table it looks up. -/
def Obligations.FormatDecoderLooksUpTheTable : Prop :=
  (∀ (s : State) (c : Context) (code : Word), s.ctx = some c →
    (encode (.decfmt code)).op = 0x41 ∧ (encode (.decfmt code)).d = code
    ∧ (code.toNat < 5 → exec (.decfmt code) s = .next (s.replied c .ok (some code) none))
    ∧ (5 ≤ code.toNat → exec (.decfmt code) s = .next (s.replied c (.error (.invalidFormatCode code)) none none)))
  ∧ decFmt 0 = .ok .rgba8 ∧ decFmt 1 = .ok .rgb8 ∧ decFmt 2 = .ok .rgb565 ∧ decFmt 3 = .ok .rgba5551
  ∧ decFmt 4 = .ok .rgba4

/-- 42_decoders.md R505: both decoders read no word, write no word, change no operation state, and give the same
output for the same input in every state with a context. -/
def Obligations.DecodersArePure : Prop :=
  ∀ v : Word,
    (∃ r, ∀ (s : State) (c : Context), s.ctx = some c →
      exec (.decaddr v) s = .next { s with response := some r, emitted := none })
    ∧ ∃ r, ∀ (s : State) (c : Context), s.ctx = some c →
      exec (.decfmt v) s = .next { s with response := some r, emitted := none }

/-- 30_encoding.md R310: a multiple of 8 is written as itself divided by 8, below 2^29, and decodes to itself; a raw
value of 2^29 or more decodes as the one 2^29 below it. -/
def Obligations.EncodedAddressesDecodeBack : Prop :=
  (∀ P : Word, P.toNat % 8 = 0 → (P / 8).toNat < 2 ^ 29 ∧ decAddr (P / 8) = P)
  ∧ ∀ v : Word, 2 ^ 29 ≤ v.toNat → decAddr v = decAddr (v - BitVec.ofNat 32 (2 ^ 29))

/-! ### BUS port -/

/-- BREAD8, BREAD16 and BREAD32 complete on every address inside the window aligned for them, return the lanes of
their word zero-extended, and change nothing (43_access_dispatcher.md R556, R560..R562; the lane order is the spec's
own decision D3). -/
def Obligations.BusReadsReturnTheLanes : Prop :=
  ∀ (s : State) (c : Context) (a : Word), s.ctx = some c → a.toNat < 0x4000 →
    exec (.bread8 a) s
      = .next (s.replied c .ok (some ((c.x.word (a.toNat / 4) >>> (8 * (a.toNat % 4))) &&& 0xFF)) none)
    ∧ (a.toNat % 2 = 0 → exec (.bread16 a) s
      = .next (s.replied c .ok (some ((c.x.word (a.toNat / 4) >>> (8 * (a.toNat % 4))) &&& 0xFFFF)) none))
    ∧ (a.toNat % 4 = 0 → exec (.bread32 a) s = .next (s.replied c .ok (some (c.x.word (a.toNat / 4))) none))

/-- 60_exceptions.md R801: OutOfRange of the six bus transactions (before any alignment check) and of the two raw
ones, with the address or index as given and no state change. -/
def Obligations.OutsideTheWindowIsOutOfRange : Prop :=
  ∀ (s : State) (c : Context) (a : Word), s.ctx = some c →
    (4096 ≤ a.toNat / 4 →
      exec (.bread8 a) s = .next (s.replied c (.error (.outOfRange a)) none none)
      ∧ exec (.bread16 a) s = .next (s.replied c (.error (.outOfRange a)) none none)
      ∧ exec (.bread32 a) s = .next (s.replied c (.error (.outOfRange a)) none none)
      ∧ (∀ v, exec (.bwrite8 a v) s = .next (s.replied c (.error (.outOfRange a)) none none))
      ∧ (∀ v, exec (.bwrite16 a v) s = .next (s.replied c (.error (.outOfRange a)) none none))
      ∧ ∀ v, exec (.bwrite32 a v) s = .next (s.replied c (.error (.outOfRange a)) none none))
    ∧ (4096 ≤ a.toNat →
      exec (.rread a) s = .next (s.replied c (.error (.outOfRange a)) none none)
      ∧ ∀ v, exec (.rwrite a v) s = .next (s.replied c (.error (.outOfRange a)) none none))

/-- A misaligned 16- or 32-bit access inside the window is not performed and reports MisalignedAccess (20_memory.md
R208, 60_exceptions.md R802; the spec's own decision D4). -/
def Obligations.MisalignedAccessIsNotPerformed : Prop :=
  ∀ (s : State) (c : Context) (a : Word), s.ctx = some c → a.toNat < 0x4000 →
    (a.toNat % 2 ≠ 0 →
      exec (.bread16 a) s = .next (s.replied c (.error (.misalignedAccess a)) none none)
      ∧ ∀ v, exec (.bwrite16 a v) s = .next (s.replied c (.error (.misalignedAccess a)) none none))
    ∧ (a.toNat % 4 ≠ 0 →
      exec (.bread32 a) s = .next (s.replied c (.error (.misalignedAccess a)) none none)
      ∧ ∀ v, exec (.bwrite32 a v) s = .next (s.replied c (.error (.misalignedAccess a)) none none))

/-- BWRITE8, BWRITE16 and BWRITE32 on every address inside the window aligned for them answer a next state in which
exactly the bytes written hold the value, little-endian, whatever the hook of the word then does; parameters, order
and the next INIT's words are as before (43_access_dispatcher.md R557, R558, 60_exceptions.md R806; the spec's own
decisions D3 and D6). -/
def Obligations.BusWritesStoreBeforeInspection : Prop :=
  ∀ (s : State) (c : Context) (w : Width) (a v : Word), s.ctx = some c → a.toNat < 0x4000 →
    a.toNat % widthBytes w = 0 →
    ∃ s' c', exec (busWriteOf w a v) s = .next s' ∧ s'.ctx = some c'
      ∧ c'.x.word (a.toNat / 4) = storedLanes w (c.x.word (a.toNat / 4)) a v
      ∧ (∀ b, a.toNat ≤ b → b < a.toNat + widthBytes w → c'.x.byte b = v.extractLsb' (8 * (b - a.toNat)) 8)
      ∧ (∀ b, b < a.toNat ∨ a.toNat + widthBytes w ≤ b → c'.x.byte b = c.x.byte b)
      ∧ s'.params = s.params ∧ s'.pending = s.pending ∧ s'.initWords = s.initWords ∧ s'.position = s.position
      ∧ ∃ st, s'.response = some ⟨st, none⟩

/-- 20_memory.md R212: a bus write whose lanes cover no trigger field only stores. It completes with OK, starts
nothing and changes nothing but the written lanes, in Idle and in Busy alike. -/
def Obligations.WritesCoveringNoTriggerOnlyStore : Prop :=
  ∀ (s : State) (c : Context) (w : Width) (a v : Word), s.ctx = some c → a.toNat < 0x4000 →
    a.toNat % widthBytes w = 0 →
    (∀ r, (fieldPos s.params (triggerField r)).word = a.toNat / 4 →
      laneMask a w &&& fieldMask (fieldPos s.params (triggerField r)) = 0) →
    exec (busWriteOf w a v) s
      = .next (s.replied { c with x := c.x.setWord (a.toNat / 4) (storedLanes w (c.x.word (a.toNat / 4)) a v) }
          .ok none none)

/-- A bus write to a word that holds no trigger field only stores, under every layout that passed INIT: words of FB0
and FB1 with active_fb among them, and padding outside the regions (43_access_dispatcher.md R559, 10_state.md R106;
the spec's own decision D8). -/
def Obligations.FramebufferAndPaddingWritesOnlyStore : Prop :=
  ∀ (s : State) (c : Context) (w : Width) (a v : Word), layoutOk s.params = true → s.ctx = some c → a.toNat < 0x4000 →
    a.toNat % widthBytes w = 0 →
    a.toNat / 4 < 0x004 ∨ (0x00C ≤ a.toNat / 4 ∧ a.toNat / 4 < 0x300) ∨ (0x30B ≤ a.toNat / 4 ∧ a.toNat / 4 < 0x638)
      ∨ 0x63D ≤ a.toNat / 4 →
    exec (busWriteOf w a v) s
      = .next (s.replied { c with x := c.x.setWord (a.toNat / 4) (storedLanes w (c.x.word (a.toNat / 4)) a v) }
          .ok none none)

/-- The mixed-width view (20_memory.md R206): after a 32-bit write of V at 4i, the byte at lane k and the halfword at
lane 2j read as the matching bits of V; after an 8-bit write, the 32-bit read is the old word with that lane replaced
(lane order: the spec's own decision D3). -/
def Obligations.MixedWidthView : Prop :=
  (∀ (s s' : State) (c c' : Context) (a V : Word), s.ctx = some c → a.toNat < 0x4000 → a.toNat % 4 = 0 →
    exec (.bwrite32 a V) s = .next s' → s'.ctx = some c' →
      (∀ k : Nat, k < 4 → exec (.bread8 (a + BitVec.ofNat 32 k)) s'
        = .next (s'.replied c' .ok (some ((V.extractLsb' (8 * k) 8).setWidth 32)) none))
      ∧ ∀ j : Nat, j < 2 → exec (.bread16 (a + BitVec.ofNat 32 (2 * j))) s'
        = .next (s'.replied c' .ok (some ((V.extractLsb' (16 * j) 16).setWidth 32)) none))
  ∧ ∀ (s s' : State) (c c' : Context) (a : Word) (k : Nat) (b : BitVec 8), s.ctx = some c → a.toNat < 0x4000 →
    a.toNat % 4 = 0 → k < 4 → exec (.bwrite8 (a + BitVec.ofNat 32 k) b) s = .next s' → s'.ctx = some c' →
      exec (.bread32 a) s' = .next (s'.replied c' .ok
        (some ((c.x.word (a.toNat / 4) &&& ~~~(0xFF#32 <<< (8 * k))) ||| (b.setWidth 32 <<< (8 * k)))) none)

/-! ### Memory fill -/

/-- An accepted fill trigger: a write of any width at the control word of an Idle unit that leaves trigger = 1 with a
valid mode stores the word, holds and emits the request computed from the words after the store, and goes Busy
(44_memory_fill.md R604, R606..R608; the spec's own decisions D6, D7, D9, D10, D14, D15). -/
def Obligations.FillTriggerStartsTheFill : Prop :=
  ∀ (s : State) (c : Context) (u : FillUnit) (w : Width) (a v : Word) (x : Memory) (mode : FillMode),
    s.params.layout = Layout.spec → s.ctx = some c → c.fillOp u = .idle → a.toNat = 4 * (fillBase u + 3) →
    v.getLsbD 0 = true →
    x = c.x.setWord (fillBase u + 3) (storedLanes w (c.x.word (fillBase u + 3)) a v) →
    ((x.word (fillBase u + 3)).getLsbD 8 = true ∧ (x.word (fillBase u + 3)).getLsbD 9 = false ∧ mode = .m24
      ∨ (x.word (fillBase u + 3)).getLsbD 8 = false ∧ (x.word (fillBase u + 3)).getLsbD 9 = true ∧ mode = .m32
      ∨ (x.word (fillBase u + 3)).getLsbD 8 = false ∧ (x.word (fillBase u + 3)).getLsbD 9 = false
        ∧ s.params.fillNeitherIs16bit = true ∧ mode = .m16) →
    exec (busWriteOf w a v) s
      = .next (s.replied
          ({ c with x := x }.setFillOp u (.busy (fillRequestOf s.params.fill24Order x u mode)))
          .ok none (some (.fill (fillRequestOf s.params.fill24Order x u mode))))

/-- A trigger write to a Busy fill unit: OperationAlreadyInProgress whatever the mode bits, the store stays, the state
and the held request do not change, nothing is emitted (44_memory_fill.md R605, 60_exceptions.md R812; the spec's own
decisions D6 and D41). -/
def Obligations.FillRetriggerWhileBusyIsRejected : Prop :=
  ∀ (s : State) (c : Context) (u : FillUnit) (w : Width) (a v : Word) (q : FillRequest),
    s.params.layout = Layout.spec → s.ctx = some c → c.fillOp u = .busy q → a.toNat = 4 * (fillBase u + 3) →
    v.getLsbD 0 = true →
    exec (busWriteOf w a v) s
      = .next (s.replied
          { c with x := c.x.setWord (fillBase u + 3) (storedLanes w (c.x.word (fillBase u + 3)) a v) }
          (.error (.operationAlreadyInProgress (fillRegion u))) none none)

/-- A trigger write to an Idle fill unit with both mode bits, or with neither while FILL_NEITHER_IS_16BIT is false:
InvalidFillMode, the store stays with trigger = 1, the unit stays Idle, nothing is emitted (44_memory_fill.md R606,
60_exceptions.md R808; the spec's own decisions D15 and D53). -/
def Obligations.InvalidFillModeIsReported : Prop :=
  ∀ (s : State) (c : Context) (u : FillUnit) (w : Width) (a v : Word) (x : Memory) (b : Bool),
    s.params.layout = Layout.spec → s.ctx = some c → c.fillOp u = .idle → a.toNat = 4 * (fillBase u + 3) →
    v.getLsbD 0 = true →
    x = c.x.setWord (fillBase u + 3) (storedLanes w (c.x.word (fillBase u + 3)) a v) →
    (x.word (fillBase u + 3)).getLsbD 8 = b → (x.word (fillBase u + 3)).getLsbD 9 = b →
    (b = false → s.params.fillNeitherIs16bit = false) →
    exec (busWriteOf w a v) s
        = .next (s.replied { c with x := x }
            (.error (.invalidFillMode u (if b then 1 else 0) (if b then 1 else 0))) none none)
      ∧ (x.word (fillBase u + 3)).getLsbD 0 = true

/-- A write of any width at the control word that leaves trigger = 0 only stores: no mode check, no state change, in
Idle and in Busy alike (44_memory_fill.md R609; the spec's own decision D7). -/
def Obligations.FillWriteOfZeroTriggerOnlyStores : Prop :=
  ∀ (s : State) (c : Context) (u : FillUnit) (w : Width) (a v : Word),
    s.params.layout = Layout.spec → s.ctx = some c → a.toNat = 4 * (fillBase u + 3) → v.getLsbD 0 = false →
    exec (busWriteOf w a v) s
      = .next (s.replied
          { c with x := c.x.setWord (fillBase u + 3) (storedLanes w (c.x.word (fillBase u + 3)) a v) } .ok none none)

/-- FILLDONE u: on a Busy unit the control word becomes (old & ~1) | 2, the unit goes Idle, and nothing else changes;
on an Idle unit it is refused and changes nothing (44_memory_fill.md R610; the spec's own decision D21). The window is
canonical, as the invariant says. -/
def Obligations.FillCompletionSetsFinishedAndClearsTrigger : Prop :=
  ∀ (s : State) (c : Context) (u : FillUnit), s.params.layout = Layout.spec → s.ctx = some c →
    (∀ q, c.x.wf → c.fillOp u = .busy q →
      exec (.filldone u) s = .next (s.replied
        ({ c with x := c.x.setWord (fillBase u + 3) ((c.x.word (fillBase u + 3) &&& ~~~1#32) ||| 2#32) }.setFillOp u .idle)
        .ok none none))
    ∧ (c.fillOp u = .idle →
      exec (.filldone u) s
        = .next (s.replied c (.error (.invalidTransaction (match u with | .fill0 => 0x20 | .fill1 => 0x21))) none none))

/-- 20_memory.md R222: after the one completion transaction of a fill unit, trigger reads 0 and finished reads 1,
under every layout that passed INIT. -/
def Obligations.FillCompletionIsOneUpdate : Prop :=
  ∀ (s : State) (c : Context) (u : FillUnit) (q : FillRequest), layoutOk s.params = true → s.ctx = some c →
    c.fillOp u = .busy q →
    ∃ s' c', exec (.filldone u) s = .next s' ∧ s'.ctx = some c'
      ∧ field s.params c'.x (.fill u .trigger) = 0 ∧ field s.params c'.x (.fill u .finished) = 1

/-- 44_memory_fill.md R613: each unit has its own words and state. A completion of one unit, or a bus write to one of
its four words, leaves the other's words and operation state alone; and what it does to its own unit depends on that
unit's words and operation state only. -/
def Obligations.FillUnitsAreIndependent : Prop :=
  ∀ (s t s' t' : State) (c d c' d' : Context) (u other : FillUnit) (i : Instr), other ≠ u → layoutOk s.params = true →
    t.params = s.params → s.ctx = some c → t.ctx = some d →
    i = .filldone u ∨ (∃ w a v, i = busWriteOf w a v ∧ fillBase u ≤ a.toNat / 4 ∧ a.toNat / 4 < fillBase u + 4) →
    (∀ k, fillBase u ≤ k → k < fillBase u + 4 → d.x.word k = c.x.word k) → d.fillOp u = c.fillOp u →
    exec i s = .next s' → exec i t = .next t' → s'.ctx = some c' → t'.ctx = some d' →
      c'.fillOp other = c.fillOp other
      ∧ (∀ k, fillBase other ≤ k → k < fillBase other + 4 → c'.x.word k = c.x.word k)
      ∧ d'.fillOp u = c'.fillOp u ∧ t'.response = s'.response ∧ t'.emitted = s'.emitted
      ∧ ∀ k, fillBase u ≤ k → k < fillBase u + 4 → d'.x.word k = c'.x.word k

/-! ### Framebuffer -/

/-- FBLIVE returns 8 times the address word that bit 0 of the active_fb word selects, for either eye, and changes
nothing (45_framebuffer.md R653; the spec's own decisions D11 and D19). -/
def Obligations.LiveAddressFollowsActiveFb : Prop :=
  ∀ (s : State) (c : Context) (f : FbUnit), s.params.layout = Layout.spec → s.ctx = some c →
    ((c.x.word (fbBase f + 0x07)).getLsbD 0 = false →
      exec (.fblive f .left) s = .next (s.replied c .ok (some (c.x.word (fbBase f + 0x03) * 8)) none)
      ∧ exec (.fblive f .right) s = .next (s.replied c .ok (some (c.x.word (fbBase f + 0x0E) * 8)) none))
    ∧ ((c.x.word (fbBase f + 0x07)).getLsbD 0 = true →
      exec (.fblive f .left) s = .next (s.replied c .ok (some (c.x.word (fbBase f + 0x04) * 8)) none)
      ∧ exec (.fblive f .right) s = .next (s.replied c .ok (some (c.x.word (fbBase f + 0x0F) * 8)) none))

/-- FBFMT returns the low 3 bits of the format word when they are below 5, reports InvalidFormatCode with the code
otherwise, and changes nothing (45_framebuffer.md R655; the place of the format word is the spec's own decision
D11). -/
def Obligations.FramebufferFormatIsTheLowThreeBits : Prop :=
  ∀ (s : State) (c : Context) (f : FbUnit), s.params.layout = Layout.spec → s.ctx = some c →
    ((c.x.word (fbBase f + 0x05)).toNat % 8 < 5 →
      exec (.fbfmt f) s = .next (s.replied c .ok (some (c.x.word (fbBase f + 0x05) &&& 7)) none))
    ∧ (5 ≤ (c.x.word (fbBase f + 0x05)).toNat % 8 →
      exec (.fbfmt f) s
        = .next (s.replied c (.error (.invalidFormatCode (c.x.word (fbBase f + 0x05) &&& 7))) none none))

/-- The swap is immediate: a bus write of any width and lane to the active_fb word only stores and starts nothing, and
the first read of the live set after it sees the new selection, for either eye: bit 0 of the value where the write
covers lane 0, the old bit 0 where it does not (45_framebuffer.md R651, R652; positions and set names are the spec's own
decisions D11 and D19). -/
def Obligations.FramebufferSwapIsImmediate : Prop :=
  ∀ (s : State) (c : Context) (f : FbUnit) (w : Width) (a v : Word), s.params.layout = Layout.spec → s.ctx = some c →
    a.toNat / 4 = fbBase f + 0x07 → a.toNat % widthBytes w = 0 →
    ∃ x, exec (busWriteOf w a v) s = .next (s.replied { c with x := x } .ok none none)
      ∧ ∀ e, exec (.fblive f e) (s.replied { c with x := x } .ok none none)
          = .next (s.replied { c with x := x } .ok
              (some (c.x.word (liveWord f
                (if a.toNat % 4 = 0 then v.getLsbD 0 else (c.x.word (fbBase f + 0x07)).getLsbD 0) e) * 8)) none)

/-- 45_framebuffer.md R657: FBLIVE and FBFMT of a unit answer alike in two contexts that agree on that unit's 64
words. -/
def Obligations.FramebufferUnitsAreIndependent : Prop :=
  ∀ (s t s' t' : State) (c d : Context) (f : FbUnit) (i : Instr), layoutOk s.params = true → t.params = s.params →
    s.ctx = some c → t.ctx = some d → (∃ e, i = .fblive f e) ∨ i = .fbfmt f →
    (∀ k, fbBase f ≤ k → k < fbBase f + 64 → d.x.word k = c.x.word k) →
    exec i s = .next s' → exec i t = .next t' → t'.response = s'.response

/-! ### Display transfer -/

/-- An accepted transfer trigger: a nonzero write of any width to the trigger word while XFER is Idle stores, holds and
emits the request computed from the words after the store, and goes Busy: with the copy record and no formats when
is_raw_copy is 1, with the two decoded formats and no copy record when it is 0 (46_display_transfer.md R704, R706,
R708; the spec's own decisions D6, D7, D12, D16). -/
def Obligations.TransferTriggerStartsTheTransfer : Prop :=
  ∀ (s : State) (c : Context) (w : Width) (a v : Word) (x : Memory), s.params.layout = Layout.spec → s.ctx = some c →
    c.xfer = .idle → a.toNat / 4 = 0x306 → a.toNat % widthBytes w = 0 → carried w v ≠ 0 →
    x = c.x.setWord 0x306 (storedLanes w (c.x.word 0x306) a v) →
    ((x.word 0x304).getLsbD 3 = true →
      exec (busWriteOf w a v) s = .next (s.replied
        { c with x := x,
                 xfer := .busy (xferRequestOf s.params.convertToTiledBit x none none (some (textureCopyOf x))) }
        .ok none
        (some (.xfer (xferRequestOf s.params.convertToTiledBit x none none (some (textureCopyOf x)))))))
    ∧ ∀ fin fout, (x.word 0x304).getLsbD 3 = false → formatOf (inputCode x).toNat = some fin →
      formatOf (outputCode x).toNat = some fout →
      exec (busWriteOf w a v) s = .next (s.replied
        { c with x := x, xfer := .busy (xferRequestOf s.params.convertToTiledBit x (some fin) (some fout) none) }
        .ok none (some (.xfer (xferRequestOf s.params.convertToTiledBit x (some fin) (some fout) none))))

/-- A rejected transfer trigger: OperationAlreadyInProgress while Busy, whatever the configuration; while Idle without
raw copy, InvalidFormatCode of the input code when it is 5 or more, else of the output code. The store stays, the
operation state does not change, nothing is emitted (46_display_transfer.md R705, R707, 60_exceptions.md R812; the
spec's own decisions D6, D16, D41, D53). -/
def Obligations.RejectedTransferTriggers : Prop :=
  ∀ (s : State) (c : Context) (w : Width) (a v : Word) (x : Memory), s.params.layout = Layout.spec → s.ctx = some c →
    a.toNat / 4 = 0x306 → a.toNat % widthBytes w = 0 → carried w v ≠ 0 →
    x = c.x.setWord 0x306 (storedLanes w (c.x.word 0x306) a v) →
    (∀ q, c.xfer = .busy q → exec (busWriteOf w a v) s
      = .next (s.replied { c with x := x } (.error (.operationAlreadyInProgress .xfer)) none none))
    ∧ (c.xfer = .idle → (x.word 0x304).getLsbD 3 = false → 5 ≤ (inputCode x).toNat → exec (busWriteOf w a v) s
      = .next (s.replied { c with x := x } (.error (.invalidFormatCode (inputCode x))) none none))
    ∧ (c.xfer = .idle → (x.word 0x304).getLsbD 3 = false → (inputCode x).toNat < 5 → 5 ≤ (outputCode x).toNat →
      exec (busWriteOf w a v) s
      = .next (s.replied { c with x := x } (.error (.invalidFormatCode (outputCode x))) none none))

/-- A write of 0 to the trigger word, of any width and at any lane, only stores, in Idle and in Busy alike, even when
other lanes of the word are nonzero (46_display_transfer.md R703, R713; the spec's own decision D7). -/
def Obligations.TransferWriteOfZeroOnlyStores : Prop :=
  ∀ (s : State) (c : Context) (w : Width) (a v : Word), s.params.layout = Layout.spec → s.ctx = some c →
    a.toNat / 4 = 0x306 → a.toNat % widthBytes w = 0 → carried w v = 0 →
    exec (busWriteOf w a v) s
      = .next (s.replied { c with x := c.x.setWord 0x306 (storedLanes w (c.x.word 0x306) a v) } .ok none none)

/-- XFERDONE: while Busy the trigger word becomes 0, XFER goes Idle and nothing else changes; while Idle it is refused
and changes nothing (46_display_transfer.md R712; the spec's own decisions D17 and D21). -/
def Obligations.TransferCompletionClearsTheTriggerWord : Prop :=
  ∀ (s : State) (c : Context), s.params.layout = Layout.spec → s.ctx = some c →
    (∀ q, c.xfer = .busy q →
      exec .xferdone s = .next (s.replied { c with x := c.x.setWord 0x306 0, xfer := .idle } .ok none none))
    ∧ (c.xfer = .idle →
      exec .xferdone s = .next (s.replied c (.error (.invalidTransaction 0x22)) none none))

/-- The line arithmetic of a texture copy never wraps: each number is its 16-bit unit count times 16, and the totals
are the true sums, at most 0x1FFFE0 (46_display_transfer.md R708, R711; the places are the spec's own decision
D12). -/
def Obligations.TextureCopyLineMathNeverWraps : Prop :=
  ∀ (p : Params) (x : Memory), p.layout = Layout.spec →
    (textureCopy p x).inputBytesPerLine.toNat = (x.word 0x309).toNat % 2 ^ 16 * 16
    ∧ (textureCopy p x).inputPaddingBytesPerLine.toNat = (x.word 0x309).toNat / 2 ^ 16 * 16
    ∧ (textureCopy p x).inputTotalBytesPerLine.toNat
        = (x.word 0x309).toNat % 2 ^ 16 * 16 + (x.word 0x309).toNat / 2 ^ 16 * 16
    ∧ (textureCopy p x).outputBytesPerLine.toNat = (x.word 0x30A).toNat % 2 ^ 16 * 16
    ∧ (textureCopy p x).outputPaddingBytesPerLine.toNat = (x.word 0x30A).toNat / 2 ^ 16 * 16
    ∧ (textureCopy p x).outputTotalBytesPerLine.toNat
        = (x.word 0x30A).toNat % 2 ^ 16 * 16 + (x.word 0x30A).toNat / 2 ^ 16 * 16
    ∧ (textureCopy p x).inputTotalBytesPerLine.toNat ≤ 0x1FFFE0
    ∧ (textureCopy p x).outputTotalBytesPerLine.toNat ≤ 0x1FFFE0

/-! ### Command processor -/

/-- An accepted command trigger: a write of any width at 0x18F0 with bit 0 set while CMD is Idle stores, holds and
emits {address * 8, size * 8}, both mod 2^32, and goes Busy (47_command_processor.md R753, R754, R757; the spec's own
decisions D6, D7, D13, D18, D28). -/
def Obligations.CommandTriggerLaunchesTheList : Prop :=
  ∀ (s : State) (c : Context) (w : Width) (a v : Word) (x : Memory) (q : CmdRequest), s.params.layout = Layout.spec →
    s.ctx = some c → c.cmd = .idle → a.toNat = 0x18F0 → v.getLsbD 0 = true →
    x = c.x.setWord 0x63C (storedLanes w (c.x.word 0x63C) a v) → q = ⟨x.word 0x63A * 8, x.word 0x638 * 8⟩ →
    exec (busWriteOf w a v) s
      = .next (s.replied { c with x := x, cmd := .busy q } .ok none (some (.cmd q)))

/-- A trigger write while CMD is Busy reports OperationAlreadyInProgress and only stores; a write that leaves the
trigger 0 reports OK and only stores (47_command_processor.md R755, R756; the spec's own decisions D6, D7, D8). -/
def Obligations.OtherCommandTriggerWritesOnlyStore : Prop :=
  ∀ (s : State) (c : Context) (w : Width) (a v : Word) (x : Memory), s.params.layout = Layout.spec → s.ctx = some c →
    a.toNat = 0x18F0 → x = c.x.setWord 0x63C (storedLanes w (c.x.word 0x63C) a v) →
    (∀ q, c.cmd = .busy q → v.getLsbD 0 = true → exec (busWriteOf w a v) s
      = .next (s.replied { c with x := x } (.error (.operationAlreadyInProgress .cmd)) none none))
    ∧ (v.getLsbD 0 = false → exec (busWriteOf w a v) s = .next (s.replied { c with x := x } .ok none none))

/-- CMDDONE: while Busy bit 0 of the trigger word becomes 0 with bits [31:1] kept, CMD goes Idle and nothing else
changes; while Idle it is refused and changes nothing (47_command_processor.md R758; the spec's own decisions D18 and
D21). -/
def Obligations.CommandCompletionClearsTheTriggerBit : Prop :=
  ∀ (s : State) (c : Context), s.params.layout = Layout.spec → s.ctx = some c →
    (∀ q, c.cmd = .busy q →
      exec .cmddone s = .next (s.replied
        { c with x := c.x.setWord 0x63C (c.x.word 0x63C &&& ~~~1#32), cmd := .idle } .ok none none))
    ∧ (c.cmd = .idle → exec .cmddone s = .next (s.replied c (.error (.invalidTransaction 0x23)) none none))

/-! ### HOST port and the lifetime of the context -/

/-- INIT: with no context and a layout that passes the assertions, every word is INIT_WORDS, every region Idle with
nothing held, nothing emitted; a layout that does not pass leaves no context and reports LayoutViolation; a second
INIT is refused (70_reset_and_hazards.md R901, 60_exceptions.md R809; the spec's own decisions D23, D26, D50, D51). -/
def Obligations.InitConstructsTheContext : Prop :=
  ∀ s : State,
    (s.ctx = none → layoutOk s.params = true →
      exec .init s = .next { s with
        ctx := some { x := s.initWords, fill0 := .idle, fill1 := .idle, xfer := .idle, cmd := .idle }
        response := some ⟨.ok, none⟩
        emitted := none })
    ∧ (s.ctx = none → layoutOk s.params = false →
      exec .init s = .next { s with response := some ⟨.error .layoutViolation, none⟩, emitted := none })
    ∧ ∀ c, s.ctx = some c → exec .init s = .next (s.replied c (.error (.invalidTransaction 0xF0)) none none)

/-- What the assertions of INIT are: the word count, the region table of R104 row by row, and R114: every field inside
32 bits and inside a word of its own region, no two fields of a region sharing a bit unless a table allows it, the
views inside value_32bit (70_reset_and_hazards.md R902, 10_state.md R104, R114; the spec's own decisions D23, D24;
which aliases R114 allows is DEDUCED, log 15). -/
def Obligations.LayoutAssertionsAreTheRegionTableAndFieldRules : Prop :=
  ∀ p : Params, layoutOk p = true ↔
    p.layout.wordCount = 4096
    ∧ p.layout.regions = ⟨⟨0x004, 4⟩, ⟨0x008, 4⟩, ⟨0x117, 64⟩, ⟨0x157, 64⟩, ⟨0x300, 11⟩, ⟨0x638, 5⟩⟩
    ∧ (∀ f : FieldId, 1 ≤ (fieldPos p f).width ∧ (fieldPos p f).lsb + (fieldPos p f).width ≤ 32
        ∧ (regionRow p.layout f).offset ≤ (fieldPos p f).word
        ∧ (fieldPos p f).word < (regionRow p.layout f).offset + (regionRow p.layout f).size)
    ∧ (∀ f g : FieldId, f ≠ g → mayAlias f g = false → (fieldPos p f).word = (fieldPos p g).word →
        (fieldPos p f).lsb + (fieldPos p f).width ≤ (fieldPos p g).lsb
        ∨ (fieldPos p g).lsb + (fieldPos p g).width ≤ (fieldPos p f).lsb)
    ∧ ∀ (u : FillUnit) (f : FillField), f.isValueForm = true →
        (fieldPos p (.fill u f)).word = (fieldPos p (.fill u .value32)).word
        ∧ (fieldPos p (.fill u .value32)).lsb ≤ (fieldPos p (.fill u f)).lsb
        ∧ (fieldPos p (.fill u f)).lsb + (fieldPos p (.fill u f)).width
            ≤ (fieldPos p (.fill u .value32)).lsb + (fieldPos p (.fill u .value32)).width

/-- TEARDOWN: with every region Idle the context is gone and nothing else of the block is left or changed (the words
the next INIT finds are a free draw in canonical form, log 2); with a region Busy it is refused and the context kept
(70_reset_and_hazards.md R905; the spec's own decision D26). -/
def Obligations.TeardownDestroysAnIdleContext : Prop :=
  ∀ (s : State) (c : Context), s.ctx = some c →
    ((∀ r, c.isBusy r = false) → ∃ words, exec .teardown s = .next { s with
        ctx := none
        initWords := words
        response := some ⟨.ok, none⟩
        emitted := none } ∧ words.wf)
    ∧ ∀ r, c.isBusy r = true →
      exec .teardown s = .next (s.replied c (.error (.invalidTransaction 0xF1)) none none)

/-- With no context every transaction other than INIT is refused with InvalidTransaction and changes nothing
(70_reset_and_hazards.md R904; the spec's own decision D26). -/
def Obligations.NoContextRefusesEverythingButInit : Prop :=
  ∀ (s : State) (i : Instr), s.ctx = none → i ≠ .init →
    exec i s = .next { s with response := some ⟨.error (.invalidTransaction (encode i).op), none⟩, emitted := none }

/-! ### The CPU bus layer -/

/-- What the CPU sees of a bus access: under "report" an error is a fault of its kind; under "ignore" a failed write is
a no-op and a failed read gives a value nothing constrains; the policy does not touch a success
(43_access_dispatcher.md R566, 60_exceptions.md R810; the spec's own decision D5, log 11). -/
def Obligations.BusErrorPolicyDecidesWhatTheCpuSees : Prop :=
  ∀ (policy : BusErrorPolicy) (draw v : Word) (isRead : Bool) (e : ErrorKind),
    cpuSees policy draw isRead ⟨.ok, some v⟩ = .value v ∧ cpuSees policy draw isRead ⟨.ok, none⟩ = .done
    ∧ cpuSees .report draw isRead ⟨.error e, none⟩ = .fault e
    ∧ cpuSees .ignore draw true ⟨.error e, none⟩ = .value draw
    ∧ cpuSees .ignore draw false ⟨.error e, none⟩ = .done
end

