-- ==== Sys2Proof/Laws/Decode.lean ====
section
/-! SUPPORT. Small laws of the encoding: which identifiers name a field, and round trips of the narrow operands. -/

namespace Sys2Proof

/-- The identifiers that name a field are exactly the listed ones (30_encoding.md R305). -/
theorem isSome_ofCode (id : BitVec 8) : (FieldId.ofCode id).isSome = listedFieldCode id := by
  revert id
  decide +kernel

theorem ofCode_of_not_listed {id : BitVec 8} (h : listedFieldCode id = false) : FieldId.ofCode id = none := by
  have h1 := isSome_ofCode id
  rw [h] at h1
  simpa using h1

theorem setWidth_setWidth_8 (v : BitVec 8) : (v.setWidth 32).setWidth 8 = v := by simp

theorem setWidth_setWidth_16 (v : BitVec 16) : (v.setWidth 32).setWidth 16 = v := by simp

/-- A byte has no bit above its lane, and a halfword none above its two. -/
theorem setWidth_and_low_8 (v : BitVec 8) : (v.setWidth 32 : Word) &&& 0x000000FF#32 = v.setWidth 32 := by
  apply BitVec.eq_of_toNat_eq
  have h := v.isLt
  have hm : ∀ n : Nat, n &&& 255 = n % 2 ^ 8 := fun n => Nat.and_two_pow_sub_one_eq_mod n 8
  rw [BitVec.toNat_and]
  show _ &&& 255 = _
  rw [hm, BitVec.toNat_setWidth]
  omega

theorem setWidth_and_low_16 (v : BitVec 16) : (v.setWidth 32 : Word) &&& 0x0000FFFF#32 = v.setWidth 32 := by
  apply BitVec.eq_of_toNat_eq
  have h := v.isLt
  have hm : ∀ n : Nat, n &&& 65535 = n % 2 ^ 16 := fun n => Nat.and_two_pow_sub_one_eq_mod n 16
  rw [BitVec.toNat_and]
  show _ &&& 65535 = _
  rw [hm, BitVec.toNat_setWidth]
  omega

theorem toNat_identifier_lt (id : BitVec 8) : (id.setWidth 32 : Word).toNat < 0x100 := by
  have h := id.isLt
  simp only [BitVec.toNat_setWidth]
  omega

/-- The decoder of a field operand, on the operand of a listed identifier. -/
theorem decodeField_identifier {id : BitVec 8} (h : listedFieldCode id = true) (f : BitVec 8 → Instr) :
    decodeField (id.setWidth 32) f = .ok (f id) := by
  unfold decodeField
  rw [setWidth_setWidth_8, isSome_ofCode, if_pos ⟨toNat_identifier_lt id, h⟩]

/-- What a field operand that decodes has: a zero upper part and a listed identifier. -/
theorem decodeField_inv {a : Word} {f : BitVec 8 → Instr} {i : Instr} (h : decodeField a f = .ok i) :
    i = f (a.setWidth 8) ∧ a.toNat < 0x100 ∧ listedFieldCode (a.setWidth 8) = true := by
  unfold decodeField at h
  split at h
  next hc =>
    rw [isSome_ofCode] at hc
    cases h
    exact ⟨rfl, hc.1, hc.2⟩
  next => cases h

end Sys2Proof
end

