-- ==== Sys2Proof/Laws/Memory.lean ====
section
/-! SUPPORT. The laws of the register window: read after write for bytes and words, the canonical form is kept,
and canonical windows with the same bytes are equal. -/

namespace Sys2Proof.Machine

/-! ### Bytes -/

@[simp] theorem Memory.byte_nil (a : Nat) : Memory.byte [] a = 0 := rfl

theorem Memory.byte_cons (k : Nat) (v : Byte) (x : Memory) (a : Nat) :
    Memory.byte ((k, v) :: x) a = if k = a then v else x.byte a := rfl

/-- An offset no cell lists reads as 0. -/
theorem Memory.byte_eq_zero_of_not_listed (x : Memory) (a : Nat) (h : ∀ c ∈ x, c.1 ≠ a) : x.byte a = 0 := by
  induction x with
  | nil => rfl
  | cons c x ih =>
    obtain ⟨k, v⟩ := c
    have hk : k ≠ a := h (k, v) (by simp)
    rw [Memory.byte_cons, if_neg hk]
    exact ih fun c hc => h c (List.mem_cons_of_mem _ hc)

theorem Memory.byte_filter_ne (x : Memory) (a a' : Nat) :
    Memory.byte (x.filter (fun c => c.1 ≠ a)) a' = if a' = a then 0 else x.byte a' := by
  induction x with
  | nil => simp
  | cons c x ih =>
    obtain ⟨k, v⟩ := c
    by_cases hk : k = a
    · rw [List.filter_cons_of_neg (by simp [hk]), ih, Memory.byte_cons]
      by_cases ha : a' = a
      · simp [ha]
      · rw [if_neg ha, if_neg ha, if_neg]
        omega
    · rw [List.filter_cons_of_pos (by simp [hk]), Memory.byte_cons, Memory.byte_cons, ih]
      by_cases ha : a' = a
      · rw [if_pos ha, if_neg (by omega), if_pos ha]
      · simp [ha]

theorem Memory.byte_insertCell (x : Memory) (a a' : Nat) (b : Byte) (h : ∀ c ∈ x, c.1 ≠ a) :
    Memory.byte (Memory.insertCell x a b) a' = if a' = a then b else x.byte a' := by
  induction x with
  | nil =>
    rw [Memory.insertCell, Memory.byte_cons]
    by_cases ha : a' = a
    · simp [ha]
    · rw [if_neg (fun h => ha h.symm), if_neg ha]
  | cons c x ih =>
    obtain ⟨k, v⟩ := c
    have hk : k ≠ a := h (k, v) (by simp)
    have hx : ∀ c ∈ x, c.1 ≠ a := fun c hc => h c (List.mem_cons_of_mem _ hc)
    rw [Memory.insertCell]
    by_cases hlt : a < k
    · rw [if_pos hlt, Memory.byte_cons]
      by_cases ha : a' = a
      · simp [ha]
      · rw [if_neg (fun h => ha h.symm), if_neg ha]
    · rw [if_neg hlt, Memory.byte_cons, Memory.byte_cons, ih hx]
      by_cases ha : a' = a
      · rw [if_pos ha, if_neg (by omega), if_pos ha]
      · simp [ha]

theorem Memory.filter_ne_key (x : Memory) (a : Nat) : ∀ c ∈ x.filter (fun c => c.1 ≠ a), c.1 ≠ a := by
  intro c hc
  simpa using (List.mem_filter.mp hc).2

/-- Read after write, for bytes: of every window, canonical or not. -/
theorem Memory.byte_setByte (x : Memory) (a a' : Nat) (b : Byte) :
    (x.setByte a b).byte a' = if a' = a then b else x.byte a' := by
  unfold Memory.setByte
  by_cases hb : b = 0
  · simp only [hb, if_true]
    exact Memory.byte_filter_ne x a a'
  · simp only [hb, if_false]
    rw [Memory.byte_insertCell _ _ _ _ (Memory.filter_ne_key x a), Memory.byte_filter_ne]
    by_cases ha : a' = a <;> simp [ha]

@[simp] theorem Memory.byte_setByte_self (x : Memory) (a : Nat) (b : Byte) : (x.setByte a b).byte a = b := by
  simp [Memory.byte_setByte]

theorem Memory.byte_setByte_ne (x : Memory) {a a' : Nat} (b : Byte) (h : a' ≠ a) :
    (x.setByte a b).byte a' = x.byte a' := by
  simp [Memory.byte_setByte, h]

/-! ### The canonical form -/

theorem Memory.mem_insertCell {x : Memory} {a : Nat} {b : Byte} {c : Host.Cell}
    (h : c ∈ Memory.insertCell x a b) : c = (a, b) ∨ c ∈ x := by
  induction x with
  | nil => simpa [Memory.insertCell] using h
  | cons d x ih =>
    obtain ⟨k, v⟩ := d
    rw [Memory.insertCell] at h
    split at h
    · simpa using h
    · rcases List.mem_cons.mp h with h | h
      · exact .inr (by simp [h])
      · rcases ih h with h | h
        · exact .inl h
        · exact .inr (List.mem_cons_of_mem _ h)

theorem Memory.pairwise_insertCell {x : Memory} {a : Nat} {b : Byte} (h : ∀ c ∈ x, c.1 ≠ a)
    (hp : x.Pairwise (fun c d => c.1 < d.1)) : (Memory.insertCell x a b).Pairwise (fun c d => c.1 < d.1) := by
  induction x with
  | nil => simp [Memory.insertCell]
  | cons d x ih =>
    obtain ⟨k, v⟩ := d
    have hk : k ≠ a := h (k, v) (by simp)
    obtain ⟨hhead, htail⟩ := List.pairwise_cons.mp hp
    rw [Memory.insertCell]
    split
    next hlt =>
      refine List.pairwise_cons.mpr ⟨?_, hp⟩
      intro c hc
      rcases List.mem_cons.mp hc with rfl | hc
      · exact hlt
      · exact Nat.lt_trans hlt (hhead c hc)
    next hge =>
      refine List.pairwise_cons.mpr ⟨?_, ih (fun c hc => h c (List.mem_cons_of_mem _ hc)) htail⟩
      intro c hc
      rcases Memory.mem_insertCell hc with rfl | hc
      · show k < a
        omega
      · exact hhead c hc

/-- Storing a byte inside the window keeps the canonical form. -/
theorem Memory.wf_setByte {x : Memory} (h : x.wf) {a : Nat} (ha : a < 0x4000) (b : Byte) : (x.setByte a b).wf := by
  obtain ⟨hp, hv⟩ := h
  have hfp := List.Pairwise.filter (fun c => decide (c.1 ≠ a)) hp
  have hfv : ∀ c ∈ x.filter (fun c => c.1 ≠ a), c.2 ≠ 0 ∧ c.1 < 0x4000 :=
    fun c hc => hv c (List.mem_filter.mp hc).1
  unfold Memory.setByte
  by_cases hb : b = 0
  · simp only [hb, if_true]
    exact ⟨hfp, hfv⟩
  · simp only [hb, if_false]
    refine ⟨Memory.pairwise_insertCell (Memory.filter_ne_key x a) hfp, ?_⟩
    intro c hc
    rcases Memory.mem_insertCell hc with rfl | hc
    · exact ⟨hb, ha⟩
    · exact hfv c hc

/-- In a canonical window the head is the lowest offset that does not read as 0. -/
theorem Memory.byte_below_head {k : Nat} {v : Byte} {x : Memory} (h : Memory.wf ((k, v) :: x)) {a : Nat} (ha : a < k) :
    Memory.byte ((k, v) :: x) a = 0 := by
  refine Memory.byte_eq_zero_of_not_listed _ _ fun c hc => ?_
  rcases List.mem_cons.mp hc with rfl | hc
  · show k ≠ a
    omega
  · have := (List.pairwise_cons.mp h.1).1 c hc
    omega

theorem Memory.wf_tail {c : Host.Cell} {x : Memory} (h : Memory.wf (c :: x)) : Memory.wf x :=
  ⟨(List.pairwise_cons.mp h.1).2, fun d hd => h.2 d (List.mem_cons_of_mem _ hd)⟩

/-- Canonical windows with the same bytes are equal: equal windows are equal data. -/
theorem Memory.eq_of_byte_eq {x y : Memory} (hx : x.wf) (hy : y.wf) (h : ∀ a, x.byte a = y.byte a) : x = y := by
  induction x generalizing y with
  | nil =>
    cases y with
    | nil => rfl
    | cons d y =>
      obtain ⟨k, v⟩ := d
      have h1 := h k
      rw [Memory.byte_nil, Memory.byte_cons, if_pos rfl] at h1
      exact absurd h1.symm (hy.2 (k, v) (by simp)).1
  | cons c x ih =>
    obtain ⟨k, v⟩ := c
    have hv : v ≠ 0 := (hx.2 (k, v) (by simp)).1
    cases y with
    | nil =>
      have h1 := h k
      rw [Memory.byte_nil, Memory.byte_cons, if_pos rfl] at h1
      exact absurd h1 hv
    | cons d y =>
      obtain ⟨l, w⟩ := d
      have hw : w ≠ 0 := (hy.2 (l, w) (by simp)).1
      have hkl : k = l := by
        rcases Nat.lt_trichotomy k l with hlt | heq | hgt
        · have h1 := h k
          rw [Memory.byte_below_head hy hlt, Memory.byte_cons, if_pos rfl] at h1
          exact absurd h1 hv
        · exact heq
        · have h1 := h l
          rw [Memory.byte_below_head hx hgt, Memory.byte_cons, if_pos rfl] at h1
          exact absurd h1.symm hw
      subst hkl
      have hvw : v = w := by simpa [Memory.byte_cons] using h k
      subst hvw
      rw [ih (Memory.wf_tail hx) (Memory.wf_tail hy)]
      intro a
      by_cases ha : a = k
      · subst ha
        rw [Memory.byte_eq_zero_of_not_listed x, Memory.byte_eq_zero_of_not_listed y]
        · intro c hc
          have := (List.pairwise_cons.mp hy.1).1 c hc
          omega
        · intro c hc
          have := (List.pairwise_cons.mp hx.1).1 c hc
          omega
      · have h1 := h a
        rwa [Memory.byte_cons, Memory.byte_cons, if_neg (fun e => ha e.symm), if_neg (fun e => ha e.symm)] at h1

/-- A draw of the initial words is in canonical form. -/
theorem Memory.wf_ofBytes (f : Nat → Byte) : (Memory.ofBytes f).wf := by
  have key : ∀ l : List Nat, l.Pairwise (· < ·) → (∀ a ∈ l, a < 0x4000) →
      Memory.wf (l.filterMap (fun a => if f a = 0 then none else some (a, f a))) := by
    intro l
    induction l with
    | nil => intro _ _; exact ⟨List.Pairwise.nil, by simp⟩
    | cons a l ih =>
      intro hp hl
      obtain ⟨hhead, htail⟩ := List.pairwise_cons.mp hp
      have htl := ih htail fun b hb => hl b (List.mem_cons_of_mem _ hb)
      by_cases hz : f a = 0
      · rw [List.filterMap_cons_none (f := fun a => if f a = 0 then none else some (a, f a)) (if_pos hz)]
        exact htl
      · rw [List.filterMap_cons_some (f := fun a => if f a = 0 then none else some (a, f a)) (b := (a, f a)) (if_neg hz)]
        refine ⟨List.pairwise_cons.mpr ⟨?_, htl.1⟩, ?_⟩
        · intro c hc
          obtain ⟨b, hb, hc⟩ := List.mem_filterMap.mp hc
          split at hc
          · cases hc
          · obtain rfl := Option.some.inj hc
            exact hhead b hb
        · intro c hc
          rcases List.mem_cons.mp hc with rfl | hc
          · exact ⟨hz, hl a (by simp)⟩
          · exact htl.2 c hc
  refine key _ List.pairwise_lt_range ?_
  intro a ha
  exact List.mem_range.mp ha

/-! ### Words -/

/-- Byte a of the window is lane a mod 4 of word a / 4 (20_memory.md R204). -/
theorem Memory.byte_eq_lane (x : Memory) (a : Nat) :
    x.byte a = (x.word (a / 4)).extractLsb' (8 * (a % 4)) 8 := by
  have h4 : a % 4 = 0 ∨ a % 4 = 1 ∨ a % 4 = 2 ∨ a % 4 = 3 := by omega
  have hd : 4 * (a / 4) + a % 4 = a := Nat.div_add_mod a 4
  unfold Memory.word
  rcases h4 with h | h | h | h <;> rw [h] at hd ⊢
  all_goals
    conv => lhs; rw [← hd]
    apply BitVec.eq_of_getLsbD_eq
    intro j hj
    simp only [BitVec.getLsbD_extractLsb', BitVec.getLsbD_append, hj, decide_true, Bool.true_and]
  · simp [hj]
  · have h1 : ¬ (8 * 1 + j < 8) := by omega
    have h2 : 8 * 1 + j - 8 < 8 := by omega
    simp only [h1, h2, if_true, if_false]
    congr 1
    omega
  · have h1 : ¬ (8 * 2 + j < 8) := by omega
    have h2 : ¬ (8 * 2 + j - 8 < 8) := by omega
    have h3 : 8 * 2 + j - 8 - 8 < 8 := by omega
    simp only [h1, h2, h3, if_true, if_false]
    congr 1
    omega
  · have h1 : ¬ (8 * 3 + j < 8) := by omega
    have h2 : ¬ (8 * 3 + j - 8 < 8) := by omega
    have h3 : ¬ (8 * 3 + j - 8 - 8 < 8) := by omega
    simp only [h1, h2, h3, if_false]
    congr 1
    omega

/-- Four lanes put together again are the word. -/
theorem word_of_lanes (v : Word) :
    v.extractLsb' 24 8 ++ v.extractLsb' 16 8 ++ v.extractLsb' 8 8 ++ v.extractLsb' 0 8 = v := by
  apply BitVec.eq_of_getLsbD_eq
  intro j hj
  simp only [BitVec.getLsbD_append, BitVec.getLsbD_extractLsb']
  by_cases h1 : j < 8
  · simp [h1]
  · by_cases h2 : j - 8 < 8
    · simp only [h1, h2, if_true, if_false, decide_true, Bool.true_and]
      congr 1
      omega
    · by_cases h3 : j - 8 - 8 < 8
      · simp only [h1, h2, h3, if_true, if_false, decide_true, Bool.true_and]
        congr 1
        omega
      · have h4 : j - 8 - 8 - 8 < 8 := by omega
        simp only [h1, h2, h3, h4, if_false, decide_true, Bool.true_and]
        congr 1
        omega

/-- Read after write through lanes: a word store writes exactly its four bytes. -/
theorem Memory.byte_setWord (x : Memory) (i : Nat) (v : Word) (a : Nat) :
    (x.setWord i v).byte a = if a / 4 = i then v.extractLsb' (8 * (a % 4)) 8 else x.byte a := by
  unfold Memory.setWord
  simp only [Memory.byte_setByte]
  by_cases hi : a / 4 = i
  · rw [if_pos hi]
    have h4 : a % 4 = 0 ∨ a % 4 = 1 ∨ a % 4 = 2 ∨ a % 4 = 3 := by omega
    rcases h4 with h | h | h | h
    · rw [if_neg (by omega), if_neg (by omega), if_neg (by omega), if_pos (by omega), h]
    · rw [if_neg (by omega), if_neg (by omega), if_pos (by omega), h]
    · rw [if_neg (by omega), if_pos (by omega), h]
    · rw [if_pos (by omega), h]
  · rw [if_neg hi, if_neg (by omega), if_neg (by omega), if_neg (by omega), if_neg (by omega)]

/-- Read after write for words (40_register_file.md R404). -/
theorem Memory.word_setWord (x : Memory) (i j : Nat) (v : Word) :
    (x.setWord i v).word j = if j = i then v else x.word j := by
  unfold Memory.word
  simp only [Memory.byte_setWord]
  by_cases h : j = i
  · subst h
    rw [if_pos (by omega), if_pos (by omega), if_pos (by omega), if_pos (by omega), if_pos rfl]
    have e3 : (4 * j + 3) % 4 = 3 := by omega
    have e2 : (4 * j + 2) % 4 = 2 := by omega
    have e1 : (4 * j + 1) % 4 = 1 := by omega
    have e0 : 4 * j % 4 = 0 := by omega
    rw [e3, e2, e1, e0]
    exact word_of_lanes v
  · rw [if_neg (by omega), if_neg (by omega), if_neg (by omega), if_neg (by omega), if_neg h]

@[simp] theorem Memory.word_setWord_self (x : Memory) (i : Nat) (v : Word) : (x.setWord i v).word i = v := by
  simp [Memory.word_setWord]

theorem Memory.word_setWord_ne (x : Memory) {i j : Nat} (v : Word) (h : j ≠ i) :
    (x.setWord i v).word j = x.word j := by
  simp [Memory.word_setWord, h]

/-- A word store outside a byte's word leaves the byte. -/
theorem Memory.byte_setWord_ne (x : Memory) {i a : Nat} (v : Word) (h : a / 4 ≠ i) :
    (x.setWord i v).byte a = x.byte a := by
  simp [Memory.byte_setWord, h]

/-- A word store inside the array keeps the canonical form. -/
theorem Memory.wf_setWord {x : Memory} (h : x.wf) {i : Nat} (hi : i < 4096) (v : Word) : (x.setWord i v).wf := by
  unfold Memory.setWord
  exact Memory.wf_setByte (Memory.wf_setByte (Memory.wf_setByte (Memory.wf_setByte h (by omega) _) (by omega) _)
    (by omega) _) (by omega) _

/-- Canonical windows with the same words are equal. -/
theorem Memory.eq_of_word_eq {x y : Memory} (hx : x.wf) (hy : y.wf) (h : ∀ i, x.word i = y.word i) : x = y :=
  Memory.eq_of_byte_eq hx hy fun a => by rw [Memory.byte_eq_lane, Memory.byte_eq_lane, h]

/-- The last of two stores to one word is the one that stays. -/
theorem Memory.setWord_setWord {x : Memory} (h : x.wf) {i : Nat} (hi : i < 4096) (v w : Word) :
    (x.setWord i v).setWord i w = x.setWord i w := by
  refine Memory.eq_of_word_eq (Memory.wf_setWord (Memory.wf_setWord h hi v) hi w) (Memory.wf_setWord h hi w) fun j => ?_
  simp only [Memory.word_setWord]
  split <;> rfl

/-- Storing what a word holds changes nothing. -/
theorem Memory.setWord_word {x : Memory} (h : x.wf) {i : Nat} (hi : i < 4096) : x.setWord i (x.word i) = x := by
  refine Memory.eq_of_word_eq (Memory.wf_setWord h hi _) h fun j => ?_
  rw [Memory.word_setWord]
  split
  next e => rw [e]
  next => rfl

end Sys2Proof.Machine
end

