-- ==== Sys2Proof/Laws/State.lean ====
section
/-! SUPPORT. One lemma per field per update of the state, of the context and of a reply, each true by unfolding. -/

namespace Sys2Proof.Machine

/-! ### State.finish, State.respond, State.refuse, State.replied -/

theorem State.finish_eq_replied (s : State) (r : Reply) :
    s.finish r = s.replied r.ctx r.status r.result r.emitted := rfl

@[simp] theorem State.finish_ctx (s : State) (r : Reply) : (s.finish r).ctx = some r.ctx := rfl
@[simp] theorem State.finish_params (s : State) (r : Reply) : (s.finish r).params = s.params := rfl
@[simp] theorem State.finish_initWords (s : State) (r : Reply) : (s.finish r).initWords = s.initWords := rfl
@[simp] theorem State.finish_pending (s : State) (r : Reply) : (s.finish r).pending = s.pending := rfl
@[simp] theorem State.finish_position (s : State) (r : Reply) : (s.finish r).position = s.position := rfl
@[simp] theorem State.finish_response (s : State) (r : Reply) :
    (s.finish r).response = some ⟨r.status, r.result⟩ := rfl
@[simp] theorem State.finish_emitted (s : State) (r : Reply) : (s.finish r).emitted = r.emitted := rfl

@[simp] theorem State.replied_ctx (s : State) (c : Context) (st : Status) (r : Option Word) (e : Option Request) :
    (s.replied c st r e).ctx = some c := rfl
@[simp] theorem State.replied_params (s : State) (c : Context) (st : Status) (r : Option Word) (e : Option Request) :
    (s.replied c st r e).params = s.params := rfl
@[simp] theorem State.replied_response (s : State) (c : Context) (st : Status) (r : Option Word) (e : Option Request) :
    (s.replied c st r e).response = some ⟨st, r⟩ := rfl
@[simp] theorem State.replied_emitted (s : State) (c : Context) (st : Status) (r : Option Word) (e : Option Request) :
    (s.replied c st r e).emitted = e := rfl

@[simp] theorem State.respond_ctx (s : State) (c : Option Context) (st : Status) : (s.respond c st).ctx = c := rfl
@[simp] theorem State.respond_params (s : State) (c : Option Context) (st : Status) :
    (s.respond c st).params = s.params := rfl
@[simp] theorem State.respond_initWords (s : State) (c : Option Context) (st : Status) :
    (s.respond c st).initWords = s.initWords := rfl
@[simp] theorem State.respond_pending (s : State) (c : Option Context) (st : Status) :
    (s.respond c st).pending = s.pending := rfl
@[simp] theorem State.respond_position (s : State) (c : Option Context) (st : Status) :
    (s.respond c st).position = s.position := rfl
@[simp] theorem State.respond_response (s : State) (c : Option Context) (st : Status) :
    (s.respond c st).response = some ⟨st, none⟩ := rfl
@[simp] theorem State.respond_emitted (s : State) (c : Option Context) (st : Status) :
    (s.respond c st).emitted = none := rfl

@[simp] theorem State.refuse_ctx (s : State) (op : BitVec 8) : (s.refuse op).ctx = s.ctx := rfl
@[simp] theorem State.refuse_params (s : State) (op : BitVec 8) : (s.refuse op).params = s.params := rfl
@[simp] theorem State.refuse_initWords (s : State) (op : BitVec 8) : (s.refuse op).initWords = s.initWords := rfl
@[simp] theorem State.refuse_pending (s : State) (op : BitVec 8) : (s.refuse op).pending = s.pending := rfl
@[simp] theorem State.refuse_position (s : State) (op : BitVec 8) : (s.refuse op).position = s.position := rfl
@[simp] theorem State.refuse_response (s : State) (op : BitVec 8) :
    (s.refuse op).response = some ⟨.error (.invalidTransaction op), none⟩ := rfl
@[simp] theorem State.refuse_emitted (s : State) (op : BitVec 8) : (s.refuse op).emitted = none := rfl

/-- With a context, refusing is raising InvalidTransaction over the same context. -/
theorem State.refuse_eq_replied {s : State} {c : Context} (h : s.ctx = some c) (op : BitVec 8) :
    s.refuse op = s.replied c (.error (.invalidTransaction op)) none none := by
  unfold State.refuse State.respond State.replied
  rw [h]

/-- Replying over the context a state has, field by field. -/
theorem State.replied_self {s : State} {c : Context} (h : s.ctx = some c) (st : Status) (r : Option Word)
    (e : Option Request) : s.replied c st r e = { s with response := some ⟨st, r⟩, emitted := e } := by
  unfold State.replied
  rw [h]

/-! ### Presenting and taking transactions -/

@[simp] theorem State.present_ctx (s : State) (t : Transaction) : (s.present t).ctx = s.ctx := rfl
@[simp] theorem State.presentFirst_ctx (s : State) (t : Transaction) : (s.presentFirst t).ctx = s.ctx := rfl
@[simp] theorem State.presentFirst_pending (s : State) (t : Transaction) :
    (s.presentFirst t).pending = t :: s.pending := rfl

theorem State.takeNext_nil {s : State} (h : s.pending = []) : s.takeNext = none := by
  unfold State.takeNext
  rw [h]

theorem State.takeNext_cons {s : State} {t : Transaction} {rest : List Transaction} (h : s.pending = t :: rest) :
    s.takeNext = some (t, { s with pending := rest, position := s.position + 1 }) := by
  unfold State.takeNext
  rw [h]

/-! ### Replies -/

@[simp] theorem done_ctx (c : Context) : (done c).ctx = c := rfl
@[simp] theorem done_status (c : Context) : (done c).status = .ok := rfl
@[simp] theorem done_result (c : Context) : (done c).result = none := rfl
@[simp] theorem done_emitted (c : Context) : (done c).emitted = none := rfl
@[simp] theorem answer_ctx (c : Context) (v : Word) : (answer c v).ctx = c := rfl
@[simp] theorem answer_status (c : Context) (v : Word) : (answer c v).status = .ok := rfl
@[simp] theorem answer_result (c : Context) (v : Word) : (answer c v).result = some v := rfl
@[simp] theorem answer_emitted (c : Context) (v : Word) : (answer c v).emitted = none := rfl
@[simp] theorem raise_ctx (c : Context) (e : ErrorKind) : (raise c e).ctx = c := rfl
@[simp] theorem raise_status (c : Context) (e : ErrorKind) : (raise c e).status = .error e := rfl
@[simp] theorem raise_result (c : Context) (e : ErrorKind) : (raise c e).result = none := rfl
@[simp] theorem raise_emitted (c : Context) (e : ErrorKind) : (raise c e).emitted = none := rfl
@[simp] theorem start_ctx (c : Context) (q : Request) : (start c q).ctx = c := rfl
@[simp] theorem start_status (c : Context) (q : Request) : (start c q).status = .ok := rfl
@[simp] theorem start_result (c : Context) (q : Request) : (start c q).result = none := rfl
@[simp] theorem start_emitted (c : Context) (q : Request) : (start c q).emitted = some q := rfl

/-! ### Operation states of the fill units -/

@[simp] theorem Context.setFillOp_x (c : Context) (u : FillUnit) (o : OpState FillRequest) :
    (c.setFillOp u o).x = c.x := by cases u <;> rfl
@[simp] theorem Context.setFillOp_xfer (c : Context) (u : FillUnit) (o : OpState FillRequest) :
    (c.setFillOp u o).xfer = c.xfer := by cases u <;> rfl
@[simp] theorem Context.setFillOp_cmd (c : Context) (u : FillUnit) (o : OpState FillRequest) :
    (c.setFillOp u o).cmd = c.cmd := by cases u <;> rfl
@[simp] theorem Context.fillOp_setFillOp_self (c : Context) (u : FillUnit) (o : OpState FillRequest) :
    (c.setFillOp u o).fillOp u = o := by cases u <;> rfl
theorem Context.fillOp_setFillOp_ne (c : Context) {u v : FillUnit} (h : v ≠ u) (o : OpState FillRequest) :
    (c.setFillOp u o).fillOp v = c.fillOp v := by cases u <;> cases v <;> first | rfl | exact absurd rfl h

/-- Storing words does not touch an operation state. -/
@[simp] theorem Context.fillOp_withX (c : Context) (x : Memory) (u : FillUnit) :
    ({ c with x := x } : Context).fillOp u = c.fillOp u := by cases u <;> rfl
@[simp] theorem Context.held_withX (c : Context) (x : Memory) (r : Region) :
    ({ c with x := x } : Context).held r = c.held r := by cases r <;> rfl
@[simp] theorem Context.isBusy_withX (c : Context) (x : Memory) (r : Region) :
    ({ c with x := x } : Context).isBusy r = c.isBusy r := by cases r <;> rfl

/-- A region is Busy exactly when it holds a request (10_state.md R122). -/
theorem Context.isBusy_iff_held (c : Context) (r : Region) : c.isBusy r = true ↔ ∃ q, c.held r = some q := by
  unfold Context.isBusy
  rw [Option.isSome_iff_exists]

theorem Context.not_busy_iff_held (c : Context) (r : Region) : c.isBusy r = false ↔ c.held r = none := by
  unfold Context.isBusy
  cases c.held r <;> simp

end Sys2Proof.Machine
end

