-- ==== Sys2Proof/Laws/Effect.lean ====
section
/-! SUPPORT. Everything a transaction can do, said once: `exec` is a reply over the context (`exec_eq_onContext`), and
a reply has one of the forms of `Effect` (`replyOf_effect`). Whole-machine facts are read off these. -/

namespace Sys2Proof.Machine

/-- The reply of each transaction that acts on the context; INIT and TEARDOWN are not among them. -/
def replyOf (i : Instr) (p : Params) (c : Context) : Reply :=
  match i with
  | .bread8 a => busRead .w8 a c
  | .bread16 a => busRead .w16 a c
  | .bread32 a => busRead .w32 a c
  | .bwrite8 a v => busWrite .w8 a (v.setWidth 32) p c
  | .bwrite16 a v => busWrite .w16 a (v.setWidth 32) p c
  | .bwrite32 a v => busWrite .w32 a v p c
  | .rread i => if 4096 ≤ i.toNat then raise c (.outOfRange i) else answer c (c.x.word i.toNat)
  | .rwrite i v => if 4096 ≤ i.toNat then raise c (.outOfRange i) else done { c with x := c.x.setWord i.toNat v }
  | .filldone u =>
    match c.fillOp u with
    | .idle => raise c (.invalidTransaction (Instr.opcode (.filldone u)))
    | .busy _ => done ({ c with x := completeFill p c.x u }.setFillOp u .idle)
  | .xferdone =>
    match c.xfer with
    | .idle => raise c (.invalidTransaction (Instr.opcode .xferdone))
    | .busy _ => done { c with x := completeXfer p c.x, xfer := .idle }
  | .cmddone =>
    match c.cmd with
    | .idle => raise c (.invalidTransaction (Instr.opcode .cmddone))
    | .busy _ => done { c with x := completeCmd p c.x, cmd := .idle }
  | .fget id =>
    match FieldId.ofCode id with
    | none => raise c (.invalidTransaction (Instr.opcode (.fget id)))
    | some f => answer c (field p c.x f)
  | .fset id v =>
    match FieldId.ofCode id with
    | none => raise c (.invalidTransaction (Instr.opcode (.fset id v)))
    | some f =>
      match insertField (c.x.word (fieldPos p f).word) (fieldPos p f).lsb (fieldPos p f).width v with
      | .error e => raise c e
      | .ok w => done { c with x := c.x.setWord (fieldPos p f).word w }
  | .decaddr v => answer c (decAddr v)
  | .decfmt code => answerFormat c code
  | .fblive f e => answer c (decodedField p c.x (liveField p c.x f e))
  | .fbfmt f => answerFormat c (field p c.x (.fb f .colorFormat))
  | .init => raise c (.invalidTransaction (Instr.opcode .init))
  | .teardown => raise c (.invalidTransaction (Instr.opcode .teardown))

theorem onContext_some {s : State} {c : Context} (h : s.ctx = some c) (i : Instr) (f : Params → Context → Reply) :
    onContext i f s = .next (s.finish (f s.params c)) := by
  unfold onContext
  rw [h]

theorem onContext_none {s : State} (h : s.ctx = none) (i : Instr) (f : Params → Context → Reply) :
    onContext i f s = .next (s.refuse i.opcode) := by
  unfold onContext
  rw [h]

/-- exec of every instruction but INIT and TEARDOWN is its reply over the context. -/
theorem exec_eq_onContext (i : Instr) (s : State) (hi : i ≠ .init) (ht : i ≠ .teardown) :
    exec i s = onContext i (replyOf i) s := by
  cases i <;> first | rfl | exact absurd rfl hi | exact absurd rfl ht

/-- exec over a context: the reply decides the next state. TEARDOWN is apart. -/
theorem exec_of_context {s : State} {c : Context} (h : s.ctx = some c) (i : Instr) (ht : i ≠ .teardown) :
    exec i s = .next (s.finish (replyOf i s.params c)) := by
  by_cases hi : i = .init
  · subst hi
    show execInit s = _
    unfold execInit
    rw [h]
    show Host.Outcome.next _ = Host.Outcome.next _
    rw [State.refuse_eq_replied h]
    rfl
  · rw [exec_eq_onContext i s hi ht, onContext_some h]

/-- exec with no context: refused, but for INIT (70_reset_and_hazards.md R904). -/
theorem exec_of_no_context {s : State} (h : s.ctx = none) (i : Instr) (hi : i ≠ .init) :
    exec i s = .next (s.refuse i.opcode) := by
  by_cases ht : i = .teardown
  · subst ht
    show execTeardown s = _
    unfold execTeardown
    rw [h]
  · rw [exec_eq_onContext i s hi ht, onContext_none h]

theorem execInit_ok {s : State} (h : s.ctx = none) (hl : layoutOk s.params = true) :
    exec .init s = .next (s.respond (some (Context.fresh s.initWords)) .ok) := by
  show execInit s = _
  unfold execInit
  rw [h]
  simp [hl]

theorem execInit_violation {s : State} (h : s.ctx = none) (hl : layoutOk s.params = false) :
    exec .init s = .next (s.respond none (.error .layoutViolation)) := by
  show execInit s = _
  unfold execInit
  rw [h]
  simp [hl]

/-- The words the next INIT finds after a TEARDOWN are in canonical form. -/
theorem wf_drawInitWords (position : Nat) : (drawInitWords position).wf := by
  unfold drawInitWords
  exact Memory.wf_ofBytes _

theorem execTeardown_idle {s : State} {c : Context} (h : s.ctx = some c) (hb : c.anyBusy = false) :
    exec .teardown s = .next { s.respond none .ok with initWords := drawInitWords s.position } := by
  show execTeardown s = _
  unfold execTeardown
  rw [h]
  simp [hb]

theorem execTeardown_busy {s : State} {c : Context} (h : s.ctx = some c) (hb : c.anyBusy = true) :
    exec .teardown s = .next (s.refuse (Instr.opcode .teardown)) := by
  show execTeardown s = _
  unfold execTeardown
  rw [h]
  simp [hb]

theorem Context.anyBusy_false_iff (c : Context) : c.anyBusy = false ↔ ∀ r, c.isBusy r = false := by
  unfold Context.anyBusy
  constructor
  · intro h r
    simp only [Bool.or_eq_false_iff] at h
    cases r <;> simp [h]
  · intro h
    simp [h]

/-! ### What a reply can be -/

/-- The word index of a store: a word of the array that an index check passed, or the word of a named field. -/
def StoredAt (p : Params) (k : Nat) : Prop := k < 4096 ∨ ∃ f, k = (fieldPos p f).word

/-- The forms a reply of instruction i over a context can have. -/
inductive Effect (i : Instr) (p : Params) (c : Context) : Reply → Prop where
  /-- Nothing of the context changes: reads, and errors and refusals raised before a store. -/
  | unchanged (st : Status) (r : Option Word) : Effect i p c ⟨c, st, r, none⟩
  /-- One word is stored and nothing else: writes, with the errors a hook raises after the store. -/
  | stored (k : Nat) (v : Word) (st : Status) (hk : StoredAt p k) (hw : isReadInstr i = false) :
      Effect i p c ⟨{ c with x := c.x.setWord k v }, st, none, none⟩
  /-- A fill starts: a trigger write on an Idle unit. -/
  | fillStarts (u : FillUnit) (k : Nat) (v : Word) (m : FillMode) (hk : k < 4096)
      (hi : IsTriggerWriteOf i p (c.x.setWord k v) (fillRegion u)) (hidle : c.fillOp u = .idle)
      (hm : fillMode p u (field p (c.x.setWord k v) (.fill u .fill24)) (field p (c.x.setWord k v) (.fill u .fill32))
        = .ok m) :
      Effect i p c ⟨{ c with x := c.x.setWord k v }.setFillOp u (.busy (fillRequest p (c.x.setWord k v) u m)), .ok, none,
        some (.fill (fillRequest p (c.x.setWord k v) u m))⟩
  /-- A transfer starts. -/
  | xferStarts (k : Nat) (v : Word) (q : XferRequest) (hk : k < 4096)
      (hi : IsTriggerWriteOf i p (c.x.setWord k v) .xfer) (hidle : c.xfer = .idle)
      (hq : xferRequest p (c.x.setWord k v) = .ok q) :
      Effect i p c ⟨{ c with x := c.x.setWord k v, xfer := .busy q }, .ok, none, some (.xfer q)⟩
  /-- A command list starts. -/
  | cmdStarts (k : Nat) (v : Word) (hk : k < 4096) (hi : IsTriggerWriteOf i p (c.x.setWord k v) .cmd)
      (hidle : c.cmd = .idle) :
      Effect i p c ⟨{ c with x := c.x.setWord k v, cmd := .busy (cmdRequest p (c.x.setWord k v)) }, .ok, none,
        some (.cmd (cmdRequest p (c.x.setWord k v)))⟩
  /-- A fill completes. -/
  | fillCompletes (u : FillUnit) (q : FillRequest) (hi : i = .filldone u) (hbusy : c.fillOp u = .busy q) :
      Effect i p c ⟨{ c with x := completeFill p c.x u }.setFillOp u .idle, .ok, none, none⟩
  /-- A transfer completes. -/
  | xferCompletes (q : XferRequest) (hi : i = .xferdone) (hbusy : c.xfer = .busy q) :
      Effect i p c ⟨{ c with x := completeXfer p c.x, xfer := .idle }, .ok, none, none⟩
  /-- A command list completes. -/
  | cmdCompletes (q : CmdRequest) (hi : i = .cmddone) (hbusy : c.cmd = .busy q) :
      Effect i p c ⟨{ c with x := completeCmd p c.x, cmd := .idle }, .ok, none, none⟩

/-- A bus read changes nothing. -/
theorem busRead_unchanged (i : Instr) (p : Params) (w : Width) (a : Word) (c : Context) :
    Effect i p c (busRead w a c) := by
  unfold busRead
  split
  · exact .unchanged _ _
  · exact .unchanged _ _

theorem answerFormat_unchanged (i : Instr) (p : Params) (c : Context) (code : Word) :
    Effect i p c (answerFormat c code) := by
  unfold answerFormat
  split
  · exact .unchanged _ _
  · exact .unchanged _ _

/-- The check passes exactly on aligned accesses inside the window (43_access_dispatcher.md R552). -/
theorem checkAccess_none_iff (a : Word) (w : Width) :
    checkAccess a w = none ↔ a.toNat < 0x4000 ∧ a.toNat % widthBytes w = 0 := by
  unfold checkAccess
  split
  · constructor
    · intro h; cases h
    · intro h; omega
  · split
    · constructor
      · intro h; cases h
      · intro h; exact absurd h.2 ‹_›
    · constructor
      · intro _
        refine ⟨by omega, by omega⟩
      · intro _; rfl

theorem checkAccess_outOfRange {a : Word} (h : 4096 ≤ a.toNat / 4) (w : Width) :
    checkAccess a w = some (.outOfRange a) := by
  unfold checkAccess
  rw [if_pos h]

theorem checkAccess_misaligned {a : Word} {w : Width} (h : a.toNat < 0x4000) (ha : a.toNat % widthBytes w ≠ 0) :
    checkAccess a w = some (.misalignedAccess a) := by
  unfold checkAccess
  rw [if_neg (by omega), if_pos ha]

theorem covers_iff (m : Word) (q : FieldPos) : covers m q = true ↔ m &&& fieldMask q ≠ 0 := by
  unfold covers
  rw [bne_iff_ne]

/-- What a trigger write of FILL or CMD is (44_memory_fill.md R603, 47_command_processor.md R753). -/
theorem isTriggerWrite_iff (x : Memory) (m : Word) (q : FieldPos) :
    isTriggerWrite x m q = true ↔ m &&& fieldMask q ≠ 0 ∧ fieldAt x q ≠ 0 := by
  unfold isTriggerWrite
  rw [Bool.and_eq_true, covers_iff, bne_iff_ne]

/-- Everything the inspection after the store of a bus write can do; v is the word stored, n the operand. -/
theorem inspect_effect (p : Params) (c : Context) (w : Width) (a v n : Word) (ha : a.toNat < 0x4000)
    (hal : a.toNat % widthBytes w = 0) :
    Effect (busWriteOf w a n) p c
      (inspect p { c with x := c.x.setWord (wordIndex a) v } (wordIndex a) (laneMask a w) (carried w n)) := by
  have hk : wordIndex a < 4096 := by
    unfold wordIndex
    omega
  have hw : isReadInstr (busWriteOf w a n) = false := by cases w <;> rfl
  have stored : ∀ st, Effect (busWriteOf w a n) p c ⟨{ c with x := c.x.setWord (wordIndex a) v }, st, none, none⟩ :=
    fun st => .stored _ v st (.inl hk) hw
  have fillCase : ∀ u, wordIndex a = (fieldPos p (.fill u .trigger)).word → Effect (busWriteOf w a n) p c
      (fillHook p { c with x := c.x.setWord (wordIndex a) v } u (laneMask a w)) := by
    intro u hu
    unfold fillHook
    split
    next ht =>
      obtain ⟨hm, hf⟩ := (isTriggerWrite_iff _ _ _).mp ht
      split
      · exact stored _
      next hidle =>
        split
        · exact stored _
        next mode hmode =>
          rw [Context.fillOp_withX] at hidle
          refine .fillStarts u _ v mode hk ⟨w, a, n, rfl, ha, hal, ?_, ?_, fun _ => ?_, fun h => ?_⟩ hidle hmode
          · cases u <;> exact hu
          · cases u <;> exact hm
          · cases u <;> exact hf
          · cases u <;> cases h
    next => exact stored _
  unfold inspect
  split
  next h => exact fillCase .fill0 h
  split
  next h => exact fillCase .fill1 h
  split
  next h =>
    unfold xferHook
    split
    · exact stored _
    next hz =>
      simp only [Bool.or_eq_true, decide_eq_true_eq, Bool.not_eq_true', not_or, Bool.not_eq_false] at hz
      split
      · exact stored _
      next hidle =>
        split
        · exact stored _
        next q hq =>
          exact .xferStarts _ v q hk ⟨w, a, n, rfl, ha, hal, h, (covers_iff _ _).mp hz.2, fun hne => absurd rfl hne,
            fun _ => hz.1⟩ hidle hq
  split
  next h =>
    unfold cmdHook
    split
    next ht =>
      obtain ⟨hm, hf⟩ := (isTriggerWrite_iff _ _ _).mp ht
      split
      · exact stored _
      next hidle => exact .cmdStarts _ v hk ⟨w, a, n, rfl, ha, hal, h, hm, fun _ => hf, fun h => by cases h⟩ hidle
    next => exact stored _
  exact stored _

theorem busWrite_effect (p : Params) (c : Context) (w : Width) (a n : Word) :
    Effect (busWriteOf w a n) p c (busWrite w a (carried w n) p c) := by
  unfold busWrite
  split
  · exact .unchanged _ _
  next h =>
    obtain ⟨ha, hal⟩ := (checkAccess_none_iff a w).mp h
    exact inspect_effect p c w a _ n ha hal

/-- Everything a transaction over a context can do. -/
theorem replyOf_effect (i : Instr) (p : Params) (c : Context) : Effect i p c (replyOf i p c) := by
  cases i with
  | bread8 a => exact busRead_unchanged _ p _ _ _
  | bread16 a => exact busRead_unchanged _ p _ _ _
  | bread32 a => exact busRead_unchanged _ p _ _ _
  | bwrite8 a v =>
    have h := busWrite_effect p c .w8 a (v.setWidth 32)
    have e : busWriteOf .w8 a (v.setWidth 32) = .bwrite8 a v := by simp [busWriteOf]
    have hv : carried .w8 (v.setWidth 32) = v.setWidth 32 := setWidth_and_low_8 v
    rwa [e, hv] at h
  | bwrite16 a v =>
    have h := busWrite_effect p c .w16 a (v.setWidth 32)
    have e : busWriteOf .w16 a (v.setWidth 32) = .bwrite16 a v := by simp [busWriteOf]
    have hv : carried .w16 (v.setWidth 32) = v.setWidth 32 := setWidth_and_low_16 v
    rwa [e, hv] at h
  | bwrite32 a v => exact busWrite_effect p c .w32 a v
  | rread j =>
    simp only [replyOf]
    split
    · exact .unchanged _ _
    · exact .unchanged _ _
  | rwrite j v =>
    simp only [replyOf]
    split
    · exact .unchanged _ _
    next h => exact .stored j.toNat v .ok (.inl (by omega)) rfl
  | filldone u =>
    simp only [replyOf]
    split
    · exact .unchanged _ _
    next q h => exact .fillCompletes u q rfl h
  | xferdone =>
    simp only [replyOf]
    split
    · exact .unchanged _ _
    next q h => exact .xferCompletes q rfl h
  | cmddone =>
    simp only [replyOf]
    split
    · exact .unchanged _ _
    next q h => exact .cmdCompletes q rfl h
  | fget id =>
    simp only [replyOf]
    split
    · exact .unchanged _ _
    · exact .unchanged _ _
  | fset id v =>
    simp only [replyOf]
    split
    · exact .unchanged _ _
    next f _ =>
      split
      · exact .unchanged _ _
      next w _ => exact .stored _ w .ok (.inr ⟨f, rfl⟩) rfl
  | decaddr v => exact .unchanged _ _
  | decfmt code => exact answerFormat_unchanged _ p _ _
  | fblive f e => exact .unchanged _ _
  | fbfmt f => exact answerFormat_unchanged _ p _ _
  | init => exact .unchanged _ _
  | teardown => exact .unchanged _ _

/-- Everything a transaction can do to the state. -/
inductive ExecCase (i : Instr) (s : State) : State → Prop where
  /-- No context: refused. -/
  | refused (h : s.ctx = none) : ExecCase i s (s.refuse i.opcode)
  /-- INIT without a context over a good layout. -/
  | constructed (h : s.ctx = none) (hi : i = .init) (hl : layoutOk s.params = true) :
      ExecCase i s (s.respond (some (Context.fresh s.initWords)) .ok)
  /-- INIT without a context over a bad layout. -/
  | violation (h : s.ctx = none) (hi : i = .init) : ExecCase i s (s.respond none (.error .layoutViolation))
  /-- TEARDOWN of an idle context. -/
  | destroyed (c : Context) (words : Memory) (h : s.ctx = some c) (hi : i = .teardown) (hb : ∀ r, c.isBusy r = false)
      (hw : words.wf) : ExecCase i s { s.respond none .ok with initWords := words }
  /-- A transaction on a context. -/
  | replied (c : Context) (h : s.ctx = some c) (r : Reply) (he : Effect i s.params c r) : ExecCase i s (s.finish r)

/-- exec always answers a next state, and it is one of the cases. -/
theorem exec_case (i : Instr) (s : State) : ∃ s', exec i s = .next s' ∧ ExecCase i s s' := by
  cases h : s.ctx with
  | none =>
    by_cases hi : i = .init
    · subst hi
      cases hl : layoutOk s.params with
      | true => exact ⟨_, execInit_ok h hl, .constructed h rfl hl⟩
      | false => exact ⟨_, execInit_violation h hl, .violation h rfl⟩
    · exact ⟨_, exec_of_no_context h i hi, .refused h⟩
  | some c =>
    by_cases ht : i = .teardown
    · subst ht
      cases hb : c.anyBusy with
      | true =>
        refine ⟨_, execTeardown_busy h hb, ?_⟩
        rw [State.refuse_eq_replied h]
        exact .replied c h ⟨c, _, _, _⟩ (.unchanged _ _)
      | false => exact ⟨_, execTeardown_idle h hb, .destroyed c _ h rfl ((Context.anyBusy_false_iff c).mp hb) (wf_drawInitWords _)⟩
    · exact ⟨_, exec_of_context h i ht, .replied c h _ (replyOf_effect i s.params c)⟩

/-- The inversion lemma of exec. -/
theorem exec_inv {i : Instr} {s s' : State} (h : exec i s = .next s') : ExecCase i s s' := by
  obtain ⟨s'', h', hc⟩ := exec_case i s
  rw [h] at h'
  cases h'
  exact hc

/-! ### The step -/

theorem step_nil {s : State} (h : s.pending = []) : step s = .next s := by
  unfold step
  rw [State.takeNext_nil h]

theorem step_cons {s : State} {t : Transaction} {rest : List Transaction} (h : s.pending = t :: rest) :
    step s = match decode t with
      | .ok i => exec i { s with pending := rest, position := s.position + 1 }
      | .reject _ => .next (State.refuse { s with pending := rest, position := s.position + 1 } t.op) := by
  unfold step
  rw [State.takeNext_cons h] <;> rfl

/-- Every step answers a next state: nothing faults and nothing is refused (60_exceptions.md R813). -/
theorem step_total (s : State) : ∃ s', step s = .next s' := by
  cases h : s.pending with
  | nil => exact ⟨s, step_nil h⟩
  | cons t rest =>
    rw [step_cons h]
    split
    next i _ =>
      obtain ⟨s', h', -⟩ := exec_case i { s with pending := rest, position := s.position + 1 }
      exact ⟨s', h'⟩
    next => exact ⟨_, rfl⟩

/-- Everything a step can do. -/
theorem step_inv {s s' : State} (h : step s = .next s') :
    s' = s
    ∨ ∃ t rest, s.pending = t :: rest ∧
      ((∃ i, decode t = .ok i ∧ exec i { s with pending := rest, position := s.position + 1 } = .next s')
      ∨ s' = State.refuse { s with pending := rest, position := s.position + 1 } t.op) := by
  cases hp : s.pending with
  | nil =>
    rw [step_nil hp] at h
    cases h
    exact .inl rfl
  | cons t rest =>
    rw [step_cons hp] at h
    refine .inr ⟨t, rest, rfl, ?_⟩
    split at h
    next i hd => exact .inl ⟨i, hd, h⟩
    next => cases h; exact .inr rfl

end Sys2Proof.Machine
end

