-- ==== Sys2Proof/Laws/Operands.lean ====
section
/-! SUPPORT. The laws of the operand forms, bit by bit and as numbers: masks, extract and insert, the decoders, the
lanes of a bus access, and a bus write as one store followed by the inspection of its word. -/

namespace Sys2Proof.Machine

/-! ### Masks, extract, insert -/

theorem toNat_lowMask {wid : Nat} (h : wid ≤ 32) : (lowMask wid).toNat = 2 ^ wid - 1 := by
  unfold lowMask
  rw [BitVec.toNat_ofNat]
  apply Nat.mod_eq_of_lt
  have h1 : 2 ^ wid ≤ 2 ^ 32 := Nat.pow_le_pow_right (by omega) h
  have h2 : 0 < 2 ^ wid := Nat.two_pow_pos wid
  omega

theorem getLsbD_lowMask (wid j : Nat) : (lowMask wid).getLsbD j = (decide (j < 32) && decide (j < wid)) := by
  unfold lowMask
  rw [BitVec.getLsbD_ofNat, Nat.testBit_two_pow_sub_one]

theorem getLsbD_extract (w : Word) (off wid j : Nat) :
    (extract w off wid).getLsbD j = (decide (j < wid) && w.getLsbD (off + j)) := by
  unfold extract
  rw [BitVec.getLsbD_and, BitVec.getLsbD_ushiftRight, getLsbD_lowMask]
  by_cases h32 : j < 32
  · simp [h32, Bool.and_comm]
  · have : w.getLsbD (off + j) = false := BitVec.getLsbD_of_ge _ _ (by omega)
    simp [this]

theorem toNat_extract (w : Word) (off : Nat) {wid : Nat} (h : wid ≤ 32) :
    (extract w off wid).toNat = w.toNat / 2 ^ off % 2 ^ wid := by
  unfold extract
  rw [BitVec.toNat_and, toNat_lowMask h, BitVec.toNat_ushiftRight, Nat.shiftRight_eq_div_pow, Nat.and_two_pow_sub_one_eq_mod]

theorem extract_full (w : Word) : extract w 0 32 = w := by
  apply BitVec.eq_of_getLsbD_eq
  intro j hj
  rw [getLsbD_extract]
  simp [hj]

/-- A number below 2^wid has no bit from wid on. -/
theorem getLsbD_of_lt {v : Word} {wid k : Nat} (hv : v.toNat < 2 ^ wid) (hk : wid ≤ k) : v.getLsbD k = false := by
  rw [← BitVec.testBit_toNat]
  exact Nat.testBit_lt_two_pow (Nat.lt_of_lt_of_le hv (Nat.pow_le_pow_right (by omega) hk))

theorem getLsbD_insertBits (w v : Word) (off wid j : Nat) (hj : j < 32) (hv : v.toNat < 2 ^ wid) :
    (insertBits w off wid v).getLsbD j
      = if off ≤ j ∧ j < off + wid then v.getLsbD (j - off) else w.getLsbD j := by
  unfold insertBits
  simp only [BitVec.getLsbD_or, BitVec.getLsbD_and, BitVec.getLsbD_not, BitVec.getLsbD_shiftLeft, getLsbD_lowMask, hj,
    decide_true, Bool.true_and]
  have h32 : j - off < 32 := by omega
  by_cases h1 : j < off
  · have h2 : ¬ (off ≤ j ∧ j < off + wid) := by omega
    simp [h1, h2]
  · by_cases h3 : j - off < wid
    · have h2 : off ≤ j ∧ j < off + wid := by omega
      simp [h1, h2, h3, h32]
    · have h2 : ¬ (off ≤ j ∧ j < off + wid) := by omega
      simp [h1, h2, h3, getLsbD_of_lt hv (Nat.le_of_not_lt h3)]

/-- Bits from the width on of an extracted value are 0: it fits its field. -/
theorem extract_lt (w : Word) (off : Nat) {wid : Nat} (h : wid ≤ 32) : (extract w off wid).toNat < 2 ^ wid := by
  rw [toNat_extract w off h]
  exact Nat.mod_lt _ (Nat.two_pow_pos wid)

/-- Reading the bits of a field back. -/
theorem extract_insertBits (w v : Word) {off wid : Nat} (h : off + wid ≤ 32) (hv : v.toNat < 2 ^ wid) :
    extract (insertBits w off wid v) off wid = v := by
  apply BitVec.eq_of_getLsbD_eq
  intro j hj
  rw [getLsbD_extract]
  by_cases hw : j < wid
  · rw [getLsbD_insertBits w v off wid (off + j) (by omega) hv, if_pos (by omega)]
    simp [hw]
  · simp [hw, getLsbD_of_lt hv (Nat.le_of_not_lt hw)]

/-- Reading the bits of a field that shares none with the one written. -/
theorem extract_insertBits_of_disjoint (w v : Word) {off wid off2 wid2 : Nat} (hv : v.toNat < 2 ^ wid)
    (h2 : off2 + wid2 ≤ 32) (hd : off + wid ≤ off2 ∨ off2 + wid2 ≤ off) :
    extract (insertBits w off wid v) off2 wid2 = extract w off2 wid2 := by
  apply BitVec.eq_of_getLsbD_eq
  intro j hj
  rw [getLsbD_extract, getLsbD_extract]
  by_cases hw : j < wid2
  · rw [getLsbD_insertBits w v off wid (off2 + j) (by omega) hv, if_neg (by omega)]
  · simp [hw]

/-- Writing back what a field holds changes nothing. -/
theorem insertBits_extract (w : Word) {off wid : Nat} (h : wid ≤ 32) :
    insertBits w off wid (extract w off wid) = w := by
  apply BitVec.eq_of_getLsbD_eq
  intro j hj
  rw [getLsbD_insertBits _ _ _ _ _ hj (extract_lt w off h)]
  split
  next hr =>
    have hjw : j - off < wid := by omega
    have hjo : off + (j - off) = j := by omega
    rw [getLsbD_extract, hjo]
    simp [hjw]
  next => rfl

theorem insertField_of_lt {w v : Word} {off wid : Nat} (h : v.toNat < 2 ^ wid) :
    insertField w off wid v = .ok (insertBits w off wid v) := by
  unfold insertField
  rw [if_neg (by omega)]

theorem insertField_of_le {w v : Word} {off wid : Nat} (h : 2 ^ wid ≤ v.toNat) :
    insertField w off wid v = .error (.fieldOverflow v wid) := by
  unfold insertField
  rw [if_pos h]

/-! ### Fields -/

/-- A field after a store to one word. -/
theorem fieldAt_setWord (x : Memory) (k : Nat) (v : Word) (q : FieldPos) :
    fieldAt (x.setWord k v) q = if q.word = k then extract v q.lsb q.width else fieldAt x q := by
  unfold fieldAt
  rw [Memory.word_setWord]
  split <;> rfl

/-- A field reads its own word only. -/
theorem fieldAt_congr {x y : Memory} {q : FieldPos} (h : x.word q.word = y.word q.word) : fieldAt x q = fieldAt y q := by
  unfold fieldAt
  rw [h]

/-- Read after write of a field. -/
theorem fieldAt_setFieldAt (x : Memory) (q : FieldPos) (v : Word) (h : q.lsb + q.width ≤ 32)
    (hv : v.toNat < 2 ^ q.width) : fieldAt (setFieldAt x q v) q = v := by
  unfold setFieldAt
  rw [fieldAt_setWord, if_pos rfl]
  exact extract_insertBits _ _ h hv

/-- Writing a field leaves a field that shares no bit with it. -/
theorem fieldAt_setFieldAt_of_disjoint (x : Memory) (q r : FieldPos) (v : Word) (hv : v.toNat < 2 ^ q.width)
    (hr : r.lsb + r.width ≤ 32)
    (hd : r.word = q.word → q.lsb + q.width ≤ r.lsb ∨ r.lsb + r.width ≤ q.lsb) :
    fieldAt (setFieldAt x q v) r = fieldAt x r := by
  unfold setFieldAt
  rw [fieldAt_setWord]
  split
  next h =>
    rw [extract_insertBits_of_disjoint _ _ hv hr (hd h)]
    unfold fieldAt
    rw [h]
  next => rfl

theorem word_setFieldAt_ne (x : Memory) (q : FieldPos) (v : Word) {k : Nat} (h : k ≠ q.word) :
    (setFieldAt x q v).word k = x.word k := Memory.word_setWord_ne _ _ h

theorem wf_setFieldAt {x : Memory} (hx : x.wf) {q : FieldPos} (hq : q.word < 4096) (v : Word) :
    (setFieldAt x q v).wf := Memory.wf_setWord hx hq _

/-! ### Decoders -/

theorem toNat_decAddr (v : Word) : (decAddr v).toNat = v.toNat * 8 % 2 ^ 32 := by
  unfold decAddr
  rw [BitVec.toNat_mul]
  rfl

theorem decAddr_mod_eight (v : Word) : (decAddr v).toNat % 8 = 0 := by
  rw [toNat_decAddr]
  omega

theorem decFmt_error {c : Word} (h : 5 ≤ c.toNat) : decFmt c = .error (.invalidFormatCode c) := by
  unfold decFmt
  split <;> first | omega | rfl

theorem decFmt_of_formatOf {c : Word} {f : PixelFormat} (h : formatOf c.toNat = some f) : decFmt c = .ok f := by
  unfold formatOf at h
  unfold decFmt
  split at h
  next e => cases h; simp only [e]
  next e => cases h; simp only [e]
  next e => cases h; simp only [e]
  next e => cases h; simp only [e]
  next e => cases h; simp only [e]
  next => cases h

/-- The format a code below 5 selects has that code as its table index (30_encoding.md R311). -/
theorem decFmt_index {c : Word} (h : c.toNat < 5) : ∃ f, decFmt c = .ok f ∧ f.index = c := by
  have hc : c = BitVec.ofNat 32 c.toNat := by simp
  have h5 : c.toNat = 0 ∨ c.toNat = 1 ∨ c.toNat = 2 ∨ c.toNat = 3 ∨ c.toNat = 4 := by omega
  rcases h5 with e | e | e | e | e <;> rw [e] at hc <;> subst hc <;> exact ⟨_, rfl, rfl⟩

/-! ### Lanes of a bus access -/

theorem laneMask_eq (a : Word) (w : Width) : laneMask a w = lowLanes w <<< (8 * (a.toNat % 4)) := by
  unfold laneMask lane
  cases w <;> rfl

theorem mergeLanes_eq (old a v : Word) (w : Width) : mergeLanes old a w (carried w v) = storedLanes w old a v := by
  unfold mergeLanes storedLanes
  rw [laneMask_eq]
  rfl

theorem memWrite_eq (x : Memory) (a v : Word) (w : Width) :
    memWrite x a w (carried w v) = x.setWord (a.toNat / 4) (storedLanes w (x.word (a.toNat / 4)) a v) := by
  unfold memWrite wordIndex
  rw [mergeLanes_eq]

/-- Bit j of the word after a bus write (43_access_dispatcher.md R557). -/
theorem getLsbD_storedLanes (w : Width) (old a v : Word) (j : Nat) (hj : j < 32) :
    (storedLanes w old a v).getLsbD j
      = if 8 * (a.toNat % 4) ≤ j ∧ j < 8 * (a.toNat % 4) + 8 * widthBytes w
        then v.getLsbD (j - 8 * (a.toNat % 4)) else old.getLsbD j := by
  have hl : lowLanes w = lowMask (8 * widthBytes w) := by cases w <;> rfl
  have hc : carried w v = v &&& lowMask (8 * widthBytes w) := by
    cases w
    · rfl
    · rfl
    · show v = v &&& 0xFFFFFFFF#32
      apply BitVec.eq_of_getLsbD_eq
      intro k hk
      rw [BitVec.getLsbD_and, show (0xFFFFFFFF#32 : Word) = lowMask 32 from rfl, getLsbD_lowMask]
      simp [hk]
  unfold storedLanes
  rw [hl, hc]
  simp only [BitVec.getLsbD_or, BitVec.getLsbD_and, BitVec.getLsbD_not, BitVec.getLsbD_shiftLeft, getLsbD_lowMask, hj,
    decide_true, Bool.true_and]
  have h32 : j - 8 * (a.toNat % 4) < 32 := by omega
  by_cases h1 : j < 8 * (a.toNat % 4)
  · rw [if_neg (by omega)]
    simp [h1]
  · by_cases h3 : j - 8 * (a.toNat % 4) < 8 * widthBytes w
    · rw [if_pos (by omega)]
      simp [h1, h3, h32]
    · rw [if_neg (by omega)]
      simp [h1, h3]

/-- The reply of a bus write is that of its width with the carried value (43_access_dispatcher.md R563..R565). -/
theorem replyOf_busWriteOf (w : Width) (a v : Word) (p : Params) (c : Context) :
    replyOf (busWriteOf w a v) p c = busWrite w a (carried w v) p c := by
  cases w
  · show busWrite .w8 a ((v.setWidth 8).setWidth 32) p c = _
    congr 1
    apply BitVec.eq_of_getLsbD_eq
    intro j hj
    show _ = (v &&& 0xFF#32).getLsbD j
    rw [BitVec.getLsbD_and, show (0xFF#32 : Word) = lowMask 8 from rfl, getLsbD_lowMask]
    simp only [BitVec.getLsbD_setWidth, hj, decide_true, Bool.true_and]
    exact Bool.and_comm _ _
  · show busWrite .w16 a ((v.setWidth 16).setWidth 32) p c = _
    congr 1
    apply BitVec.eq_of_getLsbD_eq
    intro j hj
    show _ = (v &&& 0xFFFF#32).getLsbD j
    rw [BitVec.getLsbD_and, show (0xFFFF#32 : Word) = lowMask 16 from rfl, getLsbD_lowMask]
    simp only [BitVec.getLsbD_setWidth, hj, decide_true, Bool.true_and]
    exact Bool.and_comm _ _
  · rfl

theorem busWriteOf_ne_teardown (w : Width) (a v : Word) : busWriteOf w a v ≠ .teardown := by
  cases w <;> intro h <;> cases h

/-- A bus write that passes the check is one store followed by the inspection of its word
(43_access_dispatcher.md R558). -/
theorem exec_busWriteOf {s : State} {c : Context} (h : s.ctx = some c) {w : Width} {a : Word} (v : Word)
    (ha : a.toNat < 0x4000) (hal : a.toNat % widthBytes w = 0) :
    exec (busWriteOf w a v) s = .next (s.finish (inspect s.params
      { c with x := c.x.setWord (a.toNat / 4) (storedLanes w (c.x.word (a.toNat / 4)) a v) } (a.toNat / 4)
      (lowLanes w <<< (8 * (a.toNat % 4))) (carried w v))) := by
  rw [exec_of_context h _ (busWriteOf_ne_teardown w a v), replyOf_busWriteOf]
  unfold busWrite
  rw [(checkAccess_none_iff a w).mpr ⟨ha, hal⟩]
  show Host.Outcome.next (s.finish (inspect _ _ _ _ _)) = _
  rw [memWrite_eq, laneMask_eq]
  rfl

end Sys2Proof.Machine
end

