-- ==== Sys2Proof/Laws/Layout.lean ====
section
/-! SUPPORT. What the layout assertions of INIT give (R902, R104, R114), the places of the named fields under the
layout the spec takes, and the hooks at the words of that layout. -/

namespace Sys2Proof.Machine

/-! ### Under any layout that passed INIT -/

/-- The fields of the region instance a field belongs to. -/
def siblings : FieldId → List FieldId
  | .fill .fill0 _ => FillField.all.map (.fill .fill0)
  | .fill .fill1 _ => FillField.all.map (.fill .fill1)
  | .fb .fb0 _ => FbField.all.map (.fb .fb0)
  | .fb .fb1 _ => FbField.all.map (.fb .fb1)
  | .xfer _ => XferField.all.map .xfer
  | .cmd _ => CmdField.all.map .cmd

theorem mem_siblings (f : FieldId) : f ∈ siblings f := by
  cases f with
  | fill u f => cases u <;> cases f <;> decide
  | fb u f => cases u <;> cases f <;> decide
  | xfer f => cases f <;> decide
  | cmd f => cases f <;> decide

theorem regions_of_layoutOk {p : Params} (h : layoutOk p = true) : p.layout.regions = RegionTable.spec := by
  unfold layoutOk at h
  simp only [Bool.and_eq_true, beq_iff_eq] at h
  exact h.1.2

theorem regionFieldsOk_of_layoutOk {p : Params} (h : layoutOk p = true) (f : FieldId) :
    regionFieldsOk p (siblings f) = true := by
  unfold layoutOk fieldLayoutOk at h
  simp only [Bool.and_eq_true] at h
  obtain ⟨-, ⟨⟨⟨⟨⟨h1, h2⟩, h3⟩, h4⟩, h5⟩, h6⟩, -⟩ := h
  cases f with
  | fill u f => cases u <;> assumption
  | fb u f => cases u <;> assumption
  | xfer f => exact h5
  | cmd f => exact h6

theorem wellPlaced_iff (q : FieldPos) (r : RegionRow) :
    wellPlaced q r = true ↔
      1 ≤ q.width ∧ q.lsb + q.width ≤ 32 ∧ r.offset ≤ q.word ∧ q.word < r.offset + r.size := by
  unfold wellPlaced
  simp only [Bool.and_eq_true, decide_eq_true_eq]
  exact ⟨fun h => ⟨h.1.1.1, h.1.1.2, h.1.2, h.2⟩, fun h => ⟨⟨⟨h.1, h.2.1⟩, h.2.2.1⟩, h.2.2.2⟩⟩

theorem overlaps_false_iff (q r : FieldPos) :
    overlaps q r = false ↔ (q.word = r.word → q.lsb + q.width ≤ r.lsb ∨ r.lsb + r.width ≤ q.lsb) := by
  unfold overlaps
  simp only [Bool.and_eq_false_iff, decide_eq_false_iff_not]
  omega

theorem wellPlaced_of_layoutOk {p : Params} (h : layoutOk p = true) (f : FieldId) :
    wellPlaced (fieldPos p f) (regionRow p.layout f) = true := by
  have h1 := regionFieldsOk_of_layoutOk h f
  unfold regionFieldsOk at h1
  have h2 := List.all_eq_true.mp h1 f (mem_siblings f)
  rw [Bool.and_eq_true] at h2
  exact h2.1

/-- Two named fields of one region instance share no bit unless a table allows it (10_state.md R114). -/
theorem disjoint_of_layoutOk {p : Params} (h : layoutOk p = true) {f g : FieldId} (hg : g ∈ siblings f) (hne : f ≠ g)
    (ha : mayAlias f g = false) (hw : (fieldPos p f).word = (fieldPos p g).word) :
    (fieldPos p f).lsb + (fieldPos p f).width ≤ (fieldPos p g).lsb
      ∨ (fieldPos p g).lsb + (fieldPos p g).width ≤ (fieldPos p f).lsb := by
  have h1 := regionFieldsOk_of_layoutOk h f
  unfold regionFieldsOk at h1
  have h2 := List.all_eq_true.mp h1 f (mem_siblings f)
  rw [Bool.and_eq_true] at h2
  have h3 := List.all_eq_true.mp h2.2 g hg
  simp only [Bool.or_eq_true, beq_iff_eq, Bool.not_eq_true', ha, Bool.false_eq_true, or_false] at h3
  exact (overlaps_false_iff _ _).mp (h3.resolve_left hne) hw

theorem width_of_layoutOk {p : Params} (h : layoutOk p = true) (f : FieldId) :
    1 ≤ (fieldPos p f).width ∧ (fieldPos p f).lsb + (fieldPos p f).width ≤ 32 := by
  have := (wellPlaced_iff _ _).mp (wellPlaced_of_layoutOk h f)
  exact ⟨this.1, this.2.1⟩

/-- A named field lies in a word of its own region instance, with the rows of R104. -/
theorem word_of_layoutOk {p : Params} (h : layoutOk p = true) (f : FieldId) :
    (regionRow Layout.spec f).offset ≤ (fieldPos p f).word
      ∧ (fieldPos p f).word < (regionRow Layout.spec f).offset + (regionRow Layout.spec f).size := by
  have h1 := (wellPlaced_iff _ _).mp (wellPlaced_of_layoutOk h f)
  have h2 : regionRow p.layout f = regionRow Layout.spec f := by
    have h3 : p.layout.regions = Layout.spec.regions := regions_of_layoutOk h
    cases f with
    | fill u f => cases u <;> simp only [regionRow, h3]
    | fb u f => cases u <;> simp only [regionRow, h3]
    | xfer f => simp only [regionRow, h3]
    | cmd f => simp only [regionRow, h3]
  rw [h2] at h1
  exact ⟨h1.2.2.1, h1.2.2.2⟩

theorem fill_word_of_layoutOk {p : Params} (h : layoutOk p = true) (u : FillUnit) (f : FillField) :
    fillBase u ≤ (fieldPos p (.fill u f)).word ∧ (fieldPos p (.fill u f)).word < fillBase u + 4 := by
  cases u
  · exact word_of_layoutOk h (.fill .fill0 f)
  · exact word_of_layoutOk h (.fill .fill1 f)

theorem fb_word_of_layoutOk {p : Params} (h : layoutOk p = true) (u : FbUnit) (f : FbField) :
    fbBase u ≤ (fieldPos p (.fb u f)).word ∧ (fieldPos p (.fb u f)).word < fbBase u + 64 := by
  cases u
  · exact word_of_layoutOk h (.fb .fb0 f)
  · exact word_of_layoutOk h (.fb .fb1 f)

theorem xfer_word_of_layoutOk {p : Params} (h : layoutOk p = true) (f : XferField) :
    0x300 ≤ (fieldPos p (.xfer f)).word ∧ (fieldPos p (.xfer f)).word < 0x30B := word_of_layoutOk h (.xfer f)

theorem cmd_word_of_layoutOk {p : Params} (h : layoutOk p = true) (f : CmdField) :
    0x638 ≤ (fieldPos p (.cmd f)).word ∧ (fieldPos p (.cmd f)).word < 0x63D := word_of_layoutOk h (.cmd f)

/-- Every named field lies inside the array. -/
theorem word_lt_of_layoutOk {p : Params} (h : layoutOk p = true) (f : FieldId) : (fieldPos p f).word < 4096 := by
  cases f with
  | fill u f => have := fill_word_of_layoutOk h u f; cases u <;> simp only [fillBase] at this <;> omega
  | fb u f => have := fb_word_of_layoutOk h u f; cases u <;> simp only [fbBase] at this <;> omega
  | xfer f => have := xfer_word_of_layoutOk h f; omega
  | cmd f => have := cmd_word_of_layoutOk h f; omega

/-! ### Under the layout the spec takes (10_state.md R110..R113) -/

theorem fieldPos_fill {p : Params} (h : p.layout = Layout.spec) (u : FillUnit) (f : FillField) :
    fieldPos p (.fill u f) = (FillLayout.spec (fillBase u)).pos p.fill24Order f := by
  cases u <;> simp only [fieldPos, h] <;> rfl

theorem fieldPos_fb {p : Params} (h : p.layout = Layout.spec) (u : FbUnit) (f : FbField) :
    fieldPos p (.fb u f) = (FbLayout.spec (fbBase u)).pos f := by
  cases u <;> simp only [fieldPos, h] <;> rfl

theorem fieldPos_xfer {p : Params} (h : p.layout = Layout.spec) (f : XferField) :
    fieldPos p (.xfer f) = XferLayout.spec.pos p.convertToTiledBit f := by
  simp only [fieldPos, h]
  rfl

theorem fieldPos_cmd {p : Params} (h : p.layout = Layout.spec) (f : CmdField) :
    fieldPos p (.cmd f) = CmdLayout.spec.pos f := by
  simp only [fieldPos, h]
  rfl

/-- The identifier and the field of each row do not depend on the parameters. -/
theorem fieldTable_names (o : Fill24Order) (bit : Nat) :
    (fieldTable o bit).map (fun row => (row.id, row.field))
      = (fieldTable .rgbLowFirst 1).map (fun row => (row.id, row.field)) := by
  cases o <;> rfl

/-- Each row of R305 names its field. -/
theorem ofCode_of_row {o : Fill24Order} {bit : Nat} {row : FieldRow} (hr : row ∈ fieldTable o bit) :
    FieldId.ofCode row.id = some row.field := by
  have h : ∀ n ∈ (fieldTable .rgbLowFirst 1).map (fun row => (row.id, row.field)), FieldId.ofCode n.1 = some n.2 := by
    decide +kernel
  have hm := List.mem_map_of_mem (f := fun row => (row.id, row.field)) hr
  rw [fieldTable_names] at hm
  exact h _ hm

theorem fieldPos_of_fillRow {p : Params} (h : p.layout = Layout.spec) (u : FillUnit) (k : BitVec 8) :
    ∀ row ∈ fillRows u k (fillBase u) p.fill24Order, fieldPos p row.field = row.pos := by
  unfold fillRows
  simp only [List.forall_mem_cons, fieldPos_fill h]
  cases p.fill24Order <;> simp [FillLayout.pos, FillLayout.spec]

theorem fieldPos_of_fbRow {p : Params} (h : p.layout = Layout.spec) (u : FbUnit) (k : BitVec 8) :
    ∀ row ∈ fbRows u k (fbBase u), fieldPos p row.field = row.pos := by
  unfold fbRows
  simp only [List.forall_mem_cons, fieldPos_fb h]
  simp [FbLayout.pos, FbLayout.spec]

theorem fieldPos_of_xferRow {p : Params} (h : p.layout = Layout.spec) :
    ∀ row ∈ xferRows p.convertToTiledBit, fieldPos p row.field = row.pos := by
  unfold xferRows
  simp only [List.forall_mem_append, List.forall_mem_cons, fieldPos_xfer h]
  simp [XferLayout.pos, XferLayout.spec]

theorem fieldPos_of_cmdRow {p : Params} (h : p.layout = Layout.spec) :
    ∀ row ∈ cmdRows, fieldPos p row.field = row.pos := by
  unfold cmdRows
  simp only [List.forall_mem_cons, fieldPos_cmd h]
  simp [CmdLayout.pos, CmdLayout.spec]

/-- Each row of R305 gives its field the place of R110..R113. -/
theorem fieldPos_of_row {p : Params} (h : p.layout = Layout.spec) {row : FieldRow}
    (hr : row ∈ fieldTable p.fill24Order p.convertToTiledBit) : fieldPos p row.field = row.pos := by
  unfold fieldTable at hr
  simp only [List.mem_append] at hr
  rcases hr with ((((hr | hr) | hr) | hr) | hr) | hr
  · exact fieldPos_of_fillRow h .fill0 _ row hr
  · exact fieldPos_of_fillRow h .fill1 _ row hr
  · exact fieldPos_of_fbRow h .fb0 _ row hr
  · exact fieldPos_of_fbRow h .fb1 _ row hr
  · exact fieldPos_of_xferRow h row hr
  · exact fieldPos_of_cmdRow h row hr

/-- The listed identifiers are those of the rows, under any value of the parameters. -/
theorem listedFieldCode_iff_row (o : Fill24Order) (bit : Nat) (id : BitVec 8) :
    listedFieldCode id = true ↔ ∃ row ∈ fieldTable o bit, row.id = id := by
  have h : ∀ id : BitVec 8, listedFieldCode id
      = (((fieldTable .rgbLowFirst 1).map (fun row => (row.id, row.field))).map Prod.fst).contains id := by
    decide +kernel
  rw [h, ← fieldTable_names o bit, List.map_map, List.contains_iff_mem, List.mem_map]
  rfl

theorem lowMask_one : lowMask 1 = 1#32 := rfl
theorem lowMask_three : lowMask 3 = 7#32 := rfl

/-- The one-bit fields. -/
theorem extract_bit (w : Word) (k : Nat) : extract w k 1 = if w.getLsbD k then 1 else 0 := by
  apply BitVec.eq_of_getLsbD_eq
  intro j hj
  rw [getLsbD_extract]
  by_cases h0 : j = 0
  · subst h0
    cases w.getLsbD k <;> simp
  · have h1 : ¬ j < 1 := by omega
    cases w.getLsbD k <;> simp [BitVec.getLsbD_one, h0, h1]

theorem extract_bit_ne_zero (w : Word) (k : Nat) : extract w k 1 ≠ 0 ↔ w.getLsbD k = true := by
  rw [extract_bit]
  cases w.getLsbD k <;> simp

theorem fieldPos_fill_trigger {p : Params} (h : p.layout = Layout.spec) (u : FillUnit) :
    fieldPos p (.fill u .trigger) = ⟨fillBase u + 3, 0, 1⟩ := fieldPos_fill h u .trigger

theorem fieldPos_xfer_trigger {p : Params} (h : p.layout = Layout.spec) :
    fieldPos p (.xfer .trigger) = ⟨0x306, 0, 32⟩ := fieldPos_xfer h .trigger

theorem fieldPos_cmd_trigger {p : Params} (h : p.layout = Layout.spec) :
    fieldPos p (.cmd .trigger) = ⟨0x63C, 0, 1⟩ := fieldPos_cmd h .trigger

/-- The hook of each trigger word of the layout the spec takes. -/
theorem inspect_fill {p : Params} (h : p.layout = Layout.spec) (u : FillUnit) (c : Context) (m v : Word) :
    inspect p c (fillBase u + 3) m v = fillHook p c u m := by
  unfold inspect
  simp only [fieldPos_fill_trigger h]
  cases u <;> simp [fillBase]

theorem inspect_xfer {p : Params} (h : p.layout = Layout.spec) (c : Context) (m v : Word) :
    inspect p c 0x306 m v = xferHook p c m v := by
  unfold inspect
  simp only [fieldPos_fill_trigger h, fieldPos_xfer_trigger h]
  simp [fillBase]

theorem inspect_cmd {p : Params} (h : p.layout = Layout.spec) (c : Context) (m v : Word) :
    inspect p c 0x63C m v = cmdHook p c m := by
  unfold inspect
  simp only [fieldPos_fill_trigger h, fieldPos_xfer_trigger h, fieldPos_cmd_trigger h]
  simp [fillBase]

/-- A write that starts at lane 0 is a trigger write of a bit-0 trigger exactly when it leaves bit 0 set. -/
theorem isTriggerWrite_bit_zero (x : Memory) (w : Width) (k : Nat) :
    isTriggerWrite x (lowLanes w) ⟨k, 0, 1⟩ = (x.word k).getLsbD 0 := by
  have hc : covers (lowLanes w) ⟨k, 0, 1⟩ = true := by
    show ((lowLanes w &&& lowMask 1 <<< 0) != 0) = true
    cases w <;> decide
  unfold isTriggerWrite
  rw [hc, Bool.true_and]
  show (extract (x.word k) 0 1 != 0) = _
  rw [extract_bit]
  cases (x.word k).getLsbD 0 <;> rfl

/-- Bit 0 of the word after a bus write: the value's where the write covers lane 0, else the old one. -/
theorem getLsbD_zero_storedLanes_ite (w : Width) (old a v : Word) :
    (storedLanes w old a v).getLsbD 0 = if a.toNat % 4 = 0 then v.getLsbD 0 else old.getLsbD 0 := by
  have hw : 0 < widthBytes w := by cases w <;> decide
  rw [getLsbD_storedLanes w old a v 0 (by omega)]
  by_cases h : a.toNat % 4 = 0
  · rw [if_pos (by omega), if_pos h, h]
  · rw [if_neg (by omega), if_neg h]

/-- The lanes of the address of a word's lane 0 give bit 0 of the value. -/
theorem getLsbD_zero_storedLanes (w : Width) (old a v : Word) (h : a.toNat % 4 = 0) :
    (storedLanes w old a v).getLsbD 0 = v.getLsbD 0 := by
  rw [getLsbD_storedLanes w old a v 0 (by omega), h, if_pos]
  have : 0 < widthBytes w := by cases w <;> decide
  omega

end Sys2Proof.Machine
end

