-- ==== Sys2Proof/Laws/Hooks.lean ====
section
/-! SUPPORT. The inspection after a store (R558): what it never touches, when it does nothing, and what each hook
answers, case by case. -/

namespace Sys2Proof.Machine

/-! ### What a hook never touches -/

theorem fillHook_x (p : Params) (c : Context) (u : FillUnit) (m : Word) : (fillHook p c u m).ctx.x = c.x := by
  unfold fillHook
  split
  · split
    · rfl
    · split
      · rfl
      · exact Context.setFillOp_x _ _ _
  · rfl

theorem xferHook_x (p : Params) (c : Context) (m v : Word) : (xferHook p c m v).ctx.x = c.x := by
  unfold xferHook
  split
  · rfl
  · split
    · rfl
    · split <;> rfl

theorem cmdHook_x (p : Params) (c : Context) (m : Word) : (cmdHook p c m).ctx.x = c.x := by
  unfold cmdHook
  split
  · split <;> rfl
  · rfl

/-- The inspection stores nothing: the words are those after the store. -/
theorem inspect_x (p : Params) (c : Context) (i : Nat) (m v : Word) : (inspect p c i m v).ctx.x = c.x := by
  unfold inspect
  split
  · exact fillHook_x _ _ _ _
  split
  · exact fillHook_x _ _ _ _
  split
  · exact xferHook_x _ _ _ _
  split
  · exact cmdHook_x _ _ _
  rfl

/-- The inspection gives no data. -/
theorem inspect_result (p : Params) (c : Context) (i : Nat) (m v : Word) : (inspect p c i m v).result = none := by
  have hf : ∀ u, (fillHook p c u m).result = none := by
    intro u
    unfold fillHook
    split
    · split
      · rfl
      · split <;> rfl
    · rfl
  unfold inspect
  split
  · exact hf _
  split
  · exact hf _
  split
  · unfold xferHook
    split
    · rfl
    · split
      · rfl
      · split <;> rfl
  split
  · unfold cmdHook
    split
    · split <;> rfl
    · rfl
  rfl

/-! ### When the inspection does nothing -/

theorem fillHook_of_no_trigger {p : Params} (c : Context) {u : FillUnit} {m : Word}
    (h : isTriggerWrite c.x m (fieldPos p (.fill u .trigger)) = false) : fillHook p c u m = done c := by
  unfold fillHook
  rw [h]
  rfl

theorem cmdHook_of_no_trigger {p : Params} (c : Context) {m : Word}
    (h : isTriggerWrite c.x m (fieldPos p (.cmd .trigger)) = false) : cmdHook p c m = done c := by
  unfold cmdHook
  rw [h]
  rfl

theorem xferHook_of_zero (p : Params) (c : Context) (m : Word) : xferHook p c m 0 = done c := by
  unfold xferHook
  simp

theorem isTriggerWrite_of_not_covered {x : Memory} {m : Word} {q : FieldPos} (h : covers m q = false) :
    isTriggerWrite x m q = false := by
  unfold isTriggerWrite
  rw [h]
  rfl

/-- A write whose lanes cover no trigger field of the word it goes to (20_memory.md R212). -/
theorem inspect_of_not_covered {p : Params} {c : Context} {i : Nat} {m : Word}
    (h : ∀ r, (fieldPos p (triggerField r)).word = i → covers m (fieldPos p (triggerField r)) = false) (v : Word) :
    inspect p c i m v = done c := by
  unfold inspect
  split
  next e => exact fillHook_of_no_trigger _ (isTriggerWrite_of_not_covered (h .fill0 e.symm))
  split
  next e => exact fillHook_of_no_trigger _ (isTriggerWrite_of_not_covered (h .fill1 e.symm))
  split
  next e =>
    have hx : covers m (fieldPos p (.xfer .trigger)) = false := h .xfer e.symm
    unfold xferHook
    simp [hx]
  split
  next e => exact cmdHook_of_no_trigger _ (isTriggerWrite_of_not_covered (h .cmd e.symm))
  rfl

/-! ### The hooks, case by case -/

theorem fillHook_busy {p : Params} (c : Context) {u : FillUnit} {m : Word} {q : FillRequest}
    (h : isTriggerWrite c.x m (fieldPos p (.fill u .trigger)) = true) (hq : c.fillOp u = .busy q) :
    fillHook p c u m = raise c (.operationAlreadyInProgress (fillRegion u)) := by
  unfold fillHook
  rw [h, hq]
  rfl

theorem fillHook_error {p : Params} (c : Context) {u : FillUnit} {m : Word} {e : ErrorKind}
    (h : isTriggerWrite c.x m (fieldPos p (.fill u .trigger)) = true) (hq : c.fillOp u = .idle)
    (he : fillMode p u (field p c.x (.fill u .fill24)) (field p c.x (.fill u .fill32)) = .error e) :
    fillHook p c u m = raise c e := by
  unfold fillHook
  rw [h, hq, he]
  rfl

theorem fillHook_start {p : Params} (c : Context) {u : FillUnit} {m : Word} {mode : FillMode}
    (h : isTriggerWrite c.x m (fieldPos p (.fill u .trigger)) = true) (hq : c.fillOp u = .idle)
    (he : fillMode p u (field p c.x (.fill u .fill24)) (field p c.x (.fill u .fill32)) = .ok mode) :
    fillHook p c u m
      = start (c.setFillOp u (.busy (fillRequest p c.x u mode))) (.fill (fillRequest p c.x u mode)) := by
  unfold fillHook
  rw [h, hq, he]
  rfl

theorem cmdHook_busy {p : Params} (c : Context) {m : Word} {q : CmdRequest}
    (h : isTriggerWrite c.x m (fieldPos p (.cmd .trigger)) = true) (hq : c.cmd = .busy q) :
    cmdHook p c m = raise c (.operationAlreadyInProgress .cmd) := by
  unfold cmdHook
  rw [h, hq]
  rfl

theorem cmdHook_start {p : Params} (c : Context) {m : Word}
    (h : isTriggerWrite c.x m (fieldPos p (.cmd .trigger)) = true) (hq : c.cmd = .idle) :
    cmdHook p c m = start { c with cmd := .busy (cmdRequest p c.x) } (.cmd (cmdRequest p c.x)) := by
  unfold cmdHook
  rw [h, hq]
  rfl

theorem xferHook_busy {p : Params} (c : Context) {m v : Word} {q : XferRequest} (hv : v ≠ 0)
    (hm : covers m (fieldPos p (.xfer .trigger)) = true) (hq : c.xfer = .busy q) :
    xferHook p c m v = raise c (.operationAlreadyInProgress .xfer) := by
  unfold xferHook
  rw [hm, hq, if_neg (by simpa using hv)]

theorem xferHook_error {p : Params} (c : Context) {m v : Word} {e : ErrorKind} (hv : v ≠ 0)
    (hm : covers m (fieldPos p (.xfer .trigger)) = true) (hq : c.xfer = .idle) (he : xferRequest p c.x = .error e) :
    xferHook p c m v = raise c e := by
  unfold xferHook
  rw [hm, hq, he, if_neg (by simpa using hv)]

theorem xferHook_start {p : Params} (c : Context) {m v : Word} {q : XferRequest} (hv : v ≠ 0)
    (hm : covers m (fieldPos p (.xfer .trigger)) = true) (hq : c.xfer = .idle) (he : xferRequest p c.x = .ok q) :
    xferHook p c m v = start { c with xfer := .busy q } (.xfer q) := by
  unfold xferHook
  rw [hm, hq, he, if_neg (by simpa using hv)]

/-! ### Under the layout the spec takes -/

/-- Every aligned write covers the transfer trigger, which is a whole word (46_display_transfer.md R702). -/
theorem covers_xfer_trigger {p : Params} (h : p.layout = Layout.spec) {w : Width} {a : Word}
    (ha : a.toNat % widthBytes w = 0) :
    covers (lowLanes w <<< (8 * (a.toNat % 4))) (fieldPos p (.xfer .trigger)) = true := by
  rw [fieldPos_xfer_trigger h]
  have h4 : a.toNat % 4 = 0 ∨ a.toNat % 4 = 1 ∨ a.toNat % 4 = 2 ∨ a.toNat % 4 = 3 := by omega
  cases w
  · rcases h4 with e | e | e | e <;> rw [e] <;> decide
  · have h2 : a.toNat % 4 = 0 ∨ a.toNat % 4 = 2 := by simp only [widthBytes] at ha; omega
    rcases h2 with e | e <;> rw [e] <;> decide
  · have h0 : a.toNat % 4 = 0 := ha
    rw [h0]
    decide

/-- A write at the control word of a fill unit is a trigger write exactly when the value's bit 0 is set. -/
theorem isTriggerWrite_fill {p : Params} (h : p.layout = Layout.spec) {u : FillUnit} {w : Width} {a v : Word}
    {x y : Memory} (ha : a.toNat = 4 * (fillBase u + 3))
    (hx : x = y.setWord (fillBase u + 3) (storedLanes w (y.word (fillBase u + 3)) a v)) :
    isTriggerWrite x (lowLanes w) (fieldPos p (.fill u .trigger)) = v.getLsbD 0 := by
  subst hx
  rw [fieldPos_fill_trigger h, isTriggerWrite_bit_zero, Memory.word_setWord_self,
    getLsbD_zero_storedLanes _ _ _ _ (by omega)]

/-- A write at the trigger word of CMD is a trigger write exactly when the value's bit 0 is set. -/
theorem isTriggerWrite_cmd {p : Params} (h : p.layout = Layout.spec) {w : Width} {a v : Word} {x y : Memory}
    (ha : a.toNat = 0x18F0) (hx : x = y.setWord 0x63C (storedLanes w (y.word 0x63C) a v)) :
    isTriggerWrite x (lowLanes w) (fieldPos p (.cmd .trigger)) = v.getLsbD 0 := by
  subst hx
  rw [fieldPos_cmd_trigger h, isTriggerWrite_bit_zero, Memory.word_setWord_self,
    getLsbD_zero_storedLanes _ _ _ _ (by omega)]

/-- A bus write at the control word of a fill unit: one store, then FillHook. -/
theorem exec_busWrite_fill {s : State} {c : Context} (hl : s.params.layout = Layout.spec) (h : s.ctx = some c)
    {u : FillUnit} {w : Width} {a v : Word} {x : Memory} (ha : a.toNat = 4 * (fillBase u + 3))
    (hx : x = c.x.setWord (fillBase u + 3) (storedLanes w (c.x.word (fillBase u + 3)) a v)) :
    exec (busWriteOf w a v) s = .next (s.finish (fillHook s.params { c with x := x } u (lowLanes w))) := by
  subst hx
  have hb : fillBase u ≤ 8 := by cases u <;> decide
  have hal : a.toNat % widthBytes w = 0 := by cases w <;> simp only [widthBytes] <;> omega
  have hw : a.toNat / 4 = fillBase u + 3 := by omega
  have hz : a.toNat % 4 = 0 := by omega
  rw [exec_busWriteOf h v (by omega) hal, hw, inspect_fill hl, hz]
  simp

/-- A bus write at the trigger word of XFER, at any lane: one store, then XferHook. -/
theorem exec_busWrite_xfer {s : State} {c : Context} (hl : s.params.layout = Layout.spec) (h : s.ctx = some c)
    {w : Width} {a v : Word} {x : Memory} (ha : a.toNat / 4 = 0x306) (hal : a.toNat % widthBytes w = 0)
    (hx : x = c.x.setWord 0x306 (storedLanes w (c.x.word 0x306) a v)) :
    exec (busWriteOf w a v) s = .next (s.finish (xferHook s.params { c with x := x }
      (lowLanes w <<< (8 * (a.toNat % 4))) (carried w v))) := by
  subst hx
  rw [exec_busWriteOf h v (by omega) hal, ha, inspect_xfer hl]

/-- A bus write at the trigger word of CMD: one store, then CmdHook. -/
theorem exec_busWrite_cmd {s : State} {c : Context} (hl : s.params.layout = Layout.spec) (h : s.ctx = some c)
    {w : Width} {a v : Word} {x : Memory} (ha : a.toNat = 0x18F0)
    (hx : x = c.x.setWord 0x63C (storedLanes w (c.x.word 0x63C) a v)) :
    exec (busWriteOf w a v) s = .next (s.finish (cmdHook s.params { c with x := x } (lowLanes w))) := by
  subst hx
  have hal : a.toNat % widthBytes w = 0 := by cases w <;> simp only [widthBytes] <;> omega
  have hw : a.toNat / 4 = 0x63C := by omega
  have hz : a.toNat % 4 = 0 := by omega
  rw [exec_busWriteOf h v (by omega) hal, hw, inspect_cmd hl, hz]
  simp

/-- The request fields under the layout the spec takes: a whole-word field is its word. -/
theorem fieldAt_whole (x : Memory) (k : Nat) : fieldAt x ⟨k, 0, 32⟩ = x.word k := extract_full _

/-- The upper half of a word. -/
theorem extract_high (w : Word) : extract w 16 16 = w >>> 16 := by
  apply BitVec.eq_of_getLsbD_eq
  intro j hj
  rw [getLsbD_extract, BitVec.getLsbD_ushiftRight]
  by_cases h : j < 16
  · simp [h]
  · simp [h, BitVec.getLsbD_of_ge w (16 + j) (by omega)]

/-- A field at bit 0 is the low bits. -/
theorem extract_zero (w : Word) (wid : Nat) : extract w 0 wid = w &&& lowMask wid := by
  unfold extract
  simp

/-- The record the executor of a fill receives is the one R607 writes over the words. -/
theorem fillRequest_eq {p : Params} (h : p.layout = Layout.spec) (x : Memory) (u : FillUnit) (m : FillMode) :
    fillRequest p x u m = fillRequestOf p.fill24Order x u m := by
  unfold fillRequest fillRequestOf decodedField field
  simp only [fieldPos_fill h]
  have hv : fillValue p x u m = fillValueOf p.fill24Order (x.word (fillBase u + 2)) m := by
    unfold fillValue fillValueOf field
    simp only [fieldPos_fill h]
    cases m with
    | m16 => exact congrArg FillValue.v16 (extract_zero _ 16)
    | m32 => exact congrArg FillValue.v32 (extract_full _)
    | m24 =>
      cases p.fill24Order
      · show FillValue.rgb (extract _ 0 8) (extract _ 8 8) (extract _ 16 8) = _
        rw [extract_zero]
        rfl
      · show FillValue.rgb (extract _ 16 8) (extract _ 8 8) (extract _ 0 8) = _
        rw [extract_zero]
        rfl
  rw [hv]
  show FillRequest.mk u (decAddr (extract (x.word (fillBase u)) 0 32)) (decAddr (extract (x.word (fillBase u + 1)) 0 32)) m _
    = _
  rw [extract_full, extract_full]
  rfl

/-- The record the executor of a command list receives is the one R753 and R757 write over the words. -/
theorem cmdRequest_eq {p : Params} (h : p.layout = Layout.spec) (x : Memory) :
    cmdRequest p x = ⟨x.word 0x63A * 8, x.word 0x638 * 8⟩ := by
  unfold cmdRequest decodedField field
  simp only [fieldPos_cmd h]
  show CmdRequest.mk (decAddr (extract (x.word 0x63A) 0 32)) (commandLength (extract (x.word 0x638) 0 32)) = _
  rw [extract_full, extract_full]
  rfl

/-- The line record of a texture copy is the one R708 writes over the words. -/
theorem textureCopy_eq {p : Params} (h : p.layout = Layout.spec) (x : Memory) : textureCopy p x = textureCopyOf x := by
  unfold textureCopy textureCopyOf field
  simp only [fieldPos_xfer h]
  have e1 : fieldAt x (XferLayout.spec.pos p.convertToTiledBit .inputLineUnits) = x.word 0x309 &&& 0xFFFF :=
    extract_zero _ 16
  have e2 : fieldAt x (XferLayout.spec.pos p.convertToTiledBit .inputPaddingUnits) = x.word 0x309 >>> 16 :=
    extract_high _
  have e3 : fieldAt x (XferLayout.spec.pos p.convertToTiledBit .outputLineUnits) = x.word 0x30A &&& 0xFFFF :=
    extract_zero _ 16
  have e4 : fieldAt x (XferLayout.spec.pos p.convertToTiledBit .outputPaddingUnits) = x.word 0x30A >>> 16 :=
    extract_high _
  have e5 : fieldAt x (XferLayout.spec.pos p.convertToTiledBit .textureCopySize) = x.word 0x308 := extract_full _
  rw [e1, e2, e3, e4, e5]
  rfl

/-- The record the executor of a transfer receives is the one R706 writes over the words. -/
theorem xferRequestWith_eq {p : Params} (h : p.layout = Layout.spec) (x : Memory) (inFmt outFmt : Option PixelFormat)
    (copy : Option TextureCopy) :
    xferRequestWith p x inFmt outFmt copy = xferRequestOf p.convertToTiledBit x inFmt outFmt copy := by
  unfold xferRequestWith xferRequestOf decodedField field
  simp only [fieldPos_xfer h]
  have e1 : fieldAt x (XferLayout.spec.pos p.convertToTiledBit .inputAddress) = x.word 0x300 := extract_full _
  have e2 : fieldAt x (XferLayout.spec.pos p.convertToTiledBit .outputAddress) = x.word 0x301 := extract_full _
  have e3 : fieldAt x (XferLayout.spec.pos p.convertToTiledBit .outputWidth) = x.word 0x302 &&& 0xFFFF :=
    extract_zero _ 16
  have e4 : fieldAt x (XferLayout.spec.pos p.convertToTiledBit .outputHeight) = x.word 0x302 >>> 16 := extract_high _
  have e5 : fieldAt x (XferLayout.spec.pos p.convertToTiledBit .inputWidth) = x.word 0x303 &&& 0xFFFF :=
    extract_zero _ 16
  have e6 : fieldAt x (XferLayout.spec.pos p.convertToTiledBit .inputHeight) = x.word 0x303 >>> 16 := extract_high _
  have e7 : fieldAt x (XferLayout.spec.pos p.convertToTiledBit .flipData) = x.word 0x304 &&& 1 := extract_zero _ 1
  rw [e1, e2, e3, e4, e5, e6, e7]
  rfl

theorem isRawCopy_eq {p : Params} (h : p.layout = Layout.spec) (x : Memory) :
    field p x (.xfer .isRawCopy) = if (x.word 0x304).getLsbD 3 then 1 else 0 := by
  unfold field
  rw [fieldPos_xfer h]
  exact extract_bit _ 3

theorem inputFormat_eq {p : Params} (h : p.layout = Layout.spec) (x : Memory) :
    field p x (.xfer .inputFormat) = inputCode x := by
  unfold field
  rw [fieldPos_xfer h]
  rfl

theorem outputFormat_eq {p : Params} (h : p.layout = Layout.spec) (x : Memory) :
    field p x (.xfer .outputFormat) = outputCode x := by
  unfold field
  rw [fieldPos_xfer h]
  rfl

/-- A raw copy decodes no format (46_display_transfer.md R706, R707). -/
theorem xferRequest_raw {p : Params} (h : p.layout = Layout.spec) {x : Memory} (hr : (x.word 0x304).getLsbD 3 = true) :
    xferRequest p x = .ok (xferRequestOf p.convertToTiledBit x none none (some (textureCopyOf x))) := by
  unfold xferRequest
  rw [isRawCopy_eq h, hr, if_pos (by decide), xferRequestWith_eq h, textureCopy_eq h]

/-- Without raw copy: the input format, then the output format, and the first bad code is the error (R706, R707). -/
theorem xferRequest_formats {p : Params} (h : p.layout = Layout.spec) {x : Memory}
    (hr : (x.word 0x304).getLsbD 3 = false) :
    xferRequest p x = match decFmt (inputCode x) with
      | .error e => .error e
      | .ok fin =>
        match decFmt (outputCode x) with
        | .error e => .error e
        | .ok fout => .ok (xferRequestOf p.convertToTiledBit x (some fin) (some fout) none) := by
  unfold xferRequest
  rw [isRawCopy_eq h, hr, if_neg (by decide), inputFormat_eq h, outputFormat_eq h]
  simp only [xferRequestWith_eq h] <;> rfl

theorem fillBits_eq {p : Params} (h : p.layout = Layout.spec) (x : Memory) (u : FillUnit) :
    field p x (.fill u .fill24) = (if (x.word (fillBase u + 3)).getLsbD 8 then 1 else 0)
      ∧ field p x (.fill u .fill32) = if (x.word (fillBase u + 3)).getLsbD 9 then 1 else 0 := by
  unfold field
  rw [fieldPos_fill h, fieldPos_fill h]
  exact ⟨extract_bit _ 8, extract_bit _ 9⟩

/-! ### The errors an inspection does not raise (60_exceptions.md R803) -/

theorem fillMode_ne_fieldOverflow (p : Params) (u : FillUnit) (b24 b32 value : Word) (width : Nat) :
    fillMode p u b24 b32 ≠ .error (.fieldOverflow value width) := by
  unfold fillMode
  repeat' split
  all_goals simp

theorem decFmt_ne_fieldOverflow (code value : Word) (width : Nat) : decFmt code ≠ .error (.fieldOverflow value width) := by
  unfold decFmt
  split <;> simp

theorem xferRequest_ne_fieldOverflow (p : Params) (x : Memory) (value : Word) (width : Nat) :
    xferRequest p x ≠ .error (.fieldOverflow value width) := by
  unfold xferRequest
  split
  · simp
  · split
    next e he =>
      intro h
      cases h
      exact decFmt_ne_fieldOverflow _ _ _ he
    next =>
      split
      next e he =>
        intro h
        cases h
        exact decFmt_ne_fieldOverflow _ _ _ he
      next => simp

theorem fillHook_ne_fieldOverflow (p : Params) (c : Context) (u : FillUnit) (m value : Word) (width : Nat) :
    (fillHook p c u m).status ≠ .error (.fieldOverflow value width) := by
  unfold fillHook
  split
  · split
    · simp
    · split
      next e he =>
        intro h
        rw [raise_status] at h
        cases h
        exact fillMode_ne_fieldOverflow _ _ _ _ _ _ he
      next => simp
  · simp

/-- The inspection after a store raises no FieldOverflow. -/
theorem inspect_ne_fieldOverflow (p : Params) (c : Context) (k : Nat) (m v value : Word) (width : Nat) :
    (inspect p c k m v).status ≠ .error (.fieldOverflow value width) := by
  unfold inspect
  split
  · exact fillHook_ne_fieldOverflow _ _ _ _ _ _
  split
  · exact fillHook_ne_fieldOverflow _ _ _ _ _ _
  split
  · unfold xferHook
    split
    · simp
    · split
      · simp
      · split
        next e he =>
          intro h
          rw [raise_status] at h
          cases h
          exact xferRequest_ne_fieldOverflow _ _ _ _ he
        next => simp
  split
  · unfold cmdHook
    split
    · split <;> simp
    · simp
  · simp

/-- A bus write raises no FieldOverflow. -/
theorem busWrite_ne_fieldOverflow (w : Width) (a v : Word) (p : Params) (c : Context) (value : Word) (width : Nat) :
    (busWrite w a v p c).status ≠ .error (.fieldOverflow value width) := by
  unfold busWrite
  split
  next e he =>
    rw [raise_status]
    intro h
    cases h
    unfold checkAccess at he
    split at he
    · cases he
    · split at he <;> cases he
  next => exact inspect_ne_fieldOverflow _ _ _ _ _ _ _

end Sys2Proof.Machine
end

