-- ==== Sys2Proof/Laws/PerInstr.lean ====
section
/-! SUPPORT. Statements made per instruction, one lemma per constructor of `Instr`. -/

namespace Sys2Proof.Laws.EncodingShape

/-- The class of a port, the high four bits of its operation codes (30_encoding.md R302, R303). -/
def portClass : Port → Nat
  | .bus => 0x0
  | .raw => 0x1
  | .done _ => 0x2
  | .field => 0x3
  | .dec => 0x4
  | .acc => 0x5
  | .host => 0xF

/-- The high four bits of an instruction's operation code are the class of its port (R302), and its operands put no
bit where R303 calls the operand ignored. -/
def Statement (i : Instr) : Prop := i.opcode.toNat / 16 = portClass i.port ∧ (encode i).canonical = encode i

/-- Masking with every bit set changes nothing. -/
theorem and_all (v : Word) : v &&& 0xFFFFFFFF#32 = v := BitVec.and_allOnes

theorem bread8 (a : Word) : Statement (.bread8 a) := by
  simp [Statement, portClass, Instr.port, encode, Transaction.canonical, Instr.opcode, Instr.operandA, Instr.operandD,
    usedBitsA, usedBitsD, and_all]

theorem bread16 (a : Word) : Statement (.bread16 a) := by
  simp [Statement, portClass, Instr.port, encode, Transaction.canonical, Instr.opcode, Instr.operandA, Instr.operandD,
    usedBitsA, usedBitsD, and_all]

theorem bread32 (a : Word) : Statement (.bread32 a) := by
  simp [Statement, portClass, Instr.port, encode, Transaction.canonical, Instr.opcode, Instr.operandA, Instr.operandD,
    usedBitsA, usedBitsD, and_all]

theorem bwrite8 (a : Word) (v : BitVec 8) : Statement (.bwrite8 a v) := by
  simp [Statement, portClass, Instr.port, encode, Transaction.canonical, Instr.opcode, Instr.operandA, Instr.operandD,
    usedBitsA, usedBitsD, and_all, setWidth_and_low_8]

theorem bwrite16 (a : Word) (v : BitVec 16) : Statement (.bwrite16 a v) := by
  simp [Statement, portClass, Instr.port, encode, Transaction.canonical, Instr.opcode, Instr.operandA, Instr.operandD,
    usedBitsA, usedBitsD, and_all, setWidth_and_low_16]

theorem bwrite32 (a : Word) (v : Word) : Statement (.bwrite32 a v) := by
  simp [Statement, portClass, Instr.port, encode, Transaction.canonical, Instr.opcode, Instr.operandA, Instr.operandD,
    usedBitsA, usedBitsD, and_all]

theorem rread (j : Word) : Statement (.rread j) := by
  simp [Statement, portClass, Instr.port, encode, Transaction.canonical, Instr.opcode, Instr.operandA, Instr.operandD,
    usedBitsA, usedBitsD, and_all]

theorem rwrite (j : Word) (v : Word) : Statement (.rwrite j v) := by
  simp [Statement, portClass, Instr.port, encode, Transaction.canonical, Instr.opcode, Instr.operandA, Instr.operandD,
    usedBitsA, usedBitsD, and_all]

theorem filldone (u : FillUnit) : Statement (.filldone u) := by
  cases u <;> exact ⟨rfl, rfl⟩

theorem xferdone : Statement (.xferdone) := by
  exact ⟨rfl, rfl⟩

theorem cmddone : Statement (.cmddone) := by
  exact ⟨rfl, rfl⟩

theorem fget (id : BitVec 8) : Statement (.fget id) := by
  simp [Statement, portClass, Instr.port, encode, Transaction.canonical, Instr.opcode, Instr.operandA, Instr.operandD,
    usedBitsA, usedBitsD, and_all]

theorem fset (id : BitVec 8) (v : Word) : Statement (.fset id v) := by
  simp [Statement, portClass, Instr.port, encode, Transaction.canonical, Instr.opcode, Instr.operandA, Instr.operandD,
    usedBitsA, usedBitsD, and_all]

theorem decaddr (v : Word) : Statement (.decaddr v) := by
  simp [Statement, portClass, Instr.port, encode, Transaction.canonical, Instr.opcode, Instr.operandA, Instr.operandD,
    usedBitsA, usedBitsD, and_all]

theorem decfmt (c : Word) : Statement (.decfmt c) := by
  simp [Statement, portClass, Instr.port, encode, Transaction.canonical, Instr.opcode, Instr.operandA, Instr.operandD,
    usedBitsA, usedBitsD, and_all]

theorem fblive (f : FbUnit) (e : Eye) : Statement (.fblive f e) := by
  cases f <;> cases e <;> exact ⟨rfl, by decide⟩

theorem fbfmt (f : FbUnit) : Statement (.fbfmt f) := by
  cases f <;> exact ⟨rfl, by decide⟩

theorem init : Statement (.init) := by
  exact ⟨rfl, rfl⟩

theorem teardown : Statement (.teardown) := by
  exact ⟨rfl, rfl⟩

end Sys2Proof.Laws.EncodingShape
end

