-- ==== Sys2Proof/Tests/Slice0.lean ====
section
/-! SUPPORT. Tests of the model. Expected results come from the spec: the encodings of 30_encoding.md R303..R305 and
the vectors of 95_test_vectors.md, named in each test's comment. `witness_<Name>` meets every hypothesis of the
obligation of that name together, clause by clause. -/

namespace Sys2Proof.Tests

open Sys2Proof Sys2Proof.Machine

/-! ### Helpers -/

/-- The window with these words, every other word 0. -/
def mem : List (Nat × Word) → Memory
  | [] => []
  | (i, v) :: l => (mem l).setWord i v

/-- The state after reset with these words. -/
def ready (l : List (Nat × Word)) : State := { State.reset with ctx := some (Context.fresh (mem l)) }

/-- The state after reset with no context. -/
def bare : State := { State.reset with ctx := none }

/-- The state after one instruction. -/
def after (i : Instr) (s : State) : State :=
  match exec i s with
  | .next t => t
  | .fault _ => s
  | .refused _ => s

theorem exec_after (i : Instr) (s : State) : exec i s = .next (after i s) := by
  obtain ⟨t, h, -⟩ := exec_case i s
  unfold after
  rw [h]

/-- The response of one instruction. -/
def resp (i : Instr) (s : State) : Option Response := (after i s).response

/-- Word k after one instruction. -/
def wordAfter (i : Instr) (s : State) (k : Nat) : Option Word := (after i s).ctx.map fun c => c.x.word k

/-- The request one instruction emits. -/
def emits (i : Instr) (s : State) : Option Request := (after i s).emitted

/-- Whether a region is Busy after one instruction. -/
def busyAfter (i : Instr) (s : State) (r : Region) : Bool := (after i s).isBusy r

/-- The response of a success with data, and without. -/
def ok (v : Word) : Option Response := some ⟨.ok, some v⟩
def okDone : Option Response := some ⟨.ok, none⟩
def fails (e : ErrorKind) : Option Response := some ⟨.error e, none⟩

/-- FILL0 Busy: the state after V501. -/
def fill0Busy : State := after (.bwrite32 0x001C 0x201) (ready [])

/-- XFER Busy: the state after V702. -/
def xferBusy : State := after (.bwrite32 0x0C18 1) (ready [(0x304, 0x200)])

/-- CMD Busy: the state after V801. -/
def cmdBusy : State := after (.bwrite32 0x18F0 1) (ready [(0x638, 0x100), (0x63A, 0x00400000)])

/-! ### WellFormed -/

theorem test_wellFormed_fget_refuses_0x99 : (Instr.fget 0x99).wellFormed = false := by decide
theorem test_wellFormed_fget_refuses_0x0B : (Instr.fget 0x0B).wellFormed = false := by decide
theorem test_wellFormed_fset_refuses_0x1B : (Instr.fset 0x1B 1).wellFormed = false := by decide
theorem test_wellFormed_fset_refuses_0x63 : (Instr.fset 0x63 1).wellFormed = false := by decide
theorem test_wellFormed_accepts_the_ends :
    ∀ id ∈ ([0x00, 0x0A, 0x10, 0x1A, 0x20, 0x28, 0x30, 0x38, 0x40, 0x53, 0x60, 0x62] : List (BitVec 8)),
      (Instr.fget id).wellFormed = true := by decide

/-! ### Decoding: words written out from 30_encoding.md R303, R304, R305 -/

theorem test_decode_bread8 : decode ⟨0b00000001, 0x1D, 0⟩ = .ok (.bread8 0x1D) := by decide
theorem test_decode_bread16 : decode ⟨0b00000010, 0x1E, 0⟩ = .ok (.bread16 0x1E) := by decide
theorem test_decode_bread32 : decode ⟨0b00000011, 0x1C, 0⟩ = .ok (.bread32 0x1C) := by decide
theorem test_decode_bwrite8 : decode ⟨0b00000101, 0x478, 0xABCDEF01⟩ = .ok (.bwrite8 0x478 0x01) := by decide
theorem test_decode_bwrite16 : decode ⟨0b00000110, 0x1E, 0xABCDEF01⟩ = .ok (.bwrite16 0x1E 0xEF01) := by decide
theorem test_decode_bwrite32 : decode ⟨0b00000111, 0x1C, 0x201⟩ = .ok (.bwrite32 0x1C 0x201) := by decide
theorem test_decode_rread : decode ⟨0b00010000, 0xFFF, 0⟩ = .ok (.rread 0xFFF) := by decide
theorem test_decode_rwrite : decode ⟨0b00010001, 0xFFF, 0xDEADBEEF⟩ = .ok (.rwrite 0xFFF 0xDEADBEEF) := by decide
theorem test_decode_filldone0 : decode ⟨0b00100000, 0, 0⟩ = .ok (.filldone .fill0) := by decide
theorem test_decode_filldone1 : decode ⟨0b00100001, 0, 0⟩ = .ok (.filldone .fill1) := by decide
theorem test_decode_xferdone : decode ⟨0b00100010, 0, 0⟩ = .ok .xferdone := by decide
theorem test_decode_cmddone : decode ⟨0b00100011, 0, 0⟩ = .ok .cmddone := by decide
theorem test_decode_fget : decode ⟨0b00110000, 0x53, 0⟩ = .ok (.fget 0x53) := by decide
theorem test_decode_fset : decode ⟨0b00110001, 0x20, 400⟩ = .ok (.fset 0x20 400) := by decide
theorem test_decode_decaddr : decode ⟨0b01000000, 0, 0x00300000⟩ = .ok (.decaddr 0x00300000) := by decide
theorem test_decode_decfmt : decode ⟨0b01000001, 0, 4⟩ = .ok (.decfmt 4) := by decide
theorem test_decode_fblive_left0 : decode ⟨0b01010000, 0b00, 0⟩ = .ok (.fblive .fb0 .left) := by decide
theorem test_decode_fblive_left1 : decode ⟨0b01010000, 0b01, 0⟩ = .ok (.fblive .fb1 .left) := by decide
theorem test_decode_fblive_right0 : decode ⟨0b01010000, 0b10, 0⟩ = .ok (.fblive .fb0 .right) := by decide
theorem test_decode_fbfmt : decode ⟨0b01010001, 1, 0⟩ = .ok (.fbfmt .fb1) := by decide
theorem test_decode_init : decode ⟨0b11110000, 0, 0⟩ = .ok .init := by decide
theorem test_decode_teardown : decode ⟨0b11110001, 0, 0⟩ = .ok .teardown := by decide

/-- V416, V417, V910: reserved operation codes; V225, V226: reserved fields; V606, V611: nonzero selector bits. -/
theorem test_decode_reserved :
    decode ⟨0x04, 0x1C, 1⟩ = .reject .reservedOp ∧ decode ⟨0x00, 0, 0⟩ = .reject .reservedOp
    ∧ decode ⟨0x24, 0, 0⟩ = .reject .reservedOp ∧ decode ⟨0x30, 0x99, 0⟩ = .reject .reservedField
    ∧ decode ⟨0x30, 0x100, 0⟩ = .reject .reservedField ∧ decode ⟨0x50, 4, 0⟩ = .reject .nonzeroSelector
    ∧ decode ⟨0x51, 2, 0⟩ = .reject .nonzeroSelector := by decide

/-- Fields of R305 at the ends of its ranges. -/
theorem test_field_identifiers :
    FieldId.ofCode 0x0A = some (.fill .fill0 .fill32) ∧ FieldId.ofCode 0x16 = some (.fill .fill1 .value24b)
    ∧ FieldId.ofCode 0x25 = some (.fb .fb0 .activeFb) ∧ FieldId.ofCode 0x38 = some (.fb .fb1 .addressRight2)
    ∧ FieldId.ofCode 0x48 = some (.xfer .convertToTiled) ∧ FieldId.ofCode 0x62 = some (.cmd .trigger) := by decide

/-- The table's numbering: op at bits 7..0, a at 39..8, d at 71..40. -/
theorem test_decodeTableWord :
    decodeTableWord 72 0x000002010000001C07 = some (.bwrite32 0x1C 0x201) ∧ decodeTableWord 8 0x21 = some (.filldone .fill1)
    ∧ decodeTableWord 8 0x04 = none := by decide

theorem test_bytes_of_a_transaction :
    (encode (.bwrite32 0x1C 0x11223344)).toBytes = [0x07, 0x1C, 0, 0, 0, 0x44, 0x33, 0x22, 0x11] := by decide

/-- The very next step runs the word given to withFetchWord. -/
theorem test_withFetchWord_runs_next :
    (match step (State.reset.withFetchWord 72 0xDEADBEEF00000FFF11) with
      | .next t => t.ctx.map fun c => c.x.word 0xFFF
      | .fault _ => none
      | .refused _ => none) = some 0xDEADBEEF := by decide

/-! ### One step each: the vectors of 95_test_vectors.md -/

/-- V401, V402. -/
theorem test_bread8_lane2 : resp (.bread8 2) (ready [(0, 0x11223344)]) = ok 0x22 := by decide
/-- V410. -/
theorem test_bread8_outside : resp (.bread8 0x4000) (ready []) = fails (.outOfRange 0x4000) := by decide
/-- V403. -/
theorem test_bread16_upper : resp (.bread16 2) (ready [(0, 0x11223344)]) = ok 0x1122 := by decide
/-- V407. -/
theorem test_bread16_misaligned : resp (.bread16 1) (ready []) = fails (.misalignedAccess 1) := by decide
/-- V415. -/
theorem test_bread32_last : resp (.bread32 0x3FFC) (ready [(0xFFF, 0xCAFEF00D)]) = ok 0xCAFEF00D := by decide
/-- V413: range before alignment. -/
theorem test_bread32_range_first : resp (.bread32 0x4001) (ready []) = fails (.outOfRange 0x4001) := by decide
/-- V404. -/
theorem test_bwrite8_merges : wordAfter (.bwrite8 1 0xAB) (ready [(0, 0x11223344)]) 0 = some 0x1122AB44 := by decide
/-- V510: lane 1 of a control word is no trigger. -/
theorem test_bwrite8_other_lane : resp (.bwrite8 0x1D 1) fill0Busy = okDone := by decide
/-- V405. -/
theorem test_bwrite16_merges : wordAfter (.bwrite16 2 0xBEEF) (ready [(0, 0x1122AB44)]) 0 = some 0xBEEFAB44 := by decide
/-- V902: misaligned, nothing stored. -/
theorem test_bwrite16_misaligned : wordAfter (.bwrite16 0x1D 1) (ready [(7, 0x200)]) 7 = some 0x200 := by decide
/-- V514: the request holds decoded addresses. -/
theorem test_bwrite32_fill_request :
    emits (.bwrite32 0x1C 0x201) (ready [(4, 0x00300000), (5, 0x00300800)])
      = some (.fill ⟨.fill0, 0x01800000, 0x01804000, .m32, .v32 0⟩) := by decide
/-- V509: Busy is checked before the mode. -/
theorem test_bwrite32_busy_before_mode :
    resp (.bwrite32 0x1C 0x301) fill0Busy = fails (.operationAlreadyInProgress .fill0) := by decide
/-- V502, V503: the order of a 24-bit value. -/
theorem test_fill24_order :
    emits (.bwrite32 0x1C 0x101) (ready [(6, 0x00CCBBAA)]) = some (.fill ⟨.fill0, 0, 0, .m24, .rgb 0xAA 0xBB 0xCC⟩)
    ∧ emits (.bwrite32 0x1C 0x101)
        { ready [(6, 0x00CCBBAA)] with params := { Params.spec with fill24Order := .bgrLowFirst } }
      = some (.fill ⟨.fill0, 0, 0, .m24, .rgb 0xCC 0xBB 0xAA⟩) := by decide
/-- V504, V505, V506. -/
theorem test_fill_mode :
    resp (.bwrite32 0x1C 0x301) (ready []) = fails (.invalidFillMode .fill0 1 1)
    ∧ resp (.bwrite32 0x1C 1) (ready []) = fails (.invalidFillMode .fill0 0 0)
    ∧ emits (.bwrite32 0x1C 1)
        { ready [(6, 0x12345678)] with params := { Params.spec with fillNeitherIs16bit := true } }
      = some (.fill ⟨.fill0, 0, 0, .m16, .v16 0x5678⟩) := by decide
/-- V701: the line sizes of a texture copy. -/
theorem test_texture_copy :
    (match emits (.bwrite32 0xC18 1) (ready [(0x304, 0x8), (0x309, 0x00020010), (0x30A, 0x10)]) with
      | some (.xfer q) => q.copy
      | _ => none) = some ⟨0, 256, 32, 288, 256, 0, 256⟩ := by decide
/-- V702: the two formats. -/
theorem test_transfer_formats :
    (match emits (.bwrite32 0xC18 1) (ready [(0x304, 0x200)]) with
      | some (.xfer q) => some (q.inFmt, q.outFmt, q.copy)
      | _ => none) = some (some .rgb565, some .rgba8, none) := by decide
/-- V705: the input code is checked first. -/
theorem test_transfer_bad_format :
    resp (.bwrite32 0xC18 1) (ready [(0x304, 0x6700)]) = fails (.invalidFormatCode 7) := by decide
/-- V707, V708: the test is on the value written, at any lane. -/
theorem test_transfer_byte_trigger :
    busyAfter (.bwrite8 0xC1B 0x80) (ready []) .xfer = true
    ∧ busyAfter (.bwrite8 0xC18 0) (ready [(0x306, 0x100)]) .xfer = false := by decide
/-- V803: both numbers wrap. -/
theorem test_command_request :
    emits (.bwrite32 0x18F0 1) (ready [(0x638, 0x20000001), (0x63A, 0xFFFFFFFF)]) = some (.cmd ⟨0xFFFFFFF8, 8⟩) := by
  decide
/-- V804: lane 1 is no trigger. -/
theorem test_command_other_lane : busyAfter (.bwrite8 0x18F1 1) (ready []) .cmd = false := by decide
/-- E9. -/
theorem test_rread_outside : resp (.rread 0x1000) (ready []) = fails (.outOfRange 0x1000) := by decide
/-- V102. -/
theorem test_rread_last : resp (.rread 0xFFF) (ready [(0xFFF, 0xDEADBEEF)]) = ok 0xDEADBEEF := by decide
/-- V105: no dispatch. -/
theorem test_rwrite_never_dispatches :
    wordAfter (.rwrite 7 0x201) (ready []) 7 = some 0x201 ∧ busyAfter (.rwrite 7 0x201) (ready []) .fill0 = false := by
  decide
/-- V104. -/
theorem test_rwrite_outside : resp (.rwrite 0xFFFFFFFF 1) (ready []) = fails (.outOfRange 0xFFFFFFFF) := by decide
/-- V511. -/
theorem test_filldone_busy :
    wordAfter (.filldone .fill0) fill0Busy 7 = some 0x202 ∧ busyAfter (.filldone .fill0) fill0Busy .fill0 = false := by
  decide
/-- V512. -/
theorem test_filldone_idle : resp (.filldone .fill0) (ready []) = fails (.invalidTransaction 0x20) := by decide
/-- V710. -/
theorem test_xferdone_busy : wordAfter .xferdone xferBusy 0x306 = some 0 := by decide
/-- V711. -/
theorem test_xferdone_idle : resp .xferdone (ready []) = fails (.invalidTransaction 0x22) := by decide
/-- V805. -/
theorem test_cmddone_keeps_other_bits :
    wordAfter .cmddone (after (.bwrite32 0x18F0 3) (ready [])) 0x63C = some 2 := by decide
/-- V808. -/
theorem test_cmddone_idle : resp .cmddone (ready []) = fails (.invalidTransaction 0x23) := by decide
/-- V220. -/
theorem test_fget_finished : resp (.fget 0x08) (ready [(7, 0x202)]) = ok 1 := by decide
/-- V229. -/
theorem test_fget_value24b : resp (.fget 0x16) (ready [(0xA, 0x00CCBBAA)]) = ok 0xCC := by decide
/-- V222. -/
theorem test_fset_height : wordAfter (.fset 0x21 240) (ready []) 0x117 = some 0x00F00000 := by decide
/-- V223. -/
theorem test_fset_overflow : resp (.fset 0x24 8) (ready []) = fails (.fieldOverflow 8 3) := by decide
/-- E2, V303. -/
theorem test_decaddr_wraps :
    resp (.decaddr 0xFFFFFFFF) (ready []) = ok 0xFFFFFFF8 ∧ resp (.decaddr 0x20000000) (ready []) = ok 0 := by decide
/-- E10. -/
theorem test_decaddr_times_eight : resp (.decaddr 0x00300000) (ready []) = ok 0x01800000 := by decide
/-- E3. -/
theorem test_decfmt_last : resp (.decfmt 4) (ready []) = ok 4 := by decide
/-- E4, V306: no truncation to 3 bits. -/
theorem test_decfmt_invalid :
    resp (.decfmt 5) (ready []) = fails (.invalidFormatCode 5) ∧ resp (.decfmt 8) (ready []) = fails (.invalidFormatCode 8) := by
  decide
/-- V601, V602. -/
theorem test_fblive_right :
    resp (.fblive .fb0 .right) (ready [(0x125, 0x00380000), (0x126, 0x003C0000)]) = ok 0x01C00000
    ∧ resp (.fblive .fb0 .right) (ready [(0x11E, 1), (0x125, 0x00380000), (0x126, 0x003C0000)]) = ok 0x01E00000 := by
  decide
/-- V603: bit 0 alone selects. -/
theorem test_fblive_bit_zero :
    resp (.fblive .fb0 .left) (ready [(0x11E, 2), (0x11A, 0x00300000), (0x11B, 0x00340000)]) = ok 0x01800000 := by decide
/-- V609. -/
theorem test_fbfmt_low_bits : resp (.fbfmt .fb0) (ready [(0x11C, 0x0C)]) = ok 4 := by decide
/-- V608. -/
theorem test_fbfmt_invalid : resp (.fbfmt .fb0) (ready [(0x11C, 5)]) = fails (.invalidFormatCode 5) := by decide
/-- V909: INIT_WORDS with a trigger bit start nothing. -/
theorem test_init_keeps_the_words :
    wordAfter .init { bare with initWords := mem [(7, 0x201)] } 7 = some 0x201
    ∧ busyAfter .init { bare with initWords := mem [(7, 0x201)] } .fill0 = false := by decide
/-- V908: FB0 at offset 0x118. -/
theorem test_init_layout_violation :
    resp .init { bare with params := { Params.spec with
        layout := { Layout.spec with regions := { RegionTable.spec with fb0 := ⟨0x118, 64⟩ } } } }
      = fails .layoutViolation := by decide
/-- V907. -/
theorem test_teardown_idle : (after .teardown (ready [])).ctx = none ∧ resp .teardown (ready []) = okDone := by decide
/-- V904. -/
theorem test_teardown_busy : resp .teardown fill0Busy = fails (.invalidTransaction 0xF1) := by decide
/-- V905. -/
theorem test_no_context_refuses : resp (.rread 0) bare = fails (.invalidTransaction 0x10) := by decide
/-- V206, V207, V208, V209. -/
theorem test_insert :
    insertField 0xFFFFFFFF 8 3 0 = .ok 0xFFFFF8FF ∧ insertField 0 24 2 3 = .ok 0x03000000
    ∧ insertField 0 24 2 4 = .error (.fieldOverflow 4 2) ∧ insertField 0x12345678 0 32 0xCAFEBABE = .ok 0xCAFEBABE :=
  ⟨rfl, rfl, rfl, rfl⟩
/-- 30_encoding.md R331: the expansion of FBSWAP and the control word of FILL. -/
theorem test_pseudo_expansions :
    expand (.fbswap .fb1 true) = [.bwrite32 0x578 1]
    ∧ (expand (.fill32 .fill1 1 2 3)).getLast? = some (.bwrite32 0x2C 0x201) := by decide

/-! ### Witnesses: concrete states and operands that meet every hypothesis of an obligation together -/

/-- The context of a state that has one. -/
def theCtx (s : State) : Context := s.ctx.getD (Context.fresh [])

/-- Every asynchronous region Busy. -/
def allBusy : State :=
  after (.bwrite32 0x18F0 1) (after (.bwrite32 0xC18 1) (after (.bwrite32 0x2C 0x101) fill0Busy))

theorem witness_EncodeThenDecodeIsIdentity :
    (Instr.fset 0x62 0xFFFFFFFF).wellFormed = true ∧ (Instr.fget 0x0A).wellFormed = true
    ∧ (Instr.bwrite8 0xFFFFFFFF 0xFF).wellFormed = true := by decide

/-- With bits set where R303 calls the operand ignored. -/
theorem witness_DecodedTransactionIsItsCanonicalEncoding :
    decode ⟨0x22, 0xFFFFFFFF, 0xFFFFFFFF⟩ = .ok .xferdone
    ∧ decode ⟨0x05, 0xFFFFFFFF, 0xFFFFFFFF⟩ = .ok (.bwrite8 0xFFFFFFFF 0xFF) := by decide

/-- The four kinds of reserved encoding, each at its bound. -/
theorem witness_ReservedEncodingIsRefused :
    (∀ op ∈ ([0x00, 0x04, 0x24, 0xF2, 0xFF] : List (BitVec 8)), op ∉ ([0x01, 0x02, 0x03, 0x05, 0x06, 0x07, 0x10, 0x11, 0x20,
        0x21, 0x22, 0x23, 0x30, 0x31, 0x40, 0x41, 0x50, 0x51, 0xF0, 0xF1] : List (BitVec 8)))
    ∧ 0x100 ≤ (0x100 : Word).toNat ∧ listedFieldCode ((0x0B : Word).setWidth 8) = false
    ∧ 4 ≤ (4 : Word).toNat ∧ 2 ≤ (2 : Word).toNat
    ∧ ((ready []).present ⟨0x04, 0, 0⟩).pending = [⟨0x04, 0, 0⟩] := by decide

theorem witness_StepRunsTheDecodedInstruction :
    ((ready []).present ⟨0x10, 7, 0⟩).pending = [⟨0x10, 7, 0⟩] ∧ decode ⟨0x10, 7, 0⟩ = .ok (.rread 7)
    ∧ (ready []).pending = [] := by decide

theorem witness_ErrorsDoNotAffectLaterTransactions : ((ready []).present ⟨0x10, 7, 0⟩).pending ≠ [] := by decide

/-- A state with FILL0 Busy over words that are not 0 meets the invariant. -/
def fill0BusyContext : Context :=
  { Context.fresh [(0x1C, 1), (0x1D, 2)] with fill0 := .busy ⟨.fill0, 0, 0, .m32, .v32 0⟩ }

theorem witness_fill0BusyContext_inv : fill0BusyContext.Inv where
  window := by decide
  fill0 := ⟨rfl, rfl, rfl, 0, rfl⟩
  fill1 := trivial
  xfer := trivial
  cmd := trivial

theorem witness_StepKeepsTheInvariant :
    ∃ s s' : State, s.Inv ∧ step s = .next s' ∧ s.ctx = some fill0BusyContext ∧ s.pending = [⟨0x20, 0, 0⟩] := by
  let s : State := { State.reset with ctx := some fill0BusyContext, pending := [⟨0x20, 0, 0⟩] }
  obtain ⟨s', h⟩ := step_total s
  refine ⟨s, s', ⟨⟨List.Pairwise.nil, by simp [s, State.reset]⟩, fun _ => by decide +kernel, ?_⟩, h, rfl, rfl⟩
  intro c hc
  cases hc
  exact witness_fill0BusyContext_inv

theorem witness_StepKeepsTheParameters : ∃ s', step ((ready []).present ⟨0x11, 0, 1⟩) = .next s' := step_total _

/-- A fill and a transfer that go Busy, and a region that goes Idle. -/
theorem witness_OperationStateMovesOnlyOnTriggerAndCompletion :
    (∃ s s' c c', s.ctx = some c ∧ exec (.bwrite32 0x1C 0x201) s = .next s' ∧ s'.ctx = some c'
      ∧ c.isBusy .fill0 = false ∧ c'.isBusy .fill0 = true)
    ∧ (∃ s s' c c', s.ctx = some c ∧ exec (.bwrite8 0xC1B 0x80) s = .next s' ∧ s'.ctx = some c'
      ∧ c.isBusy .xfer = false ∧ c'.isBusy .xfer = true)
    ∧ ∃ s s' c c', s.ctx = some c ∧ exec (.filldone .fill0) s = .next s' ∧ s'.ctx = some c'
      ∧ c.isBusy .fill0 = true ∧ c'.isBusy .fill0 = false :=
  ⟨⟨ready [], _, theCtx (ready []), theCtx fill0Busy, rfl, exec_after _ _, by decide, by decide, by decide⟩,
   ⟨ready [], _, theCtx (ready []), theCtx (after (.bwrite8 0xC1B 0x80) (ready [])), rfl, exec_after _ _, by decide,
    by decide, by decide⟩,
   ⟨fill0Busy, _, theCtx fill0Busy, theCtx (after (.filldone .fill0) fill0Busy), by decide, exec_after _ _, by decide,
    by decide, by decide⟩⟩

/-- A start, and a step without a context. -/
theorem witness_EmissionIsOneRequestPerStart :
    (∃ s s' c c', exec (.bwrite32 0x1C 0x201) s = .next s' ∧ s.ctx = some c ∧ s'.ctx = some c' ∧ s'.emitted.isSome = true)
    ∧ ∃ s s', exec (.rread 0) s = .next s' ∧ s.ctx = none :=
  ⟨⟨ready [], _, theCtx (ready []), theCtx fill0Busy, exec_after _ _, rfl, by decide, by decide⟩,
   ⟨bare, _, exec_after _ _, rfl⟩⟩

theorem witness_HeldRequestIsASnapshot :
    ∃ s s' c q, s.ctx = some c ∧ c.held .fill0 = some q ∧ exec (.bwrite32 0x18 0xFFFFFFFF) s = .next s' :=
  ⟨fill0Busy, _, theCtx fill0Busy, .fill ⟨.fill0, 0, 0, .m32, .v32 0⟩, by decide, by decide, exec_after _ _⟩

theorem witness_ReadsHaveNoSideEffects : ∃ s', isReadInstr (.bread8 0x1C) = true ∧ exec (.bread8 0x1C) fill0Busy = .next s' :=
  ⟨_, rfl, exec_after _ _⟩

/-- An execution that starts with FILL0 Busy and its completion presented, then rests. -/
def restingExecution : Nat → State
  | 0 => fill0Busy.present ⟨0x20, 0, 0⟩
  | _ + 1 => after (.filldone .fill0) { fill0Busy with position := fill0Busy.position + 1 }

theorem restingExecution_completes : Completes restingExecution .fill0 0 :=
  ⟨⟨⟨0x20, 0, 0⟩, [], by decide, by decide⟩, exec_after (.filldone .fill0) { fill0Busy with position := fill0Busy.position + 1 }⟩

theorem witness_EveryStartedOperationCompletes :
    IsExecution restingExecution ∧ CompletionFair restingExecution .fill0 ∧ (restingExecution 0).isBusy .fill0 = true := by
  refine ⟨fun n => ?_, fun n h => ?_, by decide⟩
  · cases n with
    | zero => exact .perform restingExecution_completes.2
    | succ n => exact .perform (step_nil (s := restingExecution (n + 1)) (by show (restingExecution 1).pending = []; decide))
  · have h1 := h (n + 1) (by omega)
    have h2 : (restingExecution 1).isBusy .fill0 = false := by decide
    exact absurd (h1.symm.trans h2) (by decide)

theorem witness_CompletionOfABusyRegionSucceeds :
    allBusy.ctx = some (theCtx allBusy) ∧ (theCtx allBusy).isBusy .fill0 = true ∧ (theCtx allBusy).isBusy .fill1 = true
    ∧ (theCtx allBusy).isBusy .xfer = true ∧ (theCtx allBusy).isBusy .cmd = true := by decide

theorem witness_RawReadReturnsTheWord :
    (ready []).ctx = some (theCtx (ready [])) ∧ (0xFFF : Word).toNat < 4096 ∧ 4096 ≤ (0x1000 : Word).toNat := by decide

theorem witness_RawWriteStoresTheWord :
    (ready []).ctx = some (theCtx (ready [])) ∧ (0xFFF : Word).toNat < 4096 ∧ 4096 ≤ (0x1000 : Word).toNat := by decide

theorem witness_RawReadAfterRawWriteReturnsTheValue :
    ∃ (s s1 s2 : State) (c c1 c2 : Context), (0xFFF : Word).toNat < 4096 ∧ s.ctx = some c ∧ exec (.rwrite 0xFFF 5) s = .next s1
      ∧ s1.ctx = some c1 ∧ s2.ctx = some c2 ∧ c2.x.word (0xFFF : Word).toNat = c1.x.word (0xFFF : Word).toNat :=
  ⟨ready [], _, after (.rwrite 3 9) (after (.rwrite 0xFFF 5) (ready [])), theCtx (ready []),
   theCtx (after (.rwrite 0xFFF 5) (ready [])), theCtx (after (.rwrite 3 9) (after (.rwrite 0xFFF 5) (ready []))),
   by decide, rfl, exec_after _ _, by decide, by decide, by decide⟩

/-- One of each kind, with a reply that is an error. -/
theorem witness_RawAndFieldWritesNeverDispatch :
    ∃ s s' s'' c, s.ctx = some c ∧ exec (.rwrite 0x1000 1) s = .next s' ∧ s'.response = fails (.outOfRange 0x1000)
      ∧ exec (.fset 0x24 8) s = .next s'' ∧ s''.response = fails (.fieldOverflow 8 3) :=
  ⟨ready [], _, _, theCtx (ready []), rfl, exec_after _ _, by decide, exec_after _ _, by decide⟩

/-- The widest and the highest field, with two that touch. -/
theorem witness_PackedFieldLaws :
    (1 ≤ 32 ∧ 0 + 32 ≤ 32 ∧ (0xFFFFFFFF : Word).toNat < 2 ^ 32)
    ∧ 1 ≤ 1 ∧ 31 + 1 ≤ 32 ∧ (1 : Word).toNat < 2 ^ 1 ∧ 1 ≤ 31 ∧ 0 + 31 ≤ 32 ∧ (31 + 1 ≤ 0 ∨ 0 + 31 ≤ 31) := by decide

/-- A value of 8 for 3 bits; a bus write over the trigger, a read, and a raw write. -/
theorem witness_FieldOverflowOnlyFromInsert :
    2 ^ 3 ≤ (8 : Word).toNat ∧ (ready []).ctx = some (theCtx (ready [])) ∧ FieldId.ofCode 0x24 = some (.fb .fb0 .colorFormat)
    ∧ 2 ^ (fieldPos (ready []).params (.fb .fb0 .colorFormat)).width ≤ (8 : Word).toNat
    ∧ (∀ id v, Instr.bwrite8 0x1C 0xFF ≠ .fset id v) ∧ (∃ s', exec (.bwrite8 0x1C 0xFF) (ready []) = .next s')
    ∧ (∀ id v, Instr.fget 0x24 ≠ .fset id v) ∧ (∃ s', exec (.fget 0x24) (ready []) = .next s')
    ∧ (∀ id v, Instr.rwrite 0x11C 8 ≠ .fset id v) ∧ ∃ s', exec (.rwrite 0x11C 8) (ready []) = .next s' :=
  ⟨by decide, rfl, by decide, by decide, by simp, ⟨_, exec_after _ _⟩, by simp, ⟨_, exec_after _ _⟩, by simp, _,
   exec_after _ _⟩

/-- The first and the last row of R305, and an identifier next to the last. -/
theorem witness_FieldReadReturnsTheFieldsBits :
    (ready []).ctx = some (theCtx (ready [])) ∧ FieldId.ofCode 0x62 = some (.cmd .trigger)
    ∧ layoutOk (ready []).params = true ∧ (ready []).params.layout = Layout.spec
    ∧ ⟨0x62, .cmd .trigger, ⟨0x63C, 0, 1⟩⟩
        ∈ fieldTable (ready []).params.fill24Order (ready []).params.convertToTiledBit
    ∧ ⟨0x00, .fill .fill0 .addressStart, ⟨0x004, 0, 32⟩⟩
        ∈ fieldTable (ready []).params.fill24Order (ready []).params.convertToTiledBit
    ∧ listedFieldCode 0x62 = true ∧ listedFieldCode 0x63 = false := by decide +kernel

/-- The largest value of a 3-bit field, the same field by its row, and an identifier next to the rows of FILL1. -/
theorem witness_FieldWriteSetsOnlyTheFieldsBits :
    (ready []).ctx = some (theCtx (ready [])) ∧ FieldId.ofCode 0x24 = some (.fb .fb0 .colorFormat)
    ∧ layoutOk (ready []).params = true ∧ (ready []).params.layout = Layout.spec
    ∧ (7 : Word).toNat < 2 ^ (fieldPos (ready []).params (.fb .fb0 .colorFormat)).width
    ∧ ⟨0x24, .fb .fb0 .colorFormat, ⟨0x11C, 0, 3⟩⟩
        ∈ fieldTable (ready []).params.fill24Order (ready []).params.convertToTiledBit
    ∧ (7 : Word).toNat < 2 ^ 3 ∧ listedFieldCode 0x1B = false := by decide +kernel

theorem witness_AddressDecoderMultipliesByEight : (ready []).ctx = some (theCtx (ready [])) := rfl

theorem witness_FormatDecoderLooksUpTheTable :
    (ready []).ctx = some (theCtx (ready [])) ∧ (4 : Word).toNat < 5 ∧ 5 ≤ (5 : Word).toNat := by decide

theorem witness_DecodersArePure : (ready []).ctx = some (theCtx (ready [])) := rfl

theorem witness_EncodedAddressesDecodeBack :
    (0xFFFFFFF8 : Word).toNat % 8 = 0 ∧ 2 ^ 29 ≤ (0x20000000 : Word).toNat := by decide

/-- The last address of each width. -/
theorem witness_BusReadsReturnTheLanes :
    (ready []).ctx = some (theCtx (ready [])) ∧ (0x3FFF : Word).toNat < 0x4000 ∧ (0x3FFE : Word).toNat < 0x4000
    ∧ (0x3FFE : Word).toNat % 2 = 0 ∧ (0x3FFC : Word).toNat < 0x4000 ∧ (0x3FFC : Word).toNat % 4 = 0 := by decide

theorem witness_OutsideTheWindowIsOutOfRange :
    (ready []).ctx = some (theCtx (ready [])) ∧ 4096 ≤ (0x4000 : Word).toNat / 4 ∧ 4096 ≤ (0x1000 : Word).toNat := by decide

theorem witness_MisalignedAccessIsNotPerformed :
    (ready []).ctx = some (theCtx (ready [])) ∧ (0x3FFF : Word).toNat < 0x4000 ∧ (0x3FFF : Word).toNat % 2 ≠ 0
    ∧ (0x3FFE : Word).toNat < 0x4000 ∧ (0x3FFE : Word).toNat % 4 ≠ 0 := by decide

theorem witness_BusWritesStoreBeforeInspection :
    (ready []).ctx = some (theCtx (ready [])) ∧ (0x3FFE : Word).toNat < 0x4000
    ∧ (0x3FFE : Word).toNat % widthBytes .w16 = 0 := by decide

/-- Lane 1 of the control word of FILL0. -/
theorem witness_WritesCoveringNoTriggerOnlyStore :
    (ready []).ctx = some (theCtx (ready [])) ∧ (0x1D : Word).toNat < 0x4000 ∧ (0x1D : Word).toNat % widthBytes .w8 = 0
    ∧ ∀ r, (fieldPos (ready []).params (triggerField r)).word = (0x1D : Word).toNat / 4 →
        laneMask 0x1D .w8 &&& fieldMask (fieldPos (ready []).params (triggerField r)) = 0 := by
  refine ⟨rfl, by decide, by decide, fun r => ?_⟩
  cases r <;> decide

/-- The words next to each bound. -/
theorem witness_FramebufferAndPaddingWritesOnlyStore :
    layoutOk (ready []).params = true ∧ (ready []).ctx = some (theCtx (ready []))
    ∧ ([0x000C, 0x0030, 0x0BFC, 0x0C2C, 0x18DC, 0x18F4, 0x3FFC, 0x0478] : List Word).all (fun a =>
        decide (a.toNat < 0x4000 ∧ a.toNat % widthBytes .w32 = 0
          ∧ (a.toNat / 4 < 0x004 ∨ (0x00C ≤ a.toNat / 4 ∧ a.toNat / 4 < 0x300)
            ∨ (0x30B ≤ a.toNat / 4 ∧ a.toNat / 4 < 0x638) ∨ 0x63D ≤ a.toNat / 4))) = true := by decide +kernel

theorem witness_MixedWidthView :
    (∃ s s' c c', s.ctx = some c ∧ (0x3FFC : Word).toNat < 0x4000 ∧ (0x3FFC : Word).toNat % 4 = 0
      ∧ exec (.bwrite32 0x3FFC 0x11223344) s = .next s' ∧ s'.ctx = some c' ∧ 3 < 4 ∧ 1 < 2)
    ∧ ∃ s s' c c', s.ctx = some c ∧ (0x3FFC : Word).toNat < 0x4000 ∧ (0x3FFC : Word).toNat % 4 = 0 ∧ 3 < 4
      ∧ exec (.bwrite8 (0x3FFC + BitVec.ofNat 32 3) 0xAB) s = .next s' ∧ s'.ctx = some c' :=
  ⟨⟨ready [], _, theCtx (ready []), theCtx (after (.bwrite32 0x3FFC 0x11223344) (ready [])), rfl, by decide, by decide,
    exec_after _ _, by decide, by decide, by decide⟩,
   ⟨ready [], _, theCtx (ready []), theCtx (after (.bwrite8 (0x3FFC + BitVec.ofNat 32 3) 0xAB) (ready [])), rfl,
    by decide, by decide, by decide, exec_after _ _, by decide⟩⟩

/-- The word after a write of a fill control word that was 0. -/
def fillStore (u : FillUnit) (w : Width) (a v : Word) (x : Memory) : Memory :=
  x.setWord (fillBase u + 3) (storedLanes w (x.word (fillBase u + 3)) a v)

/-- Each mode, the byte write with the mode already in the word among them. -/
theorem witness_FillTriggerStartsTheFill :
    (ready [(7, 0x200)]).params.layout = Layout.spec ∧ (ready [(7, 0x200)]).ctx = some (theCtx (ready [(7, 0x200)]))
    ∧ (theCtx (ready [(7, 0x200)])).fillOp .fill0 = .idle ∧ (0x1C : Word).toNat = 4 * (fillBase .fill0 + 3)
    ∧ (1 : Word).getLsbD 0 = true
    ∧ ((fillStore .fill0 .w8 0x1C 1 (mem [(7, 0x200)])).word (fillBase .fill0 + 3)).getLsbD 8 = false
    ∧ ((fillStore .fill0 .w8 0x1C 1 (mem [(7, 0x200)])).word (fillBase .fill0 + 3)).getLsbD 9 = true
    ∧ ((fillStore .fill0 .w32 0x1C 0x101 (mem [])).word (fillBase .fill0 + 3)).getLsbD 8 = true
    ∧ ((fillStore .fill0 .w32 0x1C 0x101 (mem [])).word (fillBase .fill0 + 3)).getLsbD 9 = false
    ∧ ((fillStore .fill0 .w16 0x1C 1 (mem [])).word (fillBase .fill0 + 3)).getLsbD 8 = false
    ∧ ((fillStore .fill0 .w16 0x1C 1 (mem [])).word (fillBase .fill0 + 3)).getLsbD 9 = false
    ∧ ({ Params.spec with fillNeitherIs16bit := true } : Params).fillNeitherIs16bit = true
    ∧ ({ Params.spec with fillNeitherIs16bit := true } : Params).layout = Layout.spec := by decide

theorem witness_FillRetriggerWhileBusyIsRejected :
    fill0Busy.params.layout = Layout.spec ∧ fill0Busy.ctx = some (theCtx fill0Busy)
    ∧ (theCtx fill0Busy).fillOp .fill0 = .busy ⟨.fill0, 0, 0, .m32, .v32 0⟩
    ∧ (0x1C : Word).toNat = 4 * (fillBase .fill0 + 3) ∧ (0x301 : Word).getLsbD 0 = true := by decide

/-- Both mode bits, and neither. -/
theorem witness_InvalidFillModeIsReported :
    (ready []).params.layout = Layout.spec ∧ (ready []).ctx = some (theCtx (ready []))
    ∧ (theCtx (ready [])).fillOp .fill1 = .idle ∧ (0x2C : Word).toNat = 4 * (fillBase .fill1 + 3)
    ∧ (0x301 : Word).getLsbD 0 = true
    ∧ ((fillStore .fill1 .w32 0x2C 0x301 (mem [])).word (fillBase .fill1 + 3)).getLsbD 8 = true
    ∧ ((fillStore .fill1 .w32 0x2C 0x301 (mem [])).word (fillBase .fill1 + 3)).getLsbD 9 = true
    ∧ ((fillStore .fill1 .w32 0x2C 1 (mem [])).word (fillBase .fill1 + 3)).getLsbD 8 = false
    ∧ ((fillStore .fill1 .w32 0x2C 1 (mem [])).word (fillBase .fill1 + 3)).getLsbD 9 = false
    ∧ (ready []).params.fillNeitherIs16bit = false := by decide

theorem witness_FillWriteOfZeroTriggerOnlyStores :
    fill0Busy.params.layout = Layout.spec ∧ fill0Busy.ctx = some (theCtx fill0Busy)
    ∧ (0x1C : Word).toNat = 4 * (fillBase .fill0 + 3) ∧ (0xFFFFFFFE : Word).getLsbD 0 = false := by decide

theorem witness_FillCompletionSetsFinishedAndClearsTrigger :
    fill0Busy.params.layout = Layout.spec ∧ fill0Busy.ctx = some (theCtx fill0Busy) ∧ (theCtx fill0Busy).x.wf
    ∧ (theCtx fill0Busy).fillOp .fill0 = .busy ⟨.fill0, 0, 0, .m32, .v32 0⟩
    ∧ (theCtx fill0Busy).fillOp .fill1 = .idle := by decide

theorem witness_FillCompletionIsOneUpdate :
    layoutOk fill0Busy.params = true ∧ fill0Busy.ctx = some (theCtx fill0Busy)
    ∧ (theCtx fill0Busy).fillOp .fill0 = .busy ⟨.fill0, 0, 0, .m32, .v32 0⟩ := by decide +kernel

/-- Two states that differ in FILL1 only; a bus write and a completion of FILL0. -/
theorem witness_FillUnitsAreIndependent :
    ∃ s t s' t' s'' t'' c d c' d' c'' d'', FillUnit.fill1 ≠ .fill0 ∧ layoutOk s.params = true ∧ t.params = s.params
      ∧ s.ctx = some c ∧ t.ctx = some d
      ∧ (fillBase .fill0 ≤ (0x1C : Word).toNat / 4 ∧ (0x1C : Word).toNat / 4 < fillBase .fill0 + 4)
      ∧ (∀ k, fillBase .fill0 ≤ k → k < fillBase .fill0 + 4 → d.x.word k = c.x.word k)
      ∧ d.fillOp .fill0 = c.fillOp .fill0
      ∧ exec (busWriteOf .w32 0x1C 0x201) s = .next s' ∧ exec (busWriteOf .w32 0x1C 0x201) t = .next t'
      ∧ s'.ctx = some c' ∧ t'.ctx = some d'
      ∧ exec (.filldone .fill0) s = .next s'' ∧ exec (.filldone .fill0) t = .next t''
      ∧ s''.ctx = some c'' ∧ t''.ctx = some d'' := by
  refine ⟨fill0Busy, after (.bwrite32 0x2C 0x101) fill0Busy, _, _, _, _, theCtx fill0Busy,
    theCtx (after (.bwrite32 0x2C 0x101) fill0Busy),
    theCtx (after (busWriteOf .w32 0x1C 0x201) fill0Busy),
    theCtx (after (busWriteOf .w32 0x1C 0x201) (after (.bwrite32 0x2C 0x101) fill0Busy)),
    theCtx (after (.filldone .fill0) fill0Busy),
    theCtx (after (.filldone .fill0) (after (.bwrite32 0x2C 0x101) fill0Busy)),
    by decide, by decide +kernel, by decide, by decide, by decide, by decide, fun k h1 h2 => ?_, by decide, exec_after _ _,
    exec_after _ _, by decide, by decide, exec_after _ _, exec_after _ _, by decide, by decide⟩
  have hk : k = 4 ∨ k = 5 ∨ k = 6 ∨ k = 7 := by
    simp only [fillBase] at h1 h2
    omega
  rcases hk with rfl | rfl | rfl | rfl <;> decide

/-- active_fb 0 and active_fb 1. -/
theorem witness_LiveAddressFollowsActiveFb :
    (ready [(0x15E, 1)]).params.layout = Layout.spec ∧ (ready [(0x15E, 1)]).ctx = some (theCtx (ready [(0x15E, 1)]))
    ∧ ((theCtx (ready [(0x15E, 1)])).x.word (fbBase .fb0 + 0x07)).getLsbD 0 = false
    ∧ ((theCtx (ready [(0x15E, 1)])).x.word (fbBase .fb1 + 0x07)).getLsbD 0 = true := by decide

theorem witness_FramebufferFormatIsTheLowThreeBits :
    (ready [(0x11C, 0xC), (0x15C, 5)]).params.layout = Layout.spec
    ∧ (ready [(0x11C, 0xC), (0x15C, 5)]).ctx = some (theCtx (ready [(0x11C, 0xC), (0x15C, 5)]))
    ∧ ((theCtx (ready [(0x11C, 0xC), (0x15C, 5)])).x.word (fbBase .fb0 + 0x05)).toNat % 8 < 5
    ∧ 5 ≤ ((theCtx (ready [(0x11C, 0xC), (0x15C, 5)])).x.word (fbBase .fb1 + 0x05)).toNat % 8 := by decide

/-- A byte write of lane 0, one of lane 3, and a word write. -/
theorem witness_FramebufferSwapIsImmediate :
    (ready []).params.layout = Layout.spec ∧ (ready []).ctx = some (theCtx (ready []))
    ∧ (0x478 : Word).toNat / 4 = fbBase .fb0 + 0x07 ∧ (0x478 : Word).toNat % widthBytes .w8 = 0
    ∧ (0x47B : Word).toNat / 4 = fbBase .fb0 + 0x07 ∧ (0x47B : Word).toNat % widthBytes .w8 = 0
    ∧ (0x578 : Word).toNat / 4 = fbBase .fb1 + 0x07 ∧ (0x578 : Word).toNat % widthBytes .w32 = 0 := by decide

/-- Two contexts that agree on the words of FB0 and not on others. -/
theorem witness_FramebufferUnitsAreIndependent :
    ∃ s t s' t' s'' t'' c d, layoutOk s.params = true ∧ t.params = s.params ∧ s.ctx = some c ∧ t.ctx = some d
      ∧ (∀ k, fbBase .fb0 ≤ k → k < fbBase .fb0 + 64 → d.x.word k = c.x.word k) ∧ d.x ≠ c.x
      ∧ exec (.fblive .fb0 .left) s = .next s' ∧ exec (.fblive .fb0 .left) t = .next t'
      ∧ exec (.fbfmt .fb0) s = .next s'' ∧ exec (.fbfmt .fb0) t = .next t'' := by
  refine ⟨ready [(0x11A, 5)], ready [(0x11A, 5), (0x157, 9)], _, _, _, _, theCtx (ready [(0x11A, 5)]),
    theCtx (ready [(0x11A, 5), (0x157, 9)]), by decide +kernel, rfl, rfl, rfl, fun k h1 h2 => ?_, by decide, exec_after _ _,
    exec_after _ _, exec_after _ _, exec_after _ _⟩
  simp only [fbBase] at h1 h2
  show ((Memory.setWord (Memory.setWord [] 0x157 9) 0x11A 5).word k) = (Memory.setWord [] 0x11A 5).word k
  simp only [Memory.word_setWord]
  split
  · rfl
  · rw [if_neg (by omega)]

/-- The words after a write of the transfer trigger word. -/
def xferStore (w : Width) (a v : Word) (x : Memory) : Memory := x.setWord 0x306 (storedLanes w (x.word 0x306) a v)

/-- Lane 3 of the trigger word: with raw copy, and with the formats 4 and 0. -/
theorem witness_TransferTriggerStartsTheTransfer :
    (ready [(0x304, 0x8)]).params.layout = Layout.spec ∧ (ready [(0x304, 0x8)]).ctx = some (theCtx (ready [(0x304, 0x8)]))
    ∧ (theCtx (ready [(0x304, 0x8)])).xfer = .idle ∧ (0xC1B : Word).toNat / 4 = 0x306
    ∧ (0xC1B : Word).toNat % widthBytes .w8 = 0 ∧ carried .w8 0x80 ≠ 0
    ∧ ((xferStore .w8 0xC1B 0x80 (mem [(0x304, 0x8)])).word 0x304).getLsbD 3 = true
    ∧ ((xferStore .w8 0xC1B 0x80 (mem [(0x304, 0x400)])).word 0x304).getLsbD 3 = false
    ∧ formatOf (inputCode (xferStore .w8 0xC1B 0x80 (mem [(0x304, 0x400)]))).toNat = some .rgba4
    ∧ formatOf (outputCode (xferStore .w8 0xC1B 0x80 (mem [(0x304, 0x400)]))).toNat = some .rgba8 := by decide

/-- Busy; Idle with input code 5; Idle with input code 4 and output code 5. -/
theorem witness_RejectedTransferTriggers :
    xferBusy.params.layout = Layout.spec ∧ xferBusy.ctx = some (theCtx xferBusy) ∧ (theCtx xferBusy).isBusy .xfer = true
    ∧ (theCtx (ready [(0x304, 0x500)])).xfer = .idle ∧ (0xC18 : Word).toNat / 4 = 0x306
    ∧ (0xC18 : Word).toNat % widthBytes .w32 = 0 ∧ carried .w32 1 ≠ 0
    ∧ ((xferStore .w32 0xC18 1 (mem [(0x304, 0x500)])).word 0x304).getLsbD 3 = false
    ∧ 5 ≤ (inputCode (xferStore .w32 0xC18 1 (mem [(0x304, 0x500)]))).toNat
    ∧ ((xferStore .w32 0xC18 1 (mem [(0x304, 0x5400)])).word 0x304).getLsbD 3 = false
    ∧ (inputCode (xferStore .w32 0xC18 1 (mem [(0x304, 0x5400)]))).toNat < 5
    ∧ 5 ≤ (outputCode (xferStore .w32 0xC18 1 (mem [(0x304, 0x5400)]))).toNat := by decide

theorem witness_TransferWriteOfZeroOnlyStores :
    xferBusy.params.layout = Layout.spec ∧ xferBusy.ctx = some (theCtx xferBusy) ∧ (0xC1B : Word).toNat / 4 = 0x306
    ∧ (0xC1B : Word).toNat % widthBytes .w8 = 0 ∧ carried .w8 0xFFFFFF00 = 0 := by decide

theorem witness_TransferCompletionClearsTheTriggerWord :
    xferBusy.params.layout = Layout.spec ∧ xferBusy.ctx = some (theCtx xferBusy)
    ∧ (∃ q, (theCtx xferBusy).xfer = .busy q) ∧ (ready []).ctx = some (theCtx (ready []))
    ∧ (theCtx (ready [])).xfer = .idle :=
  ⟨by decide, by decide, ⟨xferRequestOf 1 (theCtx xferBusy).x (some .rgb565) (some .rgba8) none, by decide⟩, rfl, rfl⟩

theorem witness_TextureCopyLineMathNeverWraps : Params.spec.layout = Layout.spec := rfl

theorem witness_CommandTriggerLaunchesTheList :
    (ready []).params.layout = Layout.spec ∧ (ready []).ctx = some (theCtx (ready [])) ∧ (theCtx (ready [])).cmd = .idle
    ∧ (0x18F0 : Word).toNat = 0x18F0 ∧ (1 : Word).getLsbD 0 = true := by decide

/-- A retrigger while Busy, and a write that leaves the trigger 0. -/
theorem witness_OtherCommandTriggerWritesOnlyStore :
    cmdBusy.params.layout = Layout.spec ∧ cmdBusy.ctx = some (theCtx cmdBusy) ∧ (0x18F0 : Word).toNat = 0x18F0
    ∧ (theCtx cmdBusy).cmd = .busy ⟨0x02000000, 0x800⟩ ∧ (1 : Word).getLsbD 0 = true ∧ (2 : Word).getLsbD 0 = false := by
  decide

theorem witness_CommandCompletionClearsTheTriggerBit :
    cmdBusy.params.layout = Layout.spec ∧ cmdBusy.ctx = some (theCtx cmdBusy)
    ∧ (theCtx cmdBusy).cmd = .busy ⟨0x02000000, 0x800⟩ ∧ (theCtx (ready [])).cmd = .idle := by decide

/-- A good layout, a bad one, and a second INIT. -/
theorem witness_InitConstructsTheContext :
    bare.ctx = none ∧ layoutOk bare.params = true
    ∧ layoutOk { Params.spec with convertToTiledBit := 32 } = false
    ∧ (ready []).ctx = some (theCtx (ready [])) := by decide +kernel

/-- Two fields of one word that share no bit, and a view; the layout itself passes. -/
theorem witness_LayoutAssertionsAreTheRegionTableAndFieldRules :
    layoutOk Params.spec = true ∧ FieldId.fb .fb0 .width ≠ .fb .fb0 .height
    ∧ mayAlias (.fb .fb0 .width) (.fb .fb0 .height) = false
    ∧ (fieldPos Params.spec (.fb .fb0 .width)).word = (fieldPos Params.spec (.fb .fb0 .height)).word
    ∧ FillField.value24b.isValueForm = true := by decide +kernel

/-- Every region Idle, and one Busy. -/
theorem witness_TeardownDestroysAnIdleContext :
    (ready []).ctx = some (theCtx (ready [])) ∧ (∀ r, (theCtx (ready [])).isBusy r = false)
    ∧ fill0Busy.ctx = some (theCtx fill0Busy) ∧ (theCtx fill0Busy).isBusy .fill0 = true :=
  ⟨rfl, fun r => by cases r <;> decide, by decide, by decide⟩

theorem witness_NoContextRefusesEverythingButInit : bare.ctx = none ∧ Instr.teardown ≠ .init := by decide

end Sys2Proof.Tests
end

section
/-! PROOFS of the family 10_state.md: the step as the decoded instruction (O5), the invariant of the machine (O7), and
the moves of the operation states with the requests they hold (O10, O12). All are read off the inversion lemmas of
`exec` and `step` (`exec_inv`, `step_inv`) and the forms of a reply (`Effect`). -/

namespace Sys2Proof.Machine

/-! ### The requests a hook makes are in order -/

/-- FillRequest(u, mode) is in order, from any words (44_memory_fill.md R607, R608). -/
theorem fillRequest_ok (p : Params) (x : Memory) (u : FillUnit) (m : FillMode) :
    FillRequest.Ok u (fillRequest p x u m) := by
  refine ⟨rfl, decAddr_mod_eight _, decAddr_mod_eight _, ?_⟩
  cases m with
  | m16 => exact ⟨_, rfl⟩
  | m24 => exact ⟨_, _, _, rfl⟩
  | m32 => exact ⟨_, rfl⟩

/-- The command-list request is in order: its length is a product by 8 as its address is (47_command_processor.md R753,
R757). -/
theorem cmdRequest_ok (p : Params) (x : Memory) : (cmdRequest p x).Ok :=
  ⟨decAddr_mod_eight _, decAddr_mod_eight _⟩

/-- XferRequest() is in order where it does not fail: formats without raw copy, the copy record with it
(46_display_transfer.md R706, R707). -/
theorem xferRequest_ok {p : Params} {x : Memory} {q : XferRequest} (h : xferRequest p x = .ok q) : q.Ok := by
  unfold xferRequest at h
  split at h
  next hraw =>
    cases h
    exact ⟨decAddr_mod_eight _, decAddr_mod_eight _, fun hz => absurd hz hraw, fun _ => ⟨rfl, rfl, rfl⟩⟩
  next hraw =>
    split at h
    · cases h
    · split at h
      · cases h
      · cases h
        exact ⟨decAddr_mod_eight _, decAddr_mod_eight _, fun _ => ⟨rfl, rfl, rfl⟩, fun hne => absurd hne hraw⟩

/-! ### The canonical form of the window is kept -/

/-- Where a transaction stores is inside the array, over a checked layout. -/
theorem StoredAt.lt {p : Params} (hl : layoutOk p = true) {k : Nat} (h : StoredAt p k) : k < 4096 := by
  obtain hk | ⟨f, rfl⟩ := h
  · exact hk
  · exact word_lt_of_layoutOk hl f

theorem wf_completeFill {p : Params} (hl : layoutOk p = true) {x : Memory} (hx : x.wf) (u : FillUnit) :
    (completeFill p x u).wf :=
  wf_setFieldAt (wf_setFieldAt hx (word_lt_of_layoutOk hl _) _) (word_lt_of_layoutOk hl _) _

theorem wf_completeXfer {p : Params} (hl : layoutOk p = true) {x : Memory} (hx : x.wf) : (completeXfer p x).wf :=
  wf_setFieldAt hx (word_lt_of_layoutOk hl _) _

theorem wf_completeCmd {p : Params} (hl : layoutOk p = true) {x : Memory} (hx : x.wf) : (completeCmd p x).wf :=
  wf_setFieldAt hx (word_lt_of_layoutOk hl _) _

/-! ### A context in good order, update by update -/

/-- A new context over canonical words holds nothing. -/
theorem Context.fresh_inv {x : Memory} (hx : x.wf) : (Context.fresh x).Inv := ⟨hx, trivial, trivial, trivial, trivial⟩

theorem Context.Inv.withX {c : Context} (h : c.Inv) {x : Memory} (hx : x.wf) : ({ c with x := x } : Context).Inv :=
  { h with window := hx }

theorem Context.Inv.setFillOp {c : Context} (h : c.Inv) {u : FillUnit} {o : OpState FillRequest}
    (ho : o.Holds (FillRequest.Ok u)) : (c.setFillOp u o).Inv := by
  cases u with
  | fill0 => exact { h with fill0 := ho }
  | fill1 => exact { h with fill1 := ho }

theorem Context.Inv.withXfer {c : Context} (h : c.Inv) {o : OpState XferRequest} (ho : o.Holds XferRequest.Ok) :
    ({ c with xfer := o } : Context).Inv :=
  { h with xfer := ho }

theorem Context.Inv.withCmd {c : Context} (h : c.Inv) {o : OpState CmdRequest} (ho : o.Holds CmdRequest.Ok) :
    ({ c with cmd := o } : Context).Inv :=
  { h with cmd := ho }

/-- Whatever a transaction does to a context in good order over a checked layout, it leaves it in good order. -/
theorem Effect.keeps_inv {i : Instr} {p : Params} {c : Context} {r : Reply} (he : Effect i p c r)
    (hl : layoutOk p = true) (hc : c.Inv) : r.ctx.Inv := by
  have stored : ∀ {k : Nat} (v : Word), k < 4096 → ({ c with x := c.x.setWord k v } : Context).Inv :=
    fun v hk => hc.withX (Memory.wf_setWord hc.window hk v)
  cases he with
  | unchanged st r => exact hc
  | stored k v st hk hw => exact stored v (hk.lt hl)
  | fillStarts u k v m hk hi hidle hm => exact (stored v hk).setFillOp (fillRequest_ok p _ u m)
  | xferStarts k v q hk hi hidle hq => exact (stored v hk).withXfer (xferRequest_ok hq)
  | cmdStarts k v hk hi hidle => exact (stored v hk).withCmd (cmdRequest_ok p _)
  | fillCompletes u q hi hbusy => exact (hc.withX (wf_completeFill hl hc.window u)).setFillOp trivial
  | xferCompletes q hi hbusy => exact (hc.withX (wf_completeXfer hl hc.window)).withXfer trivial
  | cmdCompletes q hi hbusy => exact (hc.withX (wf_completeCmd hl hc.window)).withCmd trivial

/-! ### The invariant of the machine -/

/-- The invariant reads the parameters, the context and the initial words only. -/
theorem State.Inv.congr {s s' : State} (h : s.Inv) (hp : s'.params = s.params) (hw : s'.initWords = s.initWords)
    (hc : s'.ctx = s.ctx) : s'.Inv where
  initWords := by rw [hw]; exact h.initWords
  layout := by rw [hc, hp]; exact h.layout
  context := by rw [hc]; exact h.context

/-- With no context the invariant asks for canonical initial words only. -/
theorem State.inv_of_no_context {s : State} (hc : s.ctx = none) (hw : s.initWords.wf) : s.Inv where
  initWords := hw
  layout := by simp [hc]
  context := by simp [hc]

/-- With a context the invariant is that the layout passed and the context is in good order. -/
theorem State.inv_of_context {s : State} {c : Context} (h : s.ctx = some c) (hw : s.initWords.wf)
    (hl : layoutOk s.params = true) (hc : c.Inv) : s.Inv where
  initWords := hw
  layout := fun _ => hl
  context := by
    intro d hd
    obtain rfl : c = d := Option.some.inj (h.symm.trans hd)
    exact hc

/-- Every instruction keeps the invariant. -/
theorem exec_keeps_inv {i : Instr} {s s' : State} (hs : s.Inv) (h : exec i s = .next s') : s'.Inv := by
  cases exec_inv h with
  | refused hnone => exact hs.congr rfl rfl rfl
  | constructed hnone hi hl => exact State.inv_of_context rfl hs.initWords hl (Context.fresh_inv hs.initWords)
  | violation hnone hi => exact State.inv_of_no_context rfl hs.initWords
  | destroyed c words hc hi hb hw => exact State.inv_of_no_context rfl hw
  | replied c hc r he =>
    have hl : layoutOk s.params = true := hs.layout (by simp [hc])
    exact State.inv_of_context rfl hs.initWords hl (he.keeps_inv hl (hs.context c hc))

/-- Settles O7: a step changes nothing, runs an instruction from the state with the transaction taken off, or refuses
in that state; taking it off touches nothing the invariant reads. -/
theorem stepKeepsTheInvariant : Obligations.StepKeepsTheInvariant := by
  intro s s' hs h
  obtain rfl | ⟨t, rest, -, ⟨i, -, hexec⟩ | rfl⟩ := step_inv h
  · exact hs
  · refine exec_keeps_inv ?_ hexec
    exact hs.congr rfl rfl rfl
  · exact hs.congr rfl rfl rfl

/-! ### What the regions hold after a transaction -/

@[simp] theorem completionOf_fillRegion (u : FillUnit) : completionOf (fillRegion u) = .filldone u := by cases u <;> rfl

theorem Context.held_fillRegion_of_idle {c : Context} {u : FillUnit} (h : c.fillOp u = .idle) :
    c.held (fillRegion u) = none := by
  cases u with
  | fill0 => change c.fill0 = .idle at h; simp [fillRegion, Context.held, h]
  | fill1 => change c.fill1 = .idle at h; simp [fillRegion, Context.held, h]

@[simp] theorem Context.held_setFillOp_busy (c : Context) (u : FillUnit) (q : FillRequest) :
    (c.setFillOp u (.busy q)).held (fillRegion u) = some (.fill q) := by cases u <;> rfl

@[simp] theorem Context.held_setFillOp_idle (c : Context) (u : FillUnit) :
    (c.setFillOp u .idle).held (fillRegion u) = none := by cases u <;> rfl

/-- The state of a fill unit is no other region's. -/
theorem Context.held_setFillOp_ne (c : Context) {u : FillUnit} {r : Region} (h : r ≠ fillRegion u)
    (o : OpState FillRequest) : (c.setFillOp u o).held r = c.held r := by
  cases r with
  | fill0 =>
    cases u with
    | fill0 => exact absurd rfl h
    | fill1 => rfl
  | fill1 =>
    cases u with
    | fill0 => rfl
    | fill1 => exact absurd rfl h
  | xfer => cases u <;> rfl
  | cmd => cases u <;> rfl

theorem Context.held_withXfer_ne (c : Context) {r : Region} (h : r ≠ .xfer) (o : OpState XferRequest) :
    ({ c with xfer := o } : Context).held r = c.held r := by
  cases r with
  | xfer => exact absurd rfl h
  | fill0 => rfl
  | fill1 => rfl
  | cmd => rfl

theorem Context.held_withCmd_ne (c : Context) {r : Region} (h : r ≠ .cmd) (o : OpState CmdRequest) :
    ({ c with cmd := o } : Context).held r = c.held r := by
  cases r with
  | cmd => exact absurd rfl h
  | fill0 => rfl
  | fill1 => rfl
  | xfer => rfl

/-- What instruction i, answered with `reply` over context c, does to the request region r holds: the two moves of
10_state.md R121, or none. -/
inductive HeldMove (i : Instr) (p : Params) (c : Context) (reply : Reply) (r : Region) : Prop where
  /-- The region is as it was. -/
  | stays (h : reply.ctx.held r = c.held r)
  /-- An Idle region goes Busy on an accepted trigger write and emits what it then holds. -/
  | starts (hidle : c.held r = none) (hi : IsTriggerWriteOf i p reply.ctx.x r) (hst : reply.status = .ok)
      (hres : reply.result = none) (hem : reply.emitted = reply.ctx.held r)
  /-- A region goes Idle on its completion. -/
  | completes (hi : i = completionOf r) (h : reply.ctx.held r = none)

/-- Every transaction on a context leaves each region as it was or makes one of the two moves. -/
theorem Effect.heldMove {i : Instr} {p : Params} {c : Context} {reply : Reply} (he : Effect i p c reply) (r : Region) :
    HeldMove i p c reply r := by
  cases he with
  | unchanged st res => exact .stays rfl
  | stored k v st hk hw => exact .stays (Context.held_withX ..)
  | fillStarts u k v m hk hi hidle hm =>
    by_cases hr : r = fillRegion u
    · subst hr
      exact .starts (Context.held_fillRegion_of_idle hidle) (by simpa using hi) rfl rfl (by simp)
    · exact .stays (by simp [Context.held_setFillOp_ne _ hr])
  | xferStarts k v q hk hi hidle hq =>
    by_cases hr : r = .xfer
    · subst hr
      exact .starts (by simp [Context.held, hidle]) hi rfl rfl rfl
    · exact .stays ((Context.held_withXfer_ne _ hr _).trans (Context.held_withX ..))
  | cmdStarts k v hk hi hidle =>
    by_cases hr : r = .cmd
    · subst hr
      exact .starts (by simp [Context.held, hidle]) hi rfl rfl rfl
    · exact .stays ((Context.held_withCmd_ne _ hr _).trans (Context.held_withX ..))
  | fillCompletes u q hi hbusy =>
    by_cases hr : r = fillRegion u
    · subst hr
      exact .completes (by simpa using hi) (by simp)
    · exact .stays (by simp [Context.held_setFillOp_ne _ hr])
  | xferCompletes q hi hbusy =>
    by_cases hr : r = .xfer
    · subst hr
      exact .completes hi rfl
    · exact .stays ((Context.held_withXfer_ne _ hr _).trans (Context.held_withX ..))
  | cmdCompletes q hi hbusy =>
    by_cases hr : r = .cmd
    · subst hr
      exact .completes hi rfl
    · exact .stays ((Context.held_withCmd_ne _ hr _).trans (Context.held_withX ..))

/-- An instruction over a context destroys it with every region Idle, or replies over it. -/
theorem exec_context_inv {i : Instr} {s s' : State} {c : Context} (hc : s.ctx = some c) (h : exec i s = .next s') :
    (s'.ctx = none ∧ ∀ r, c.isBusy r = false) ∨ ∃ reply, s' = s.finish reply ∧ ∀ r, HeldMove i s.params c reply r := by
  cases exec_inv h with
  | refused hnone => simp [hc] at hnone
  | constructed hnone hi hl => simp [hc] at hnone
  | violation hnone hi => simp [hc] at hnone
  | destroyed d words hd hi hb hw =>
    obtain rfl : c = d := Option.some.inj (hc.symm.trans hd)
    exact .inl ⟨rfl, hb⟩
  | replied d hd reply he =>
    obtain rfl : c = d := Option.some.inj (hc.symm.trans hd)
    exact .inr ⟨reply, rfl, he.heldMove⟩

/-- Settles O10, by the move of the region: a region that stays or completes does not go Busy, and one that stays or
starts does not go Idle. -/
theorem operationStateMovesOnlyOnTriggerAndCompletion : Obligations.OperationStateMovesOnlyOnTriggerAndCompletion := by
  intro i s s' c c' r hc h hc'
  obtain ⟨hnone, -⟩ | ⟨reply, rfl, hmove⟩ := exec_context_inv hc h
  · simp [hnone] at hc'
  obtain rfl : reply.ctx = c' := Option.some.inj hc'
  cases hmove r with
  | stays hheld =>
    have hbusy : reply.ctx.isBusy r = c.isBusy r := by simp [Context.isBusy, hheld]
    rw [hbusy]
    cases c.isBusy r <;> simp
  | starts hidle hi hst hres hem => exact ⟨fun _ _ => ⟨hi, by simp [hst, hres], hem⟩, by simp [Context.isBusy, hidle]⟩
  | completes hi hheld => exact ⟨by simp [Context.isBusy, hheld], fun _ _ => hi⟩

/-- Settles O12: a region that holds a request does not start, and TEARDOWN destroys no context with such a region. -/
theorem heldRequestIsASnapshot : Obligations.HeldRequestIsASnapshot := by
  intro i s s' c r q hc hq h
  obtain ⟨-, hidle⟩ | ⟨reply, rfl, hmove⟩ := exec_context_inv hc h
  · have hnone : c.held r = none := (c.not_busy_iff_held r).mp (hidle r)
    simp [hq] at hnone
  refine ⟨reply.ctx, rfl, ?_⟩
  cases hmove r with
  | stays hheld => exact .inl (hheld.trans hq)
  | starts hidle => simp [hq] at hidle
  | completes hi => exact .inr hi

/-! ### The step -/

/-- Settles O5, by the two equations of the step. -/
theorem stepRunsTheDecodedInstruction : Obligations.StepRunsTheDecodedInstruction := by
  refine ⟨?_, fun s hp => step_nil hp⟩
  intro s t rest i hp hd
  rw [step_cons hp, hd]

end Sys2Proof.Machine
end

section
/-! PROOFS of the family 20_memory.md: reads (O13), the address check (O30), the store of a bus write with its bytes
and its inspection (O31, O32, O34), and the update of a fill completion (O40). Reads are read off the forms of a reply
(`Effect`); bus accesses go through one equation each, `exec_busReadOf` here and `exec_busWriteOf`. -/

namespace Sys2Proof.Machine

/-! ### Reads have the one form that changes nothing -/

@[simp] theorem isReadInstr_busWriteOf (w : Width) (a v : Word) : isReadInstr (busWriteOf w a v) = false := by
  cases w <;> rfl

theorem IsTriggerWriteOf.not_read {i : Instr} {p : Params} {x : Memory} {r : Region} (h : IsTriggerWriteOf i p x r) :
    isReadInstr i = false := by
  obtain ⟨w, a, v, rfl, -⟩ := h
  exact isReadInstr_busWriteOf w a v

/-- A reading instruction over a context leaves it and emits nothing (20_memory.md R211). -/
theorem Effect.eq_unchanged_of_read {i : Instr} {p : Params} {c : Context} {reply : Reply} (he : Effect i p c reply)
    (hr : isReadInstr i = true) : ∃ st res, reply = ⟨c, st, res, none⟩ := by
  have hno : isReadInstr i ≠ false := by simp [hr]
  cases he with
  | unchanged st res => exact ⟨st, res, rfl⟩
  | stored k v st hk hw => exact absurd hw hno
  | fillStarts u k v m hk hi hidle hm => exact absurd hi.not_read hno
  | xferStarts k v q hk hi hidle hq => exact absurd hi.not_read hno
  | cmdStarts k v hk hi hidle => exact absurd hi.not_read hno
  | fillCompletes u q hi hbusy => subst hi; cases hr
  | xferCompletes q hi hbusy => subst hi; cases hr
  | cmdCompletes q hi hbusy => subst hi; cases hr

/-- Settles O13: with a context a read replies over it unchanged; without one it is refused, as INIT and TEARDOWN read
nothing. -/
theorem readsHaveNoSideEffects : Obligations.ReadsHaveNoSideEffects := by
  intro i s s' hr h
  cases exec_inv h with
  | refused hnone => rfl
  | constructed hnone hi hl => subst hi; cases hr
  | violation hnone hi => subst hi; cases hr
  | destroyed c words hc hi hb hw => subst hi; cases hr
  | replied c hc reply he =>
    obtain ⟨st, res, rfl⟩ := he.eq_unchanged_of_read hr
    exact State.replied_self hc st res none

/-! ### Bus accesses of any width, by the address check -/

/-- The bus read of a width at a byte address, the counterpart of `busWriteOf`. -/
def busReadOf : Width → Word → Instr
  | .w8, a => .bread8 a
  | .w16, a => .bread16 a
  | .w32, a => .bread32 a

theorem replyOf_busReadOf (w : Width) (a : Word) (p : Params) (c : Context) :
    replyOf (busReadOf w a) p c = busRead w a c := by cases w <;> rfl

theorem busReadOf_ne_teardown (w : Width) (a : Word) : busReadOf w a ≠ .teardown := by
  cases w <;> intro h <;> cases h

theorem busWriteOf_setWidth_8 (a : Word) (v : BitVec 8) : busWriteOf .w8 a (v.setWidth 32) = .bwrite8 a v := by
  simp [busWriteOf]

theorem busWriteOf_setWidth_16 (a : Word) (v : BitVec 16) : busWriteOf .w16 a (v.setWidth 32) = .bwrite16 a v := by
  simp [busWriteOf]

/-- A bus read that passes the check answers its lanes (43_access_dispatcher.md R556). -/
theorem exec_busReadOf {s : State} {c : Context} (h : s.ctx = some c) {w : Width} {a : Word} (ha : a.toNat < 0x4000)
    (hal : a.toNat % widthBytes w = 0) :
    exec (busReadOf w a) s = .next (s.replied c .ok (some (memRead c.x a w)) none) := by
  rw [exec_of_context h _ (busReadOf_ne_teardown w a), replyOf_busReadOf]
  unfold busRead
  rw [(checkAccess_none_iff a w).mpr ⟨ha, hal⟩]
  rfl

/-- A bus read that fails the check reports the error and changes nothing (43_access_dispatcher.md R552). -/
theorem exec_busReadOf_error {s : State} {c : Context} (h : s.ctx = some c) {w : Width} {a : Word} {e : ErrorKind}
    (he : checkAccess a w = some e) : exec (busReadOf w a) s = .next (s.replied c (.error e) none none) := by
  rw [exec_of_context h _ (busReadOf_ne_teardown w a), replyOf_busReadOf]
  unfold busRead
  rw [he]
  rfl

/-- A bus write that fails the check reports the error and stores nothing (43_access_dispatcher.md R552, R558). -/
theorem exec_busWriteOf_error {s : State} {c : Context} (h : s.ctx = some c) {w : Width} {a : Word} (v : Word)
    {e : ErrorKind} (he : checkAccess a w = some e) :
    exec (busWriteOf w a v) s = .next (s.replied c (.error e) none none) := by
  rw [exec_of_context h _ (busWriteOf_ne_teardown w a v), replyOf_busWriteOf]
  unfold busWrite
  rw [he]
  rfl

/-- Settles O30: the check of the width fails with MisalignedAccess, for the read and for the write. -/
theorem misalignedAccessIsNotPerformed : Obligations.MisalignedAccessIsNotPerformed := by
  intro s c a h ha
  refine ⟨fun hodd => ?_, fun hodd => ?_⟩
  · have he : checkAccess a .w16 = some (.misalignedAccess a) := checkAccess_misaligned ha hodd
    refine ⟨exec_busReadOf_error h he, fun v => ?_⟩
    rw [← busWriteOf_setWidth_16]
    exact exec_busWriteOf_error h _ he
  · have he : checkAccess a .w32 = some (.misalignedAccess a) := checkAccess_misaligned ha hodd
    exact ⟨exec_busReadOf_error h he, fun v => exec_busWriteOf_error h v he⟩

/-! ### The store of a bus write -/

/-- The words after a bus write are those after its store, whatever the inspection does (43_access_dispatcher.md R558,
60_exceptions.md R806). -/
theorem x_of_exec_busWriteOf {s s' : State} {c c' : Context} (h : s.ctx = some c) {w : Width} {a v : Word}
    (ha : a.toNat < 0x4000) (hal : a.toNat % widthBytes w = 0) (hs' : exec (busWriteOf w a v) s = .next s')
    (hc' : s'.ctx = some c') :
    c'.x = c.x.setWord (a.toNat / 4) (storedLanes w (c.x.word (a.toNat / 4)) a v) := by
  rw [exec_busWriteOf h v ha hal] at hs'
  cases hs'
  cases hc'
  exact inspect_x ..

/-- An aligned access stays inside its word. -/
theorem lane_add_widthBytes_le {w : Width} {n : Nat} (hal : n % widthBytes w = 0) : n % 4 + widthBytes w ≤ 4 := by
  cases w <;> simp only [widthBytes] at hal ⊢ <;> omega

/-- Lane k of the word after a bus write: a byte of the value where the write covers the lane, else the old lane
(20_memory.md R204, 43_access_dispatcher.md R557). -/
theorem extractLsb'_storedLanes (w : Width) (old a v : Word) {k : Nat} (hk : k < 4) :
    (storedLanes w old a v).extractLsb' (8 * k) 8
      = if a.toNat % 4 ≤ k ∧ k < a.toNat % 4 + widthBytes w then v.extractLsb' (8 * (k - a.toNat % 4)) 8
        else old.extractLsb' (8 * k) 8 := by
  apply BitVec.eq_of_getLsbD_eq
  intro j hj
  have hbit : (storedLanes w old a v).getLsbD (8 * k + j)
      = if a.toNat % 4 ≤ k ∧ k < a.toNat % 4 + widthBytes w then v.getLsbD (8 * (k - a.toNat % 4) + j)
        else old.getLsbD (8 * k + j) := by
    rw [getLsbD_storedLanes w old a v (8 * k + j) (by omega)]
    by_cases hcov : a.toNat % 4 ≤ k ∧ k < a.toNat % 4 + widthBytes w
    · have hpos : 8 * k + j - 8 * (a.toNat % 4) = 8 * (k - a.toNat % 4) + j := by omega
      rw [if_pos (by omega), if_pos hcov, hpos]
    · rw [if_neg (by omega), if_neg hcov]
  rw [BitVec.getLsbD_extractLsb', hbit]
  split <;> rw [BitVec.getLsbD_extractLsb']

/-- The bytes after the store of an aligned bus write: the bytes written hold the value, least significant first, and
every other byte is as before. -/
theorem byte_setWord_storedLanes (x : Memory) {w : Width} {a : Word} (v : Word) (hal : a.toNat % widthBytes w = 0)
    (b : Nat) :
    (x.setWord (a.toNat / 4) (storedLanes w (x.word (a.toNat / 4)) a v)).byte b
      = if a.toNat ≤ b ∧ b < a.toNat + widthBytes w then v.extractLsb' (8 * (b - a.toNat)) 8 else x.byte b := by
  have hin := lane_add_widthBytes_le hal
  rw [Memory.byte_setWord]
  by_cases hword : b / 4 = a.toNat / 4
  · rw [if_pos hword, extractLsb'_storedLanes w _ a v (Nat.mod_lt b (by omega)), ← hword, ← Memory.byte_eq_lane]
    by_cases hcov : a.toNat ≤ b ∧ b < a.toNat + widthBytes w
    · have hoff : b % 4 - a.toNat % 4 = b - a.toNat := by omega
      rw [if_pos (by omega), if_pos hcov, hoff]
    · rw [if_neg (by omega), if_neg hcov]
  · rw [if_neg hword, if_neg (by omega)]

/-- Settles O31: the inspection keeps the words and gives no data, so the bytes are those after the store. -/
theorem busWritesStoreBeforeInspection : Obligations.BusWritesStoreBeforeInspection := by
  intro s c w a v h ha hal
  have hexec := exec_busWriteOf h v ha hal
  have hbyte := byte_setWord_storedLanes c.x v hal
  refine ⟨_, _, hexec, rfl, ?_, ?_, ?_, rfl, rfl, rfl, rfl, ?_⟩
  · rw [inspect_x, Memory.word_setWord_self]
  · intro b hlo hhi
    rw [inspect_x, hbyte, if_pos ⟨hlo, hhi⟩]
  · intro b hout
    rw [inspect_x, hbyte, if_neg (by omega)]
  · rw [State.finish_response, inspect_result]
    exact ⟨_, rfl⟩

/-- Settles O32: the inspection of a word none of whose trigger fields the write covers does nothing. -/
theorem writesCoveringNoTriggerOnlyStore : Obligations.WritesCoveringNoTriggerOnlyStore := by
  intro s c w a v h ha hal hmask
  have hcov : ∀ r, (fieldPos s.params (triggerField r)).word = a.toNat / 4 →
      covers (lowLanes w <<< (8 * (a.toNat % 4))) (fieldPos s.params (triggerField r)) = false := by
    intro r hr
    rw [← laneMask_eq, ← Bool.not_eq_true, covers_iff]
    exact fun hne => hne (hmask r hr)
  rw [exec_busWriteOf h v ha hal, inspect_of_not_covered hcov]
  rfl

/-! ### The mixed-width view -/

/-- A bus read extracts its lanes as a field of the word (43_access_dispatcher.md R556). -/
theorem memRead_eq_extract (x : Memory) (a : Word) (w : Width) :
    memRead x a w = extract (x.word (a.toNat / 4)) (8 * (a.toNat % 4)) (8 * widthBytes w) := rfl

/-- The bits of a field are the library's slice of the word, zero-extended. -/
theorem extract_eq_setWidth (v : Word) (off wid : Nat) : extract v off wid = (v.extractLsb' off wid).setWidth 32 := by
  apply BitVec.eq_of_getLsbD_eq
  intro j hj
  rw [getLsbD_extract, BitVec.getLsbD_setWidth, BitVec.getLsbD_extractLsb']
  simp [hj]

/-- A whole-word store holds the value. -/
theorem storedLanes_w32 (old v : Word) {a : Word} (hal : a.toNat % 4 = 0) : storedLanes .w32 old a v = v := by
  apply BitVec.eq_of_getLsbD_eq
  intro j hj
  rw [getLsbD_storedLanes _ _ _ _ _ hj, hal, if_pos (by simpa [widthBytes] using hj)]
  rfl

/-- A lane of a word inside the window has its offset added to the word's address. -/
theorem toNat_add_lane {a : Word} (ha : a.toNat < 0x4000) {k : Nat} (hk : k < 4) :
    (a + BitVec.ofNat 32 k).toNat = a.toNat + k := by
  rw [BitVec.toNat_add, BitVec.toNat_ofNat]
  omega

/-- A read of any width at lane k of a word that holds V answers the bits of V from that lane on. -/
theorem exec_busReadOf_lane {s : State} {c : Context} (h : s.ctx = some c) {a V : Word} (ha : a.toNat < 0x4000)
    (hal : a.toNat % 4 = 0) (hV : c.x.word (a.toNat / 4) = V) {w : Width} {k : Nat} (hk : k < 4)
    (hkal : k % widthBytes w = 0) :
    exec (busReadOf w (a + BitVec.ofNat 32 k)) s
      = .next (s.replied c .ok (some ((V.extractLsb' (8 * k) (8 * widthBytes w)).setWidth 32)) none) := by
  have hadd := toNat_add_lane ha hk
  have hword : (a + BitVec.ofNat 32 k).toNat / 4 = a.toNat / 4 := by omega
  have hlane : (a + BitVec.ofNat 32 k).toNat % 4 = k := by omega
  have hwal : (a + BitVec.ofNat 32 k).toNat % widthBytes w = 0 := by
    rw [hadd]
    cases w <;> simp only [widthBytes] at hkal ⊢ <;> omega
  rw [exec_busReadOf h (by omega) hwal, memRead_eq_extract, hword, hlane, hV, extract_eq_setWidth]

/-- The word after an 8-bit write at lane k is the old word with that lane replaced (43_access_dispatcher.md R557). -/
theorem storedLanes_w8 (old a : Word) (b : BitVec 8) :
    storedLanes .w8 old a (b.setWidth 32)
      = (old &&& ~~~(0xFF#32 <<< (8 * (a.toNat % 4)))) ||| (b.setWidth 32 <<< (8 * (a.toNat % 4))) := by
  have hcar : carried .w8 (b.setWidth 32) = b.setWidth 32 := setWidth_and_low_8 b
  unfold storedLanes
  rw [hcar]
  rfl

/-- Settles O34: the write determines the word, and a read of any width takes its lanes from that word. -/
theorem mixedWidthView : Obligations.MixedWidthView := by
  refine ⟨?_, ?_⟩
  · intro s s' c c' a V h ha hal hs' hc'
    have hV : c'.x.word (a.toNat / 4) = V := by
      rw [x_of_exec_busWriteOf (w := .w32) h ha hal hs' hc', Memory.word_setWord_self, storedLanes_w32 _ _ hal]
    refine ⟨fun k hk => ?_, fun j hj => ?_⟩
    · exact exec_busReadOf_lane (w := .w8) hc' ha hal hV hk (Nat.mod_one k)
    · have hbits : 8 * (2 * j) = 16 * j := by omega
      rw [← hbits]
      exact exec_busReadOf_lane (w := .w16) hc' ha hal hV (by omega) (Nat.mul_mod_right 2 j)
  · intro s s' c c' a k b h ha hal hk hs' hc'
    have hadd := toNat_add_lane ha hk
    have hword : (a + BitVec.ofNat 32 k).toNat / 4 = a.toNat / 4 := by omega
    have hlane : (a + BitVec.ofNat 32 k).toNat % 4 = k := by omega
    rw [← busWriteOf_setWidth_8] at hs'
    have hx := x_of_exec_busWriteOf h (by omega) (Nat.mod_one _) hs' hc'
    rw [hword, storedLanes_w8, hlane] at hx
    have hread : memRead c'.x a .w32 = c'.x.word (a.toNat / 4) := by
      rw [memRead_eq_extract, hal]
      exact extract_full _
    have hexec := exec_busReadOf (w := .w32) hc' ha hal
    rwa [hread, hx, Memory.word_setWord_self] at hexec

/-! ### The completion of a fill -/

theorem exec_filldone_busy {s : State} {c : Context} (h : s.ctx = some c) {u : FillUnit} {q : FillRequest}
    (hq : c.fillOp u = .busy q) :
    exec (.filldone u) s
      = .next (s.replied ({ c with x := completeFill s.params c.x u }.setFillOp u .idle) .ok none none) := by
  have hreply : replyOf (.filldone u) s.params c
      = done ({ c with x := completeFill s.params c.x u }.setFillOp u .idle) := by
    simp only [replyOf, hq]
  rw [exec_of_context h _ (by simp), hreply]
  rfl

/-- A named field has a bit, so it can hold 0 and 1. -/
theorem one_lt_two_pow_width {p : Params} (hl : layoutOk p = true) (f : FieldId) : 1 < 2 ^ (fieldPos p f).width :=
  Nat.one_lt_two_pow (Nat.one_le_iff_ne_zero.mp (width_of_layoutOk hl f).1)

/-- finished is written last and reads 1. -/
theorem field_finished_completeFill {p : Params} (hl : layoutOk p = true) (x : Memory) (u : FillUnit) :
    field p (completeFill p x u) (.fill u .finished) = 1 :=
  fieldAt_setFieldAt _ _ _ (width_of_layoutOk hl _).2 (one_lt_two_pow_width hl _)

/-- trigger shares no bit with finished (10_state.md R114), so it still reads the 0 written first. -/
theorem field_trigger_completeFill {p : Params} (hl : layoutOk p = true) (x : Memory) (u : FillUnit) :
    field p (completeFill p x u) (.fill u .trigger) = 0 := by
  have hmem : .fill u .trigger ∈ siblings (.fill u .finished) := by cases u <;> decide
  have hdisj := disjoint_of_layoutOk hl hmem (by simp) rfl
  have hfits := (width_of_layoutOk hl (.fill u .trigger)).2
  calc field p (completeFill p x u) (.fill u .trigger)
      = fieldAt (setFieldAt x (fieldPos p (.fill u .trigger)) 0) (fieldPos p (.fill u .trigger)) :=
        fieldAt_setFieldAt_of_disjoint _ _ _ _ (one_lt_two_pow_width hl _) hfits fun e => hdisj e.symm
    _ = 0 := fieldAt_setFieldAt _ _ _ hfits (Nat.two_pow_pos _)

/-- Settles O40, by the two fields after the completion of the Busy unit. -/
theorem fillCompletionIsOneUpdate : Obligations.FillCompletionIsOneUpdate := by
  intro s c u q hl h hq
  refine ⟨_, _, exec_filldone_busy h hq, rfl, ?_, ?_⟩
  · rw [Context.setFillOp_x]
    exact field_trigger_completeFill hl c.x u
  · rw [Context.setFillOp_x]
    exact field_finished_completeFill hl c.x u

end Sys2Proof.Machine
end

section
/-! PROOFS of the family 30_encoding.md: decode and encode (O2, O3), the reserved encodings (O4), sample transactions
(O1) and encoded addresses (O27). -/

namespace Sys2Proof

/-! ### Every well-formed instruction decodes back -/

/-- Most operands pass through as they are; the others are the narrow values, the identifiers and the selectors. -/
theorem decode_encode {i : Instr} (h : i.wellFormed = true) : decode (encode i) = .ok i := by
  cases i with
  | bwrite8 a v => exact congrArg (fun b => Decoded.ok (.bwrite8 a b)) (setWidth_setWidth_8 v)
  | bwrite16 a v => exact congrArg (fun b => Decoded.ok (.bwrite16 a b)) (setWidth_setWidth_16 v)
  | filldone u => cases u <;> rfl
  | fget id => exact decodeField_identifier h .fget
  | fset id v => exact decodeField_identifier h (.fset · v)
  | fblive f e => cases f <;> cases e <;> rfl
  | fbfmt f => cases f <;> rfl
  | _ => rfl

/-- The four bytes of a word make the word again (log 5). -/
theorem wordOfBytes_extractLsb' (v : Word) :
    wordOfBytes (v.extractLsb' 0 8) (v.extractLsb' 8 8) (v.extractLsb' 16 8) (v.extractLsb' 24 8) = v := by
  unfold wordOfBytes
  rw [BitVec.extractLsb'_append_extractLsb'_eq_extractLsb' (show 24 = 16 + 8 from rfl),
    BitVec.extractLsb'_append_extractLsb'_eq_extractLsb' (show 16 = 8 + 8 from rfl),
    BitVec.extractLsb'_append_extractLsb'_eq_extractLsb' (show 8 = 0 + 8 from rfl)]
  exact BitVec.extractLsb'_eq_self

/-- The bytes of a transaction give it back, with what follows them left over (log 5). -/
theorem Transaction.ofBytes_toBytes_append (t : Transaction) (rest : List Byte) :
    Transaction.ofBytes (t.toBytes ++ rest) = some (t, rest) := by
  change some (Transaction.mk t.op (wordOfBytes ..) (wordOfBytes ..), rest) = _
  rw [wordOfBytes_extractLsb', wordOfBytes_extractLsb']

theorem decodeBytes_toBytes_append (t : Transaction) (rest : List Byte) :
    decodeBytes (t.toBytes ++ rest) = some (decode t, rest) := by
  unfold decodeBytes
  rw [Transaction.ofBytes_toBytes_append]

/-- Settles O2: the bytes give the transaction back, and the transaction the instruction. -/
theorem encodeThenDecodeIsIdentity : Obligations.EncodeThenDecodeIsIdentity := by
  intro i h
  refine ⟨decode_encode h, fun rest => ?_⟩
  rw [decodeBytes_toBytes_append, decode_encode h]

/-! ### A transaction that decodes is the canonical encoding of its instruction -/

/-- The low bits of a word are those bits on their own, zero-extended. -/
theorem and_lowMask (v : Word) (n : Nat) : v &&& Machine.lowMask n = (v.setWidth n).setWidth 32 := by
  apply BitVec.eq_of_getLsbD_eq
  intro j hj
  rw [BitVec.getLsbD_and, Machine.getLsbD_lowMask]
  simp [hj, Bool.and_comm]

/-- An operand below 2^8 is its low byte, zero-extended. -/
theorem setWidth_low_byte {a : Word} (h : a.toNat < 0x100) : (a.setWidth 8).setWidth 32 = a := by
  apply BitVec.eq_of_toNat_eq
  simp only [BitVec.toNat_setWidth]
  omega

/-- The two selector bits of FBLIVE are all of an operand below 4 (30_encoding.md R304). -/
theorem fblive_selectors {a : Word} (h : a.toNat < 4) : (fbUnitOf a).selector + (eyeOf a).selector = a := by
  obtain rfl | rfl | rfl | rfl : a = 0 ∨ a = 1 ∨ a = 2 ∨ a = 3 := by bv_omega
  all_goals rfl

/-- The selector bit of FBFMT is all of an operand below 2 (30_encoding.md R304). -/
theorem fbfmt_selector {a : Word} (h : a.toNat < 2) : (fbUnitOf a).selector = a := by
  obtain rfl | rfl : a = 0 ∨ a = 1 := by bv_omega
  all_goals rfl

/-- An instruction with the operation code of a transaction and the bits it uses as operands encodes it. -/
theorem encode_eq_canonical {i : Instr} {op : BitVec 8} {a d : Word} (hop : op.toNat = i.opcode.toNat)
    (ha : a &&& usedBitsA i.opcode = i.operandA) (hd : d &&& usedBitsD i.opcode = i.operandD) :
    encode i = Transaction.canonical ⟨op, a, d⟩ := by
  obtain rfl : op = i.opcode := BitVec.eq_of_toNat_eq hop
  unfold encode Transaction.canonical
  rw [ha, hd]

open Laws.EncodingShape (and_all)

/-- Row by row of 30_encoding.md R303: what the decoder reads of a and of d is what the operation uses of them. -/
theorem wellFormed_and_encode_of_decode {t : Transaction} {i : Instr} (h : decode t = .ok i) :
    i.wellFormed = true ∧ encode i = t.canonical := by
  obtain ⟨op, a, d⟩ := t
  unfold decode at h
  split at h
  -- BREAD8, BREAD16, BREAD32
  iterate 3 next hop => cases h; exact ⟨rfl, encode_eq_canonical hop (and_all a) BitVec.and_zero⟩
  -- BWRITE8
  next hop => cases h; exact ⟨rfl, encode_eq_canonical hop (and_all a) (and_lowMask d 8)⟩
  -- BWRITE16
  next hop => cases h; exact ⟨rfl, encode_eq_canonical hop (and_all a) (and_lowMask d 16)⟩
  -- BWRITE32
  next hop => cases h; exact ⟨rfl, encode_eq_canonical hop (and_all a) (and_all d)⟩
  -- RREAD
  next hop => cases h; exact ⟨rfl, encode_eq_canonical hop (and_all a) BitVec.and_zero⟩
  -- RWRITE
  next hop => cases h; exact ⟨rfl, encode_eq_canonical hop (and_all a) (and_all d)⟩
  -- FILLDONE0, FILLDONE1, XFERDONE, CMDDONE
  iterate 4 next hop => cases h; exact ⟨rfl, encode_eq_canonical hop BitVec.and_zero BitVec.and_zero⟩
  -- FGET
  next hop =>
    obtain ⟨rfl, ha, hid⟩ := decodeField_inv h
    exact ⟨hid, encode_eq_canonical hop ((and_all a).trans (setWidth_low_byte ha).symm) BitVec.and_zero⟩
  -- FSET
  next hop =>
    obtain ⟨rfl, ha, hid⟩ := decodeField_inv h
    exact ⟨hid, encode_eq_canonical hop ((and_all a).trans (setWidth_low_byte ha).symm) (and_all d)⟩
  -- DECADDR, DECFMT
  iterate 2 next hop => cases h; exact ⟨rfl, encode_eq_canonical hop BitVec.and_zero (and_all d)⟩
  -- FBLIVE
  next hop =>
    split at h
    next ha =>
      cases h
      exact ⟨rfl, encode_eq_canonical hop ((and_all a).trans (fblive_selectors ha).symm) BitVec.and_zero⟩
    next => cases h
  -- FBFMT
  next hop =>
    split at h
    next ha =>
      cases h
      exact ⟨rfl, encode_eq_canonical hop ((and_all a).trans (fbfmt_selector ha).symm) BitVec.and_zero⟩
    next => cases h
  -- INIT, TEARDOWN
  iterate 2 next hop => cases h; exact ⟨rfl, encode_eq_canonical hop BitVec.and_zero BitVec.and_zero⟩
  -- a reserved operation code
  next => cases h

/-- Settles O3, row by row of the operation table. -/
theorem decodedTransactionIsItsCanonicalEncoding : Obligations.DecodedTransactionIsItsCanonicalEncoding :=
  fun _ _ h => wellFormed_and_encode_of_decode h

/-! ### Reserved encodings -/

/-- A must-be-0 selector bit of FBLIVE is set (30_encoding.md R304). -/
theorem decode_fblive_of_le {a d : Word} (ha : 4 ≤ a.toNat) : decode ⟨0x50, a, d⟩ = .reject .nonzeroSelector :=
  if_neg (Nat.not_lt.mpr ha)

/-- A must-be-0 selector bit of FBFMT is set (30_encoding.md R304). -/
theorem decode_fbfmt_of_le {a d : Word} (ha : 2 ≤ a.toNat) : decode ⟨0x51, a, d⟩ = .reject .nonzeroSelector :=
  if_neg (Nat.not_lt.mpr ha)

/-- The operation codes of 30_encoding.md R303. -/
theorem opcode_listed (i : Instr) :
    i.opcode ∈ ([0x01, 0x02, 0x03, 0x05, 0x06, 0x07, 0x10, 0x11, 0x20, 0x21, 0x22, 0x23, 0x30, 0x31, 0x40, 0x41, 0x50, 0x51,
      0xF0, 0xF1] : List (BitVec 8)) := by
  cases i with
  | filldone u => cases u <;> simp [Instr.opcode]
  | _ => simp [Instr.opcode]

theorem opcode_of_decode {t : Transaction} {i : Instr} (h : decode t = .ok i) : i.opcode = t.op :=
  congrArg Transaction.op (wellFormed_and_encode_of_decode h).2

end Sys2Proof

namespace Sys2Proof.Machine

/-- A transaction that decodes to no instruction is refused (30_encoding.md R321). -/
theorem step_of_not_decoded {s : State} {t : Transaction} {rest : List Transaction} (hp : s.pending = t :: rest)
    (h : ∀ i, decode t ≠ .ok i) :
    step s = .next (State.refuse { s with pending := rest, position := s.position + 1 } t.op) := by
  rw [step_cons hp]
  split
  next i hi => exact absurd hi (h i)
  next => rfl

/-- Settles O4: were the transaction decoded, its operation code would be one of the table, its identifier a listed one
and its selector within its bits. -/
theorem reservedEncodingIsRefused : Obligations.ReservedEncodingIsRefused := by
  intro s t rest hp hres
  refine step_of_not_decoded hp fun i hi => ?_
  obtain hop | ⟨hop, hid⟩ | ⟨hop, ha⟩ | ⟨hop, ha⟩ := hres
  · exact hop (opcode_of_decode hi ▸ opcode_listed i)
  · obtain ⟨f, hf⟩ : ∃ f, decodeField t.a f = .ok i := by
      obtain ⟨op, a, d⟩ := t
      obtain rfl | rfl := hop
      · exact ⟨.fget, hi⟩
      · exact ⟨(.fset · d), hi⟩
    obtain ⟨-, hlt, hlisted⟩ := decodeField_inv hf
    obtain hge | hno := hid
    · exact absurd hge (Nat.not_le.mpr hlt)
    · simp [hno] at hlisted
  · obtain ⟨op, a, d⟩ := t
    subst hop
    cases (decode_fblive_of_le ha).symm.trans hi
  · obtain ⟨op, a, d⟩ := t
    subst hop
    cases (decode_fbfmt_of_le ha).symm.trans hi

/-! ### Sample transactions -/

/-- Settles O1, by running the decoder. -/
theorem sampleTransactionsDecode : Obligations.SampleTransactionsDecode := by
  unfold Obligations.SampleTransactionsDecode
  decide

/-! ### Encoded addresses -/

theorem decAddr_div_eight {P : Word} (h : P.toNat % 8 = 0) : decAddr (P / 8) = P := by
  apply BitVec.eq_of_toNat_eq
  have hdiv : (P / 8).toNat = P.toNat / 8 := BitVec.toNat_udiv
  rw [toNat_decAddr, hdiv]
  omega

/-- Decoding multiplies by 8, so 2^29 more in the raw value is 2^32 more in the address, which truncation drops
(30_encoding.md R310). -/
theorem decAddr_sub_two_pow_29 {v : Word} (h : 2 ^ 29 ≤ v.toNat) :
    decAddr (v - BitVec.ofNat 32 (2 ^ 29)) = decAddr v := by
  apply BitVec.eq_of_toNat_eq
  have hsub : (v - BitVec.ofNat 32 (2 ^ 29)).toNat = v.toNat - 2 ^ 29 := BitVec.toNat_sub_of_le h
  rw [toNat_decAddr, toNat_decAddr, hsub]
  omega

/-- Settles O27: division by 8 leaves less than 2^29, and decoding undoes it. -/
theorem encodedAddressesDecodeBack : Obligations.EncodedAddressesDecodeBack := by
  refine ⟨fun P h => ⟨?_, decAddr_div_eight h⟩, fun v h => (decAddr_sub_two_pow_29 h).symm⟩
  have hdiv : (P / 8).toNat = P.toNat / 8 := BitVec.toNat_udiv
  have hlt := P.isLt
  omega

end Sys2Proof.Machine
end

section
/-! PROOFS of the family 40_register_file.md: RREAD (O16), RWRITE (O17), the write-read law (O18), and that RWRITE and
FSET dispatch nothing (O19). The replies of the raw port and of FSET are said once, one equation per case. -/

namespace Sys2Proof.Machine

/-! ### The raw port, by the index check -/

theorem exec_rread_of_lt {s : State} {c : Context} (h : s.ctx = some c) {i : Word} (hi : i.toNat < 4096) :
    exec (.rread i) s = .next (s.replied c .ok (some (c.x.word i.toNat)) none) := by
  have hreply : replyOf (.rread i) s.params c = answer c (c.x.word i.toNat) := if_neg (Nat.not_le.mpr hi)
  rw [exec_of_context h _ (by simp), hreply]
  rfl

theorem exec_rread_of_le {s : State} {c : Context} (h : s.ctx = some c) {i : Word} (hi : 4096 ≤ i.toNat) :
    exec (.rread i) s = .next (s.replied c (.error (.outOfRange i)) none none) := by
  have hreply : replyOf (.rread i) s.params c = raise c (.outOfRange i) := if_pos hi
  rw [exec_of_context h _ (by simp), hreply]
  rfl

theorem replyOf_rwrite_of_lt {i : Word} (hi : i.toNat < 4096) (v : Word) (p : Params) (c : Context) :
    replyOf (.rwrite i v) p c = done { c with x := c.x.setWord i.toNat v } :=
  if_neg (Nat.not_le.mpr hi)

theorem replyOf_rwrite_of_le {i : Word} (hi : 4096 ≤ i.toNat) (v : Word) (p : Params) (c : Context) :
    replyOf (.rwrite i v) p c = raise c (.outOfRange i) :=
  if_pos hi

theorem exec_rwrite_of_lt {s : State} {c : Context} (h : s.ctx = some c) {i : Word} (hi : i.toNat < 4096) (v : Word) :
    exec (.rwrite i v) s = .next (s.replied { c with x := c.x.setWord i.toNat v } .ok none none) := by
  rw [exec_of_context h _ (by simp), replyOf_rwrite_of_lt hi]
  rfl

theorem exec_rwrite_of_le {s : State} {c : Context} (h : s.ctx = some c) {i : Word} (hi : 4096 ≤ i.toNat) (v : Word) :
    exec (.rwrite i v) s = .next (s.replied c (.error (.outOfRange i)) none none) := by
  rw [exec_of_context h _ (by simp), replyOf_rwrite_of_le hi]
  rfl

/-- Settles O16, by the index check of RREAD. -/
theorem rawReadReturnsTheWord : Obligations.RawReadReturnsTheWord := by
  intro s c i h
  exact ⟨rfl, rfl, exec_rread_of_lt h, exec_rread_of_le h⟩

/-- Settles O17: inside the array the window becomes `setWord` of the word, whose laws are the read and the frame. -/
theorem rawWriteStoresTheWord : Obligations.RawWriteStoresTheWord := by
  intro s c i v h
  refine ⟨rfl, rfl, rfl, fun hi => ?_, fun hi => exec_rwrite_of_le h hi v⟩
  exact ⟨c.x.setWord i.toNat v, exec_rwrite_of_lt h hi v, c.x.word_setWord_self _ v, fun _ hj => c.x.word_setWord_ne v hj,
    fun _ hb => c.x.byte_setWord_ne v hb⟩

/-- Settles O18: RREAD answers the word, which is the one RWRITE left, and RWRITE left the value. -/
theorem rawReadAfterRawWriteReturnsTheValue : Obligations.RawReadAfterRawWriteReturnsTheValue := by
  intro s s1 s2 c c1 c2 i v hi h hwrite h1 h2 hsame
  rw [exec_rwrite_of_lt h hi] at hwrite
  cases hwrite
  obtain rfl : { c with x := c.x.setWord i.toNat v } = c1 := Option.some.inj h1
  have hword : c2.x.word i.toNat = v := hsame.trans (c.x.word_setWord_self _ v)
  rw [exec_rread_of_lt h2 hi, hword]

/-! ### FSET, by its identifier and the width of the field -/

theorem replyOf_fset_of_reserved {id : BitVec 8} (hid : FieldId.ofCode id = none) (v : Word) (p : Params) (c : Context) :
    replyOf (.fset id v) p c = raise c (.invalidTransaction (Instr.opcode (.fset id v))) := by
  simp only [replyOf, hid]

/-- A value that fits is inserted into the field's word (41_packed_field.md R456). -/
theorem replyOf_fset_of_lt {id : BitVec 8} {f : FieldId} (hid : FieldId.ofCode id = some f) {v : Word} {p : Params}
    (hv : v.toNat < 2 ^ (fieldPos p f).width) (c : Context) :
    replyOf (.fset id v) p c = done { c with x := setFieldAt c.x (fieldPos p f) v } := by
  simp only [replyOf, hid, insertField_of_lt hv]
  rfl

/-- A value too wide is refused before the store (41_packed_field.md R456, 60_exceptions.md R803). -/
theorem replyOf_fset_of_le {id : BitVec 8} {f : FieldId} (hid : FieldId.ofCode id = some f) {v : Word} {p : Params}
    (hv : 2 ^ (fieldPos p f).width ≤ v.toNat) (c : Context) :
    replyOf (.fset id v) p c = raise c (.fieldOverflow v (fieldPos p f).width) := by
  simp only [replyOf, hid, insertField_of_le hv]

/-! ### Writes that do not dispatch -/

/-- The errors that, among the writes, only a hook raises (44_memory_fill.md R605, R606, 46_display_transfer.md R703,
47_command_processor.md R753). -/
def ErrorKind.IsOfHook : ErrorKind → Prop
  | .operationAlreadyInProgress _ | .invalidFillMode _ _ _ | .invalidFormatCode _ => True
  | _ => False

/-- The reply of a write that does not dispatch: the words alone change, or an error that is no hook's. -/
inductive PlainWrite (c : Context) : Reply → Prop where
  | stores (x : Memory) : PlainWrite c (done { c with x := x })
  | raises (e : ErrorKind) (he : ¬ e.IsOfHook) : PlainWrite c (raise c e)

theorem replyOf_rwrite_plainWrite (i v : Word) (p : Params) (c : Context) :
    PlainWrite c (replyOf (.rwrite i v) p c) := by
  obtain hi | hi := Nat.lt_or_ge i.toNat 4096
  · rw [replyOf_rwrite_of_lt hi]
    exact .stores _
  · rw [replyOf_rwrite_of_le hi]
    exact .raises _ not_false

theorem replyOf_fset_plainWrite (id : BitVec 8) (v : Word) (p : Params) (c : Context) :
    PlainWrite c (replyOf (.fset id v) p c) := by
  cases hid : FieldId.ofCode id with
  | none =>
    rw [replyOf_fset_of_reserved hid]
    exact .raises _ not_false
  | some f =>
    obtain hv | hv := Nat.lt_or_ge v.toNat (2 ^ (fieldPos p f).width)
    · rw [replyOf_fset_of_lt hid hv]
      exact .stores _
    · rw [replyOf_fset_of_le hid hv]
      exact .raises _ not_false

theorem PlainWrite.emitted_eq_none {c : Context} {r : Reply} (h : PlainWrite c r) : r.emitted = none := by
  cases h <;> rfl

/-- Only the words differ, so every operation state is as it was (40_register_file.md R403). -/
theorem PlainWrite.ctx_eq_withX {c : Context} {r : Reply} (h : PlainWrite c r) : ∃ x, r.ctx = { c with x := x } := by
  cases h with
  | stores x => exact ⟨x, rfl⟩
  | raises e he => exact ⟨c.x, rfl⟩

theorem PlainWrite.not_isOfHook {c : Context} {r : Reply} (h : PlainWrite c r) {e : ErrorKind}
    (he : r.status = .error e) : ¬ e.IsOfHook := by
  cases h with
  | stores x => cases he
  | raises e' he' =>
    cases he
    exact he'

/-- Settles O19: the reply of either instruction is a plain write. -/
theorem rawAndFieldWritesNeverDispatch : Obligations.RawAndFieldWritesNeverDispatch := by
  intro i s s' c hi h hexec
  have hplain : PlainWrite c (replyOf i s.params c) := by
    obtain ⟨j, v, rfl⟩ | ⟨id, v, rfl⟩ := hi
    · exact replyOf_rwrite_plainWrite ..
    · exact replyOf_fset_plainWrite ..
  have ht : i ≠ .teardown := by
    obtain ⟨j, v, rfl⟩ | ⟨id, v, rfl⟩ := hi <;> simp
  rw [exec_of_context h i ht] at hexec
  cases hexec
  obtain ⟨x, hx⟩ := hplain.ctx_eq_withX
  refine ⟨hplain.emitted_eq_none, ⟨x, congrArg some hx⟩, fun e hresp => ?_⟩
  have hno : ¬ e.IsOfHook := hplain.not_isOfHook (congrArg Response.status (Option.some.inj hresp))
  exact ⟨fun r hr => hno (hr ▸ trivial), fun u b24 b32 hr => hno (hr ▸ trivial), fun code hr => hno (hr ▸ trivial)⟩

end Sys2Proof.Machine
end

section
/-! PROOFS of the family 41_packed_field.md: the laws of PackedField (O20), FGET (O22) and FSET of a value that fits
(O23). What a field's place reads and what a store at it writes are said once, for every place and every window. -/

namespace Sys2Proof.Machine

/-- Settles O20: each law of R453 is the law of `extract` and `insertBits`, once the value fits. -/
theorem packedFieldLaws : Obligations.PackedFieldLaws := by
  intro w off wid _ hle
  have hwid : wid ≤ 32 := by omega
  refine ⟨?_, fun v hv => ⟨insertBits w off wid v, insertField_of_lt hv, extract_insertBits w v hle hv, ?_⟩⟩
  · rw [insertField_of_lt (extract_lt w off hwid), insertBits_extract w hwid]
  · intro off2 wid2 _ hle2 hdisjoint
    exact extract_insertBits_of_disjoint w v hv hle2 hdisjoint

/-! ### A place of a field, read and written -/

/-- The value at a place is the place's bits as a number, also at a width above 32: a word has no bit there. -/
theorem readsField_fieldAt (x : Memory) (q : FieldPos) : ReadsField x q (fieldAt x q) := by
  apply Nat.eq_of_testBit_eq
  intro j
  unfold fieldAt
  rw [BitVec.testBit_toNat, getLsbD_extract, Nat.testBit_mod_two_pow, Nat.testBit_div_two_pow, BitVec.testBit_toNat,
    Nat.add_comm]

theorem writesOnlyField_setFieldAt (x : Memory) (q : FieldPos) {v : Word} (hv : v.toNat < 2 ^ q.width) :
    WritesOnlyField x (setFieldAt x q v) q v := by
  refine ⟨fun j hj => ?_, fun k hk => word_setFieldAt_ne x q v hk, fun b hb => x.byte_setWord_ne _ hb⟩
  unfold setFieldAt
  rw [Memory.word_setWord_self]
  exact getLsbD_insertBits _ v q.lsb q.width j hj hv

/-! ### FGET and FSET, by the identifier -/

theorem exec_fget_of_reserved {s : State} {c : Context} (h : s.ctx = some c) {id : BitVec 8}
    (hid : FieldId.ofCode id = none) :
    exec (.fget id) s = .next (s.replied c (.error (.invalidTransaction 0x30)) none none) := by
  have hreply : replyOf (.fget id) s.params c = raise c (.invalidTransaction 0x30) := by
    simp only [replyOf, hid, Instr.opcode]
  rw [exec_of_context h _ (by simp), hreply]
  rfl

/-- A listed identifier reads the place of its field, whatever the layout (41_packed_field.md R455). -/
theorem exec_fget_of_field {s : State} {c : Context} (h : s.ctx = some c) {id : BitVec 8} {f : FieldId}
    (hid : FieldId.ofCode id = some f) : ∃ r,
      exec (.fget id) s = .next (s.replied c .ok (some r) none) ∧ ReadsField c.x (fieldPos s.params f) r := by
  have hreply : replyOf (.fget id) s.params c = answer c (fieldAt c.x (fieldPos s.params f)) := by
    simp only [replyOf, hid, field]
  refine ⟨fieldAt c.x (fieldPos s.params f), ?_, readsField_fieldAt _ _⟩
  rw [exec_of_context h _ (by simp), hreply]
  rfl

theorem exec_fset_of_reserved {s : State} {c : Context} (h : s.ctx = some c) {id : BitVec 8}
    (hid : FieldId.ofCode id = none) (v : Word) :
    exec (.fset id v) s = .next (s.replied c (.error (.invalidTransaction 0x31)) none none) := by
  rw [exec_of_context h _ (by simp), replyOf_fset_of_reserved hid]
  rfl

/-- A value that fits is stored at the place of the identifier's field, whatever the layout (41_packed_field.md R456). -/
theorem exec_fset_of_lt {s : State} {c : Context} (h : s.ctx = some c) {id : BitVec 8} {f : FieldId}
    (hid : FieldId.ofCode id = some f) {v : Word} (hv : v.toNat < 2 ^ (fieldPos s.params f).width) : ∃ x,
      exec (.fset id v) s = .next (s.replied { c with x := x } .ok none none)
        ∧ WritesOnlyField c.x x (fieldPos s.params f) v := by
  refine ⟨setFieldAt c.x (fieldPos s.params f) v, ?_, writesOnlyField_setFieldAt _ _ hv⟩
  rw [exec_of_context h _ (by simp), replyOf_fset_of_lt hid hv]
  rfl

/-- Settles O22: the identifier of a row names the row's field at the row's place, and FGET reads that place. -/
theorem fieldReadReturnsTheFieldsBits : Obligations.FieldReadReturnsTheFieldsBits := by
  intro s c id h
  refine ⟨fun f hid _ => exec_fget_of_field h hid, ?_, listedFieldCode_iff_row _ _ id,
    fun hno => exec_fget_of_reserved h (ofCode_of_not_listed hno)⟩
  rintro hlayout row hrow rfl
  have hid : FieldId.ofCode row.id = some row.field := ofCode_of_row hrow
  have hpos : fieldPos s.params row.field = row.pos := fieldPos_of_row hlayout hrow
  exact ⟨hid, hpos, hpos ▸ exec_fget_of_field h hid⟩

/-- Settles O23: the identifier of a row names the row's field at the row's place, and FSET writes only that place. -/
theorem fieldWriteSetsOnlyTheFieldsBits : Obligations.FieldWriteSetsOnlyTheFieldsBits := by
  intro s c id v h
  refine ⟨fun f hid _ hv => exec_fset_of_lt h hid hv, ?_, fun hno => exec_fset_of_reserved h (ofCode_of_not_listed hno) v⟩
  rintro hlayout - row hrow rfl hv
  have hpos : fieldPos s.params row.field = row.pos := fieldPos_of_row hlayout hrow
  rw [← hpos] at hv ⊢
  exact exec_fset_of_lt h (ofCode_of_row hrow) hv

end Sys2Proof.Machine
end

section
/-! PROOFS of the family 42_decoders.md: DECADDR (O24), DECFMT and its table (O25), and that both are pure (O26). The
reply of each decoder is said once, by its input. -/

namespace Sys2Proof.Machine

/-- A shift left by 3 bits multiplies by 8, truncated alike (42_decoders.md R501). -/
theorem decAddr_eq_shiftLeft (v : Word) : decAddr v = v <<< 3 := by
  apply BitVec.eq_of_toNat_eq
  rw [toNat_decAddr, BitVec.toNat_shiftLeft, Nat.shiftLeft_eq]

/-! ### The replies of the decoders -/

theorem exec_decaddr {s : State} {c : Context} (h : s.ctx = some c) (v : Word) :
    exec (.decaddr v) s = .next (s.replied c .ok (some (decAddr v)) none) :=
  exec_of_context h _ (by simp)

/-- A code below 5 is its own table index (42_decoders.md R503). -/
theorem answerFormat_of_lt (c : Context) {code : Word} (hcode : code.toNat < 5) :
    answerFormat c code = answer c code := by
  obtain ⟨f, hf, hindex⟩ := decFmt_index hcode
  simp only [answerFormat, hf, hindex]

theorem answerFormat_of_le (c : Context) {code : Word} (hcode : 5 ≤ code.toNat) :
    answerFormat c code = raise c (.invalidFormatCode code) := by
  simp only [answerFormat, decFmt_error hcode]

theorem exec_decfmt_of_lt {s : State} {c : Context} (h : s.ctx = some c) {code : Word} (hcode : code.toNat < 5) :
    exec (.decfmt code) s = .next (s.replied c .ok (some code) none) := by
  have hreply : replyOf (.decfmt code) s.params c = answer c code := answerFormat_of_lt c hcode
  rw [exec_of_context h _ (by simp), hreply]
  rfl

theorem exec_decfmt_of_le {s : State} {c : Context} (h : s.ctx = some c) {code : Word} (hcode : 5 ≤ code.toNat) :
    exec (.decfmt code) s = .next (s.replied c (.error (.invalidFormatCode code)) none none) := by
  have hreply : replyOf (.decfmt code) s.params c = raise c (.invalidFormatCode code) := answerFormat_of_le c hcode
  rw [exec_of_context h _ (by simp), hreply]
  rfl

/-! ### The obligations -/

/-- Settles O24, by the three forms of a decoded address. -/
theorem addressDecoderMultipliesByEight : Obligations.AddressDecoderMultipliesByEight := by
  intro s c v h
  exact ⟨rfl, rfl, decAddr v, exec_decaddr h v, toNat_decAddr v, decAddr_eq_shiftLeft v, decAddr_mod_eight v⟩

/-- Settles O25, by the bound of the table; its five rows are read off `decFmt`. -/
theorem formatDecoderLooksUpTheTable : Obligations.FormatDecoderLooksUpTheTable := by
  refine ⟨fun s c code h => ?_, rfl, rfl, rfl, rfl, rfl⟩
  exact ⟨rfl, rfl, exec_decfmt_of_lt h, exec_decfmt_of_le h⟩

/-- Settles O26: the response is fixed by the input alone, and a reply that keeps the context changes nothing else. -/
theorem decodersArePure : Obligations.DecodersArePure := by
  intro v
  refine ⟨⟨⟨.ok, some (decAddr v)⟩, fun s c h => ?_⟩, ?_⟩
  · rw [exec_decaddr h, State.replied_self h]
  · obtain hlt | hge := Nat.lt_or_ge v.toNat 5
    · refine ⟨⟨.ok, some v⟩, fun s c h => ?_⟩
      rw [exec_decfmt_of_lt h hlt, State.replied_self h]
    · refine ⟨⟨.error (.invalidFormatCode v), none⟩, fun s c h => ?_⟩
      rw [exec_decfmt_of_le h hge, State.replied_self h]

end Sys2Proof.Machine
end

section
/-! PROOFS of the family 43_access_dispatcher.md: the lanes a bus read returns (O28), the words no bus write is inspected
at (O33), and the bus layer's error policy (O58). -/

namespace Sys2Proof.Machine

/-! ### Bus reads -/

theorem memRead_w8 (x : Memory) (a : Word) :
    memRead x a .w8 = (x.word (a.toNat / 4) >>> (8 * (a.toNat % 4))) &&& 0xFF := rfl

theorem memRead_w16 (x : Memory) (a : Word) :
    memRead x a .w16 = (x.word (a.toNat / 4) >>> (8 * (a.toNat % 4))) &&& 0xFFFF := rfl

/-- An aligned 32-bit access reads its whole word (43_access_dispatcher.md R556, R562). -/
theorem memRead_w32 (x : Memory) {a : Word} (hal : a.toNat % 4 = 0) : memRead x a .w32 = x.word (a.toNat / 4) := by
  rw [memRead_eq_extract, hal]
  exact extract_full _

/-- Settles O28, width by width: an access that passes the check answers `memRead`. -/
theorem busReadsReturnTheLanes : Obligations.BusReadsReturnTheLanes := by
  intro s c a h ha
  refine ⟨?_, fun hal => ?_, fun hal => ?_⟩
  · rw [← memRead_w8]
    exact exec_busReadOf (w := .w8) h ha (Nat.mod_one _)
  · rw [← memRead_w16]
    exact exec_busReadOf (w := .w16) h ha hal
  · rw [← memRead_w32 c.x hal]
    exact exec_busReadOf (w := .w32) h ha hal

/-! ### Words without a trigger field -/

/-- Under a checked layout every trigger field lies in a word of FILL0, FILL1, XFER or CMD (10_state.md R104, R114). -/
theorem triggerField_word_of_layoutOk {p : Params} (hl : layoutOk p = true) (r : Region) :
    (0x004 ≤ (fieldPos p (triggerField r)).word ∧ (fieldPos p (triggerField r)).word < 0x00C)
      ∨ (0x300 ≤ (fieldPos p (triggerField r)).word ∧ (fieldPos p (triggerField r)).word < 0x30B)
      ∨ (0x638 ≤ (fieldPos p (triggerField r)).word ∧ (fieldPos p (triggerField r)).word < 0x63D) := by
  cases r with
  | fill0 =>
    obtain ⟨hlo, hhi⟩ := fill_word_of_layoutOk hl .fill0 .trigger
    exact .inl ⟨hlo, Nat.lt_of_lt_of_le hhi (by decide)⟩
  | fill1 =>
    obtain ⟨hlo, hhi⟩ := fill_word_of_layoutOk hl .fill1 .trigger
    exact .inl ⟨Nat.le_trans (by decide) hlo, hhi⟩
  | xfer => exact .inr (.inl (xfer_word_of_layoutOk hl .trigger))
  | cmd => exact .inr (.inr (cmd_word_of_layoutOk hl .trigger))

/-- Settles O33 from O32: no trigger field lies in the word, so the lanes of the write cover none. -/
theorem framebufferAndPaddingWritesOnlyStore : Obligations.FramebufferAndPaddingWritesOnlyStore := by
  intro s c w a v hl h ha hal hout
  refine writesCoveringNoTriggerOnlyStore s c w a v h ha hal fun r hr => ?_
  have hword := triggerField_word_of_layoutOk hl r
  omega

/-! ### The CPU bus layer -/

/-- Settles O58: each case is one row of `cpuSees`, the status first and then the policy. -/
theorem busErrorPolicyDecidesWhatTheCpuSees : Obligations.BusErrorPolicyDecidesWhatTheCpuSees := by
  intro policy draw v isRead e
  exact ⟨rfl, rfl, rfl, rfl, rfl⟩

end Sys2Proof.Machine
end

section
/-! PROOFS of the family 44_memory_fill.md: what a write at the control word of a fill unit does, case by case (O35, O36,
O37, O38), the completion FILLDONE (O39), that the two units are independent (O41), and that a fair completion ends every
started operation (O14). -/

namespace Sys2Proof.Machine

/-! ### FillMode on the two mode bits (44_memory_fill.md R606) -/

theorem fillMode_eq_ok {p : Params} (u : FillUnit) {b24 b32 : Bool} {mode : FillMode}
    (h : b24 = true ∧ b32 = false ∧ mode = .m24 ∨ b24 = false ∧ b32 = true ∧ mode = .m32
      ∨ b24 = false ∧ b32 = false ∧ p.fillNeitherIs16bit = true ∧ mode = .m16) :
    fillMode p u (if b24 then 1 else 0) (if b32 then 1 else 0) = .ok mode := by
  obtain ⟨rfl, rfl, rfl⟩ | ⟨rfl, rfl, rfl⟩ | ⟨rfl, rfl, hneither, rfl⟩ := h
  · rfl
  · rfl
  · simp [fillMode, hneither]

/-- Two equal mode bits are no mode, but for neither bit under FILL_NEITHER_IS_16BIT. -/
theorem fillMode_eq_error {p : Params} (u : FillUnit) {b : Bool} (h : b = false → p.fillNeitherIs16bit = false) :
    fillMode p u (if b then 1 else 0) (if b then 1 else 0)
      = .error (.invalidFillMode u (if b then 1 else 0) (if b then 1 else 0)) := by
  cases b with
  | true => rfl
  | false => simp [fillMode, h rfl]

/-! ### A write at the control word of a fill unit -/

/-- Settles O35: the write is a trigger write, the unit is Idle and the mode bits give the mode, so FillHook starts the
request, which is the one R607 writes over the words. -/
theorem fillTriggerStartsTheFill : Obligations.FillTriggerStartsTheFill := by
  intro s c u w a v x mode hl h hidle ha hv hx hmode
  have htrigger : isTriggerWrite x (lowLanes w) (fieldPos s.params (.fill u .trigger)) = true :=
    (isTriggerWrite_fill hl ha hx).trans hv
  have hok : fillMode s.params u (field s.params x (.fill u .fill24)) (field s.params x (.fill u .fill32)) = .ok mode := by
    obtain ⟨h24, h32⟩ := fillBits_eq hl x u
    rw [h24, h32]
    exact fillMode_eq_ok u hmode
  rw [exec_busWrite_fill hl h ha hx, fillHook_start { c with x := x } htrigger (by simpa using hidle) hok,
    fillRequest_eq hl]
  rfl

/-- Settles O36: a Busy unit answers a trigger write before it looks at the mode bits. -/
theorem fillRetriggerWhileBusyIsRejected : Obligations.FillRetriggerWhileBusyIsRejected := by
  intro s c u w a v q hl h hbusy ha hv
  generalize hx : c.x.setWord (fillBase u + 3) (storedLanes w (c.x.word (fillBase u + 3)) a v) = x
  have htrigger : isTriggerWrite x (lowLanes w) (fieldPos s.params (.fill u .trigger)) = true :=
    (isTriggerWrite_fill hl ha hx.symm).trans hv
  rw [exec_busWrite_fill hl h ha hx.symm, fillHook_busy { c with x := x } htrigger (by simpa using hbusy)]
  rfl

/-- Settles O37: the mode bits give no mode, and the store has left the value's bit 0 in trigger. -/
theorem invalidFillModeIsReported : Obligations.InvalidFillModeIsReported := by
  intro s c u w a v x b hl h hidle ha hv hx hb24 hb32 hneither
  have htrigger : isTriggerWrite x (lowLanes w) (fieldPos s.params (.fill u .trigger)) = true :=
    (isTriggerWrite_fill hl ha hx).trans hv
  have herror : fillMode s.params u (field s.params x (.fill u .fill24)) (field s.params x (.fill u .fill32))
      = .error (.invalidFillMode u (if b then 1 else 0) (if b then 1 else 0)) := by
    obtain ⟨h24, h32⟩ := fillBits_eq hl x u
    rw [h24, h32, hb24, hb32]
    exact fillMode_eq_error u hneither
  refine ⟨?_, ?_⟩
  · rw [exec_busWrite_fill hl h ha hx, fillHook_error { c with x := x } htrigger (by simpa using hidle) herror]
    rfl
  · rw [hx, Memory.word_setWord_self, getLsbD_zero_storedLanes _ _ _ _ (by omega), hv]

/-- Settles O38: a write that leaves trigger 0 is no trigger write. -/
theorem fillWriteOfZeroTriggerOnlyStores : Obligations.FillWriteOfZeroTriggerOnlyStores := by
  intro s c u w a v hl h ha hv
  generalize hx : c.x.setWord (fillBase u + 3) (storedLanes w (c.x.word (fillBase u + 3)) a v) = x
  have hno : isTriggerWrite x (lowLanes w) (fieldPos s.params (.fill u .trigger)) = false :=
    (isTriggerWrite_fill hl ha hx.symm).trans hv
  rw [exec_busWrite_fill hl h ha hx.symm, fillHook_of_no_trigger { c with x := x } hno]
  rfl

/-! ### FILLDONE -/

theorem replyOf_filldone_idle {c : Context} {u : FillUnit} (h : c.fillOp u = .idle) (p : Params) :
    replyOf (.filldone u) p c = raise c (.invalidTransaction (Instr.opcode (.filldone u))) := by
  simp only [replyOf, h]

theorem replyOf_filldone_busy {c : Context} {u : FillUnit} {q : FillRequest} (h : c.fillOp u = .busy q) (p : Params) :
    replyOf (.filldone u) p c = done ({ c with x := completeFill p c.x u }.setFillOp u .idle) := by
  simp only [replyOf, h]

/-- Clearing bits before setting them changes nothing more than setting them. -/
theorem and_not_or_self (v m : Word) : v &&& ~~~m ||| m = v ||| m := by
  ext j
  cases hm : m[j] <;> simp [hm]

/-- Clearing bit 0 and setting bit 1, field by field, is one update of the control word (44_memory_fill.md R610). -/
theorem insertBits_trigger_finished (old : Word) :
    insertBits (insertBits old 0 1 0) 1 1 1 = (old &&& ~~~1#32) ||| 2#32 := by
  have htrigger : insertBits old 0 1 0 = old &&& ~~~1#32 := by simp [insertBits, lowMask_one]
  rw [htrigger]
  exact and_not_or_self _ 2#32

/-- The completion under the layout the spec takes: trigger and finished lie in the one control word. -/
theorem completeFill_eq {p : Params} (hl : p.layout = Layout.spec) {x : Memory} (hx : x.wf) (u : FillUnit) :
    completeFill p x u = x.setWord (fillBase u + 3) ((x.word (fillBase u + 3) &&& ~~~1#32) ||| 2#32) := by
  have hfinished : fieldPos p (.fill u .finished) = ⟨fillBase u + 3, 1, 1⟩ := fieldPos_fill hl u .finished
  have hin : fillBase u + 3 < 4096 := by cases u <;> decide
  unfold completeFill setFieldAt
  rw [fieldPos_fill_trigger hl, hfinished]
  simp only [Memory.word_setWord_self, Memory.setWord_setWord hx hin, insertBits_trigger_finished]

/-- Settles O39, by the two replies of FILLDONE. -/
theorem fillCompletionSetsFinishedAndClearsTrigger : Obligations.FillCompletionSetsFinishedAndClearsTrigger := by
  intro s c u hl h
  refine ⟨fun q hx hbusy => ?_, fun hidle => ?_⟩
  · rw [exec_filldone_busy h hbusy, completeFill_eq hl hx]
  · rw [exec_of_context h _ (by simp), replyOf_filldone_idle hidle]
    cases u <;> rfl

/-! ### What a transaction on one fill unit reads and changes (44_memory_fill.md R613) -/

/-- Word k is one of the unit's four words (10_state.md R104). -/
def InFill (u : FillUnit) (k : Nat) : Prop := fillBase u ≤ k ∧ k < fillBase u + 4

theorem fillBase_disjoint {u other : FillUnit} (hne : other ≠ u) :
    fillBase other + 4 ≤ fillBase u ∨ fillBase u + 4 ≤ fillBase other := by
  cases u <;> cases other <;> simp [fillBase] at hne ⊢

theorem InFill.ne {u other : FillUnit} {j k : Nat} (hj : InFill other j) (hk : InFill u k) (hne : other ≠ u) : j ≠ k := by
  have hdisjoint := fillBase_disjoint hne
  unfold InFill at hj hk
  omega

theorem inFill_of_layoutOk {p : Params} (hl : layoutOk p = true) (u : FillUnit) (f : FillField) :
    InFill u (fieldPos p (.fill u f)).word := fill_word_of_layoutOk hl u f

/-- The unit has the same words and the same operation state in two contexts. -/
structure SameFill (u : FillUnit) (c d : Context) : Prop where
  words : ∀ k, InFill u k → d.x.word k = c.x.word k
  op : d.fillOp u = c.fillOp u

theorem SameFill.refl (u : FillUnit) (c : Context) : SameFill u c c := ⟨fun _ _ => rfl, rfl⟩

theorem SameFill.trans {u : FillUnit} {c d e : Context} (h : SameFill u c d) (h' : SameFill u d e) : SameFill u c e :=
  ⟨fun k hk => (h'.words k hk).trans (h.words k hk), h'.op.trans h.op⟩

/-- A store into the other unit's words. -/
theorem sameFill_setWord {u other : FillUnit} (hne : other ≠ u) {k : Nat} (hk : InFill u k) (c : Context) (v : Word) :
    SameFill other c { c with x := c.x.setWord k v } :=
  ⟨fun _ hj => Memory.word_setWord_ne _ _ (hj.ne hk hne), Context.fillOp_withX ..⟩

theorem sameFill_setFillOp {u other : FillUnit} (hne : other ≠ u) (c : Context) (o : OpState FillRequest) :
    SameFill other c (c.setFillOp u o) :=
  ⟨fun _ _ => by rw [Context.setFillOp_x], Context.fillOp_setFillOp_ne c hne o⟩

/-- The completion of a unit stores into its own words only. -/
theorem sameFill_completeFill {p : Params} (hl : layoutOk p = true) {u other : FillUnit} (hne : other ≠ u) (c : Context) :
    SameFill other c { c with x := completeFill p c.x u } :=
  (sameFill_setWord hne (inFill_of_layoutOk hl u .trigger) c _).trans
    (sameFill_setWord hne (inFill_of_layoutOk hl u .finished) _ _)

/-- One of the unit's words replaced by a function of itself, in both contexts. -/
theorem SameFill.modifyWord {u : FillUnit} {c d : Context} (h : SameFill u c d) {k : Nat} (hk : InFill u k)
    (g : Word → Word) : SameFill u { c with x := c.x.setWord k (g (c.x.word k)) }
      { d with x := d.x.setWord k (g (d.x.word k)) } := by
  refine ⟨fun j hj => ?_, by simpa using h.op⟩
  simp only [Memory.word_setWord, h.words j hj, h.words k hk]

/-- The completion of a unit reads its own words only. -/
theorem SameFill.completeFill {p : Params} (hl : layoutOk p = true) {u : FillUnit} {c d : Context} (h : SameFill u c d) :
    SameFill u { c with x := completeFill p c.x u } { d with x := completeFill p d.x u } :=
  (h.modifyWord (inFill_of_layoutOk hl u .trigger) (insertBits · _ _ 0)).modifyWord
    (inFill_of_layoutOk hl u .finished) (insertBits · _ _ 1)

theorem SameFill.setFillOp {u : FillUnit} {c d : Context} (h : SameFill u c d) (o : OpState FillRequest) :
    SameFill u (c.setFillOp u o) (d.setFillOp u o) :=
  ⟨by simpa using h.words, by simp⟩

/-- A named field of the unit has the same value. -/
theorem SameFill.field {p : Params} (hl : layoutOk p = true) {u : FillUnit} {c d : Context} (h : SameFill u c d)
    (f : FillField) : field p d.x (.fill u f) = field p c.x (.fill u f) :=
  fieldAt_congr (h.words _ (inFill_of_layoutOk hl u f))

theorem SameFill.fillRequest {p : Params} (hl : layoutOk p = true) {u : FillUnit} {c d : Context} (h : SameFill u c d)
    (m : FillMode) : fillRequest p d.x u m = fillRequest p c.x u m := by
  simp only [Machine.fillRequest, decodedField, fillValue, h.field hl]

theorem SameFill.isTriggerWrite {p : Params} (hl : layoutOk p = true) {u : FillUnit} {c d : Context}
    (h : SameFill u c d) (m : Word) :
    isTriggerWrite d.x m (fieldPos p (.fill u .trigger)) = isTriggerWrite c.x m (fieldPos p (.fill u .trigger)) := by
  have hfield : fieldAt d.x (fieldPos p (.fill u .trigger)) = fieldAt c.x (fieldPos p (.fill u .trigger)) :=
    h.field hl .trigger
  simp only [Machine.isTriggerWrite, hfield]

/-- A reply that depends on unit u only, through its words and operation state, and leaves the other unit alone. -/
structure LocalToFill (u : FillUnit) (f : Context → Reply) : Prop where
  frame : ∀ (other : FillUnit) (c : Context), other ≠ u → SameFill other c (f c).ctx
  reads : ∀ c d : Context, SameFill u c d → SameFill u (f c).ctx (f d).ctx ∧ (f d).status = (f c).status
    ∧ (f d).result = (f c).result ∧ (f d).emitted = (f c).emitted

theorem localToFill_done (u : FillUnit) : LocalToFill u done :=
  ⟨fun _ _ _ => .refl _ _, fun _ _ h => ⟨h, rfl, rfl, rfl⟩⟩

theorem localToFill_raise (u : FillUnit) (e : ErrorKind) : LocalToFill u (raise · e) :=
  ⟨fun _ _ _ => .refl _ _, fun _ _ h => ⟨h, rfl, rfl, rfl⟩⟩

/-- What follows a store into one of the unit's words. -/
theorem LocalToFill.afterStore {u : FillUnit} {f : Context → Reply} (h : LocalToFill u f) {k : Nat} (hk : InFill u k)
    (g : Word → Word) : LocalToFill u (fun c => f { c with x := c.x.setWord k (g (c.x.word k)) }) :=
  ⟨fun _ c hne => (sameFill_setWord hne hk c _).trans (h.frame _ _ hne), fun _ _ hcd => h.reads _ _ (hcd.modifyWord hk g)⟩

/-- FillHook stores nothing and moves its own unit only. -/
theorem sameFill_fillHook (p : Params) {u other : FillUnit} (hne : other ≠ u) (c : Context) (m : Word) :
    SameFill other c (fillHook p c u m).ctx := by
  refine ⟨fun _ _ => by rw [fillHook_x], ?_⟩
  unfold fillHook
  split
  · split
    · rfl
    · split
      · rfl
      · exact Context.fillOp_setFillOp_ne c hne _
  · rfl

/-- FillHook, by the trigger test, the operation state and the mode, each of which reads the unit alone. -/
theorem localToFill_fillHook {p : Params} (hl : layoutOk p = true) (u : FillUnit) (m : Word) :
    LocalToFill u (fillHook p · u m) := by
  refine ⟨fun other c hne => sameFill_fillHook p hne c m, fun c d hcd => ?_⟩
  cases htrigger : isTriggerWrite c.x m (fieldPos p (.fill u .trigger)) with
  | false =>
    rw [fillHook_of_no_trigger c htrigger, fillHook_of_no_trigger d ((hcd.isTriggerWrite hl m).trans htrigger)]
    exact (localToFill_done u).reads c d hcd
  | true =>
    have htrigger' := (hcd.isTriggerWrite hl m).trans htrigger
    cases hop : c.fillOp u with
    | busy q =>
      rw [fillHook_busy c htrigger hop, fillHook_busy d htrigger' (hcd.op.trans hop)]
      exact (localToFill_raise u _).reads c d hcd
    | idle =>
      have hmode' : fillMode p u (field p d.x (.fill u .fill24)) (field p d.x (.fill u .fill32))
          = fillMode p u (field p c.x (.fill u .fill24)) (field p c.x (.fill u .fill32)) := by
        rw [hcd.field hl, hcd.field hl]
      cases hmode : fillMode p u (field p c.x (.fill u .fill24)) (field p c.x (.fill u .fill32)) with
      | error e =>
        rw [fillHook_error c htrigger hop hmode,
          fillHook_error d htrigger' (hcd.op.trans hop) (hmode'.trans hmode)]
        exact (localToFill_raise u e).reads c d hcd
      | ok mode =>
        rw [fillHook_start c htrigger hop hmode,
          fillHook_start d htrigger' (hcd.op.trans hop) (hmode'.trans hmode), hcd.fillRequest hl]
        exact ⟨hcd.setFillOp _, rfl, rfl, rfl⟩

/-- At a word of a fill unit the inspection is the unit's own hook or nothing: the other trigger fields lie in the words
of their own regions (10_state.md R114). -/
theorem inspect_inFill {p : Params} (hl : layoutOk p = true) {u : FillUnit} {k : Nat} (hk : InFill u k) (c : Context)
    (m v : Word) :
    inspect p c k m v = if k = (fieldPos p (.fill u .trigger)).word then fillHook p c u m else done c := by
  have h0 := inFill_of_layoutOk hl .fill0 .trigger
  have h1 := inFill_of_layoutOk hl .fill1 .trigger
  have hxfer := xfer_word_of_layoutOk hl .trigger
  have hcmd := cmd_word_of_layoutOk hl .trigger
  have hlt : k < 0x300 := by
    obtain ⟨-, hhi⟩ := hk
    cases u <;> simp only [fillBase] at hhi <;> omega
  unfold inspect
  rw [if_neg (show k ≠ (fieldPos p (.xfer .trigger)).word by omega),
    if_neg (show k ≠ (fieldPos p (.cmd .trigger)).word by omega)]
  cases u with
  | fill0 => rw [if_neg (hk.ne h1 (by decide))]
  | fill1 => rw [if_neg (hk.ne h0 (by decide))]

theorem localToFill_inspect {p : Params} (hl : layoutOk p = true) {u : FillUnit} {k : Nat} (hk : InFill u k)
    (m v : Word) : LocalToFill u (inspect p · k m v) := by
  simp only [inspect_inFill hl hk]
  split
  · exact localToFill_fillHook hl u m
  · exact localToFill_done u

theorem localToFill_busWrite {p : Params} (hl : layoutOk p = true) {u : FillUnit} (w : Width) {a : Word}
    (ha : InFill u (a.toNat / 4)) (v : Word) : LocalToFill u (replyOf (busWriteOf w a v) p) := by
  have hreply : replyOf (busWriteOf w a v) p = busWrite w a (carried w v) p := funext (replyOf_busWriteOf w a v p)
  rw [hreply]
  unfold busWrite
  split
  · exact localToFill_raise u _
  · exact (localToFill_inspect hl ha _ _).afterStore ha (mergeLanes · a w (carried w v))

theorem localToFill_filldone {p : Params} (hl : layoutOk p = true) (u : FillUnit) :
    LocalToFill u (replyOf (.filldone u) p) := by
  refine ⟨fun other c hne => ?_, fun c d hcd => ?_⟩
  · cases hop : c.fillOp u with
    | idle => rw [replyOf_filldone_idle hop]; exact .refl _ _
    | busy q =>
      rw [replyOf_filldone_busy hop]
      exact (sameFill_completeFill hl hne c).trans (sameFill_setFillOp hne _ _)
  · cases hop : c.fillOp u with
    | idle =>
      rw [replyOf_filldone_idle hop, replyOf_filldone_idle (hcd.op.trans hop)]
      exact (localToFill_raise u _).reads c d hcd
    | busy q =>
      rw [replyOf_filldone_busy hop, replyOf_filldone_busy (hcd.op.trans hop)]
      exact (localToFill_done u).reads _ _ ((hcd.completeFill hl).setFillOp .idle)

/-- Settles O41: the reply of either instruction is local to its unit. -/
theorem fillUnitsAreIndependent : Obligations.FillUnitsAreIndependent := by
  intro s t s' t' c d c' d' u other i hne hl hp hc hd hi hwords hop hs ht hc' hd'
  have hlocal : LocalToFill u (replyOf i s.params) := by
    obtain rfl | ⟨w, a, v, rfl, hlo, hhi⟩ := hi
    · exact localToFill_filldone hl u
    · exact localToFill_busWrite hl w ⟨hlo, hhi⟩ v
  have hnt : i ≠ .teardown := by
    obtain rfl | ⟨w, a, v, rfl, -⟩ := hi
    · simp
    · exact busWriteOf_ne_teardown w a v
  rw [exec_of_context hc i hnt] at hs
  rw [exec_of_context hd i hnt, hp] at ht
  cases hs
  cases ht
  cases hc'
  cases hd'
  have hother := hlocal.frame other c hne
  obtain ⟨hsame, hstatus, hresult, hemitted⟩ := hlocal.reads c d ⟨fun k hk => hwords k hk.1 hk.2, hop⟩
  refine ⟨hother.op, fun k hlo hhi => hother.words k ⟨hlo, hhi⟩, hsame.op, ?_, hemitted,
    fun k hlo hhi => hsame.words k ⟨hlo, hhi⟩⟩
  simp only [State.finish_response, hstatus, hresult]

/-! ### A completion ends the operation -/

/-- After the completion transaction of a region the region is Idle, whether it was Busy or not (44_memory_fill.md R610,
46_display_transfer.md R712, 47_command_processor.md R758). -/
theorem held_replyOf_completionOf (r : Region) (p : Params) (c : Context) :
    (replyOf (completionOf r) p c).ctx.held r = none := by
  have fillCase : ∀ u, (replyOf (.filldone u) p c).ctx.held (fillRegion u) = none := by
    intro u
    cases hop : c.fillOp u with
    | idle => rw [replyOf_filldone_idle hop]; exact Context.held_fillRegion_of_idle hop
    | busy q => rw [replyOf_filldone_busy hop]; exact Context.held_setFillOp_idle _ u
  cases r with
  | fill0 => exact fillCase .fill0
  | fill1 => exact fillCase .fill1
  | xfer => cases hop : c.xfer <;> simp [completionOf, replyOf, Context.held, hop]
  | cmd => cases hop : c.cmd <;> simp [completionOf, replyOf, Context.held, hop]

theorem isBusy_of_exec_completionOf {r : Region} {s s' : State} (h : exec (completionOf r) s = .next s') :
    s'.isBusy r = false := by
  cases hc : s.ctx with
  | none =>
    rw [exec_of_no_context hc _ (by cases r <;> simp [completionOf])] at h
    cases h
    simp [State.isBusy, hc]
  | some c =>
    rw [exec_of_context hc _ (by cases r <;> simp [completionOf])] at h
    cases h
    exact (Context.not_busy_iff_held _ r).mpr (held_replyOf_completionOf r s.params c)

theorem Completes.idle_next {e : Nat → State} {r : Region} {n : Nat} (h : Completes e r n) :
    (e (n + 1)).isBusy r = false := by
  obtain ⟨⟨t, rest, hpending, hdecode⟩, hstep⟩ := h
  rw [step_cons hpending, hdecode] at hstep
  exact isBusy_of_exec_completionOf hstep

/-- Settles O14: were the region Busy for ever, fairness would give a completion, and the region is Idle after it. -/
theorem everyStartedOperationCompletes : Obligations.EveryStartedOperationCompletes := by
  intro e r _ hfair n _
  refine Classical.byContradiction fun hnever => ?_
  have hbusy : ∀ m, n ≤ m → (e m).isBusy r = true := by
    intro m hm
    rw [← Bool.not_eq_false]
    exact fun hidle => hnever ⟨m, hm, hidle⟩
  obtain ⟨m, hm, hcompletes⟩ := hfair n hbusy
  exact hnever ⟨m + 1, Nat.le_succ_of_le hm, hcompletes.idle_next⟩

end Sys2Proof.Machine
end

section
/-! PROOFS of the family 45_framebuffer.md: FBLIVE (O42), FBFMT (O43), the immediate swap (O44), and that a unit's reads
depend on its own words only (O45). The reply of each read under the layout the spec takes is said once, over the
words. -/

namespace Sys2Proof.Machine

/-! ### FBLIVE, over the words of the unit -/

/-- active_fb is bit 0 of its word (10_state.md R111). -/
theorem activeFb_eq_zero_iff {p : Params} (hl : p.layout = Layout.spec) (x : Memory) (f : FbUnit) :
    field p x (.fb f .activeFb) = 0 ↔ (x.word (fbBase f + 0x07)).getLsbD 0 = false := by
  unfold field
  rw [fieldPos_fb hl, ← Bool.not_eq_true, ← extract_bit_ne_zero]
  exact Decidable.not_not.symm

/-- The live address field is a whole word, the one bit 0 of active_fb selects (45_framebuffer.md R651, R653). -/
theorem fieldPos_liveField {p : Params} (hl : p.layout = Layout.spec) (x : Memory) (f : FbUnit) (e : Eye) :
    fieldPos p (liveField p x f e) = ⟨liveWord f ((x.word (fbBase f + 0x07)).getLsbD 0) e, 0, 32⟩ := by
  have hzero := activeFb_eq_zero_iff hl x f
  cases hbit : (x.word (fbBase f + 0x07)).getLsbD 0 with
  | false => cases e <;> simp only [liveField, if_pos (hzero.mpr hbit), fieldPos_fb hl] <;> rfl
  | true =>
    have hne : field p x (.fb f .activeFb) ≠ 0 := fun h => by cases (hzero.mp h).symm.trans hbit
    cases e <;> simp only [liveField, if_neg hne, fieldPos_fb hl] <;> rfl

theorem exec_fblive {s : State} {c : Context} (hl : s.params.layout = Layout.spec) (h : s.ctx = some c) (f : FbUnit)
    (e : Eye) :
    exec (.fblive f e) s = .next (s.replied c .ok
      (some (c.x.word (liveWord f ((c.x.word (fbBase f + 0x07)).getLsbD 0) e) * 8)) none) := by
  have haddr : decodedField s.params c.x (liveField s.params c.x f e)
      = c.x.word (liveWord f ((c.x.word (fbBase f + 0x07)).getLsbD 0) e) * 8 := by
    unfold decodedField field
    rw [fieldPos_liveField hl, fieldAt_whole]
    rfl
  rw [exec_of_context h _ (by simp), ← haddr]
  rfl

/-- Settles O42: FBLIVE reads the word `liveWord` names, row by row. -/
theorem liveAddressFollowsActiveFb : Obligations.LiveAddressFollowsActiveFb := by
  intro s c f hl h
  refine ⟨fun hbit => ⟨?_, ?_⟩, fun hbit => ⟨?_, ?_⟩⟩
  all_goals
    rw [exec_fblive hl h, hbit]
    rfl

/-! ### FBFMT -/

/-- color_format is the low 3 bits of its word (45_framebuffer.md R655). -/
theorem colorFormat_eq {p : Params} (hl : p.layout = Layout.spec) (x : Memory) (f : FbUnit) :
    field p x (.fb f .colorFormat) = x.word (fbBase f + 0x05) &&& 7 := by
  unfold field
  rw [fieldPos_fb hl]
  exact extract_zero _ 3

theorem replyOf_fbfmt {p : Params} (hl : p.layout = Layout.spec) (f : FbUnit) (c : Context) :
    replyOf (.fbfmt f) p c = answerFormat c (c.x.word (fbBase f + 0x05) &&& 7) :=
  congrArg (answerFormat c) (colorFormat_eq hl c.x f)

/-- The low 3 bits as a number. -/
theorem toNat_and_seven (v : Word) : (v &&& 7).toNat = v.toNat % 8 := by
  rw [BitVec.toNat_and]
  exact Nat.and_two_pow_sub_one_eq_mod _ 3

/-- Settles O43, by the bound of the format table on the low 3 bits. -/
theorem framebufferFormatIsTheLowThreeBits : Obligations.FramebufferFormatIsTheLowThreeBits := by
  intro s c f hl h
  rw [exec_of_context h _ (by simp), replyOf_fbfmt hl, ← toNat_and_seven]
  refine ⟨fun hlt => ?_, fun hge => ?_⟩
  · rw [answerFormat_of_lt c hlt]
    rfl
  · rw [answerFormat_of_le c hge]
    rfl

/-! ### The swap -/

/-- No trigger field lies in an active_fb word (45_framebuffer.md R652). -/
theorem triggerField_word_ne_activeFb {p : Params} (hl : p.layout = Layout.spec) (r : Region) (f : FbUnit) :
    (fieldPos p (triggerField r)).word ≠ fbBase f + 0x07 := by
  cases r with
  | fill0 => rw [triggerField, fieldPos_fill_trigger hl]; cases f <;> decide
  | fill1 => rw [triggerField, fieldPos_fill_trigger hl]; cases f <;> decide
  | xfer => rw [triggerField, fieldPos_xfer_trigger hl]; cases f <;> decide
  | cmd => rw [triggerField, fieldPos_cmd_trigger hl]; cases f <;> decide

/-- The address words are apart from the active_fb word. -/
theorem liveWord_ne_activeFb (f : FbUnit) (second : Bool) (e : Eye) : liveWord f second e ≠ fbBase f + 0x07 := by
  cases e <;> cases second <;> simp [liveWord]

/-- After a store to the active_fb word, bit 0 of the value selects among the address words there were before. -/
theorem word_liveWord_setWord_activeFb (x : Memory) (f : FbUnit) (e : Eye) (v : Word) :
    (x.setWord (fbBase f + 0x07) v).word
        (liveWord f (((x.setWord (fbBase f + 0x07) v).word (fbBase f + 0x07)).getLsbD 0) e)
      = x.word (liveWord f (v.getLsbD 0) e) := by
  rw [Memory.word_setWord_self, Memory.word_setWord_ne _ _ (liveWord_ne_activeFb f _ e)]

/-- Settles O44 from O32: the write only stores, the address words keep their values, and bit 0 of the stored word is
the selection. -/
theorem framebufferSwapIsImmediate : Obligations.FramebufferSwapIsImmediate := by
  intro s c f w a v hl h ha hal
  have hlt : a.toNat < 0x4000 := by cases f <;> simp only [fbBase] at ha <;> omega
  have hstore := writesCoveringNoTriggerOnlyStore s c w a v h hlt hal fun r hr =>
    absurd (hr.trans ha) (triggerField_word_ne_activeFb hl r f)
  rw [ha] at hstore
  refine ⟨c.x.setWord (fbBase f + 0x07) (storedLanes w (c.x.word (fbBase f + 0x07)) a v), hstore, fun e => ?_⟩
  rw [exec_fblive (s := s.replied _ .ok none none) hl rfl, word_liveWord_setWord_activeFb, getLsbD_zero_storedLanes_ite]
  rfl

/-! ### What the reads of a unit depend on (45_framebuffer.md R657) -/

/-- The unit has the same 64 words in two windows (10_state.md R104). -/
def SameFb (f : FbUnit) (x y : Memory) : Prop :=
  ∀ k, fbBase f ≤ k → k < fbBase f + 64 → y.word k = x.word k

theorem SameFb.field {p : Params} (hl : layoutOk p = true) {f : FbUnit} {x y : Memory} (h : SameFb f x y)
    (g : FbField) : field p y (.fb f g) = field p x (.fb f g) := by
  obtain ⟨hlo, hhi⟩ := fb_word_of_layoutOk hl f g
  exact fieldAt_congr (h _ hlo hhi)

/-- The same field is live, and it is a field of the unit itself. -/
theorem SameFb.replyOf_fblive {p : Params} (hl : layoutOk p = true) {f : FbUnit} {c d : Context}
    (h : SameFb f c.x d.x) (e : Eye) :
    replyOf (.fblive f e) p d = answer d (decodedField p c.x (liveField p c.x f e)) := by
  refine congrArg (answer d ∘ decAddr) ?_
  cases e
  all_goals
    simp only [liveField, h.field hl]
    split <;> exact h.field hl _

/-- Decoding one code in two contexts ends with the same status and result. -/
theorem answerFormat_response (c d : Context) (code : Word) :
    (answerFormat d code).status = (answerFormat c code).status
      ∧ (answerFormat d code).result = (answerFormat c code).result := by
  unfold answerFormat
  split <;> exact ⟨rfl, rfl⟩

/-- Settles O45: the reply of either read gives the same status and result in the two contexts. -/
theorem framebufferUnitsAreIndependent : Obligations.FramebufferUnitsAreIndependent := by
  intro s t s' t' c d f i hl hp hc hd hi hwords hs ht
  have hsame : SameFb f c.x d.x := hwords
  have hreply : (replyOf i s.params d).status = (replyOf i s.params c).status
      ∧ (replyOf i s.params d).result = (replyOf i s.params c).result := by
    obtain ⟨e, rfl⟩ | rfl := hi
    · rw [hsame.replyOf_fblive hl]
      exact ⟨rfl, rfl⟩
    · simp only [replyOf, hsame.field hl]
      exact answerFormat_response c d _
  have hnt : i ≠ .teardown := by
    obtain ⟨e, rfl⟩ | rfl := hi <;> simp
  rw [exec_of_context hc i hnt] at hs
  rw [exec_of_context hd i hnt, hp] at ht
  cases hs
  cases ht
  simp only [State.finish_response, hreply]

end Sys2Proof.Machine
end

section
/-! PROOFS of the family 46_display_transfer.md: what a write at the trigger word of XFER does, case by case (O46, O47, O48),
the completion XFERDONE (O49), and the line arithmetic of a texture copy as numbers (O50). -/

namespace Sys2Proof.Machine

/-! ### The request without raw copy, by the two format codes (46_display_transfer.md R706, R707) -/

section
variable {p : Params} (hl : p.layout = Layout.spec) {x : Memory} (hraw : (x.word 0x304).getLsbD 3 = false)
include hl hraw

theorem xferRequest_of_formats {fin fout : PixelFormat} (hin : formatOf (inputCode x).toNat = some fin)
    (hout : formatOf (outputCode x).toNat = some fout) :
    xferRequest p x = .ok (xferRequestOf p.convertToTiledBit x (some fin) (some fout) none) := by
  rw [xferRequest_formats hl hraw, decFmt_of_formatOf hin, decFmt_of_formatOf hout]

theorem xferRequest_of_bad_input (hin : 5 ≤ (inputCode x).toNat) :
    xferRequest p x = .error (.invalidFormatCode (inputCode x)) := by
  rw [xferRequest_formats hl hraw, decFmt_error hin]

theorem xferRequest_of_bad_output (hin : (inputCode x).toNat < 5) (hout : 5 ≤ (outputCode x).toNat) :
    xferRequest p x = .error (.invalidFormatCode (outputCode x)) := by
  obtain ⟨fin, hfin, -⟩ := decFmt_index hin
  rw [xferRequest_formats hl hraw, hfin, decFmt_error hout]

end

/-! ### A nonzero write at the trigger word, by the operation state and the request (46_display_transfer.md R703) -/

section
variable {s : State} {c : Context} (hl : s.params.layout = Layout.spec) (h : s.ctx = some c)
  {w : Width} {a v : Word} (ha : a.toNat / 4 = 0x306) (hal : a.toNat % widthBytes w = 0) (hv : carried w v ≠ 0)
  {x : Memory} (hx : x = c.x.setWord 0x306 (storedLanes w (c.x.word 0x306) a v))
include hl h ha hal hv hx

theorem exec_xferTrigger_busy {q : XferRequest} (hbusy : c.xfer = .busy q) :
    exec (busWriteOf w a v) s
      = .next (s.replied { c with x := x } (.error (.operationAlreadyInProgress .xfer)) none none) := by
  rw [exec_busWrite_xfer hl h ha hal hx, xferHook_busy { c with x := x } hv (covers_xfer_trigger hl hal) hbusy]
  rfl

theorem exec_xferTrigger_error (hidle : c.xfer = .idle) {e : ErrorKind} (he : xferRequest s.params x = .error e) :
    exec (busWriteOf w a v) s = .next (s.replied { c with x := x } (.error e) none none) := by
  rw [exec_busWrite_xfer hl h ha hal hx, xferHook_error { c with x := x } hv (covers_xfer_trigger hl hal) hidle he]
  rfl

theorem exec_xferTrigger_start (hidle : c.xfer = .idle) {q : XferRequest} (hq : xferRequest s.params x = .ok q) :
    exec (busWriteOf w a v) s
      = .next (s.replied { c with x := x, xfer := .busy q } .ok none (some (.xfer q))) := by
  rw [exec_busWrite_xfer hl h ha hal hx, xferHook_start { c with x := x } hv (covers_xfer_trigger hl hal) hidle hq]
  rfl

end

/-- Settles O46: an Idle XFER starts the request, which `xferRequest_raw` and `xferRequest_of_formats` give over the
words. -/
theorem transferTriggerStartsTheTransfer : Obligations.TransferTriggerStartsTheTransfer := by
  intro s c w a v x hl h hidle ha hal hv hx
  refine ⟨fun hraw => ?_, fun fin fout hraw hin hout => ?_⟩
  · exact exec_xferTrigger_start hl h ha hal hv hx hidle (xferRequest_raw hl hraw)
  · exact exec_xferTrigger_start hl h ha hal hv hx hidle (xferRequest_of_formats hl hraw hin hout)

/-- Settles O47: Busy is answered before the request is derived; the request ends with the first bad code. -/
theorem rejectedTransferTriggers : Obligations.RejectedTransferTriggers := by
  intro s c w a v x hl h ha hal hv hx
  refine ⟨fun q hbusy => ?_, fun hidle hraw hin => ?_, fun hidle hraw hin hout => ?_⟩
  · exact exec_xferTrigger_busy hl h ha hal hv hx hbusy
  · exact exec_xferTrigger_error hl h ha hal hv hx hidle (xferRequest_of_bad_input hl hraw hin)
  · exact exec_xferTrigger_error hl h ha hal hv hx hidle (xferRequest_of_bad_output hl hraw hin hout)

/-- Settles O48: XferHook tests the value written, not the word, and does nothing on 0. -/
theorem transferWriteOfZeroOnlyStores : Obligations.TransferWriteOfZeroOnlyStores := by
  intro s c w a v hl h ha hal hv
  rw [exec_busWrite_xfer hl h ha hal rfl, hv, xferHook_of_zero]
  rfl

/-! ### XFERDONE -/

theorem replyOf_xferdone_idle {c : Context} (h : c.xfer = .idle) (p : Params) :
    replyOf .xferdone p c = raise c (.invalidTransaction (Instr.opcode .xferdone)) := by
  simp only [replyOf, h]

theorem replyOf_xferdone_busy {c : Context} {q : XferRequest} (h : c.xfer = .busy q) (p : Params) :
    replyOf .xferdone p c = done { c with x := completeXfer p c.x, xfer := .idle } := by
  simp only [replyOf, h]

/-- Inserting a field that is the whole word leaves nothing of the old word. -/
theorem insertBits_whole (old v : Word) : insertBits old 0 32 v = v := by
  rw [← extract_full (insertBits old 0 32 v)]
  exact extract_insertBits old v (by decide) v.isLt

/-- The completion under the layout the spec takes: the trigger field is the whole word (46_display_transfer.md R702). -/
theorem completeXfer_eq {p : Params} (hl : p.layout = Layout.spec) (x : Memory) :
    completeXfer p x = x.setWord 0x306 0 := by
  unfold completeXfer setFieldAt
  rw [fieldPos_xfer_trigger hl, insertBits_whole]

/-- Settles O49, by the two replies of XFERDONE. -/
theorem transferCompletionClearsTheTriggerWord : Obligations.TransferCompletionClearsTheTriggerWord := by
  intro s c hl h
  rw [exec_of_context h _ (by simp)]
  refine ⟨fun q hbusy => ?_, fun hidle => ?_⟩
  · rw [replyOf_xferdone_busy hbusy, completeXfer_eq hl]
    rfl
  · rw [replyOf_xferdone_idle hidle]
    rfl

/-! ### The line arithmetic of a texture copy as numbers (46_display_transfer.md R708, R711) -/

/-- Sixteen times a 16-bit count fits a word. -/
theorem toNat_mul_sixteen {v : Word} (hv : v.toNat < 2 ^ 16) : (v * 16#32).toNat = v.toNat * 16 := by
  rw [BitVec.toNat_mul, BitVec.toNat_ofNat]
  omega

/-- The bytes of a line: the low half of the size word in units of 16. -/
theorem toNat_lineBytes (v : Word) : ((v &&& 0xFFFF#32) * 16#32).toNat = v.toNat % 2 ^ 16 * 16 := by
  have hlow : (v &&& 0xFFFF#32).toNat = v.toNat % 2 ^ 16 := by
    rw [BitVec.toNat_and]
    exact Nat.and_two_pow_sub_one_eq_mod _ 16
  rw [toNat_mul_sixteen (by omega), hlow]

/-- The padding bytes of a line: the high half of the size word in units of 16. -/
theorem toNat_paddingBytes (v : Word) : ((v >>> 16) * 16#32).toNat = v.toNat / 2 ^ 16 * 16 := by
  have hhigh : (v >>> 16).toNat = v.toNat / 2 ^ 16 := by
    rw [BitVec.toNat_ushiftRight, Nat.shiftRight_eq_div_pow]
  rw [toNat_mul_sixteen (by omega), hhigh]

/-- The most a line and its padding take, each count being 0xFFFF at most. -/
theorem lineTotal_le (v : Word) : v.toNat % 2 ^ 16 * 16 + v.toNat / 2 ^ 16 * 16 ≤ 0x1FFFE0 := by
  omega

theorem toNat_totalBytes (v : Word) :
    ((v &&& 0xFFFF#32) * 16#32 + (v >>> 16) * 16#32).toNat = v.toNat % 2 ^ 16 * 16 + v.toNat / 2 ^ 16 * 16 := by
  have hle := lineTotal_le v
  rw [BitVec.toNat_add, toNat_lineBytes, toNat_paddingBytes, Nat.mod_eq_of_lt (by omega)]

/-- Settles O50: each number of the record is one of three functions of the size word 0x309 or 0x30A. -/
theorem textureCopyLineMathNeverWraps : Obligations.TextureCopyLineMathNeverWraps := by
  intro p x hl
  rw [textureCopy_eq hl]
  have hle (v : Word) : ((v &&& 0xFFFF#32) * 16#32 + (v >>> 16) * 16#32).toNat ≤ 0x1FFFE0 :=
    Nat.le_trans (Nat.le_of_eq (toNat_totalBytes v)) (lineTotal_le v)
  exact ⟨toNat_lineBytes _, toNat_paddingBytes _, toNat_totalBytes _, toNat_lineBytes _, toNat_paddingBytes _,
    toNat_totalBytes _, hle _, hle _⟩

end Sys2Proof.Machine
end

section
/-! PROOFS of the family 47_command_processor.md: what a write at the trigger word of CMD does, case by case (O51, O52),
and the completion CMDDONE (O53). -/

namespace Sys2Proof.Machine

/-! ### A write at the trigger word of CMD -/

/-- Settles O51: the write is a trigger write and CMD is Idle, so CmdHook starts the request, which is the one R753 and
R757 write over the words. -/
theorem commandTriggerLaunchesTheList : Obligations.CommandTriggerLaunchesTheList := by
  intro s c w a v x q hl h hidle ha hv hx hq
  have htrigger : isTriggerWrite x (lowLanes w) (fieldPos s.params (.cmd .trigger)) = true :=
    (isTriggerWrite_cmd hl ha hx).trans hv
  have hrequest : cmdRequest s.params x = q := (cmdRequest_eq hl x).trans hq.symm
  rw [exec_busWrite_cmd hl h ha hx, cmdHook_start { c with x := x } htrigger hidle, hrequest]
  rfl

/-- Settles O52: a trigger write finds CMD Busy, and a write that leaves the trigger 0 is no trigger write. -/
theorem otherCommandTriggerWritesOnlyStore : Obligations.OtherCommandTriggerWritesOnlyStore := by
  intro s c w a v x hl h ha hx
  have htrigger : isTriggerWrite x (lowLanes w) (fieldPos s.params (.cmd .trigger)) = v.getLsbD 0 :=
    isTriggerWrite_cmd hl ha hx
  rw [exec_busWrite_cmd hl h ha hx]
  refine ⟨fun q hbusy hv => ?_, fun hv => ?_⟩
  · rw [cmdHook_busy { c with x := x } (htrigger.trans hv) hbusy]
    rfl
  · rw [cmdHook_of_no_trigger { c with x := x } (htrigger.trans hv)]
    rfl

/-! ### CMDDONE -/

theorem replyOf_cmddone_idle {c : Context} (h : c.cmd = .idle) (p : Params) :
    replyOf .cmddone p c = raise c (.invalidTransaction (Instr.opcode .cmddone)) := by
  simp only [replyOf, h]

theorem replyOf_cmddone_busy {c : Context} {q : CmdRequest} (h : c.cmd = .busy q) (p : Params) :
    replyOf .cmddone p c = done { c with x := completeCmd p c.x, cmd := .idle } := by
  simp only [replyOf, h]

/-- Inserting 0 at the lowest bit clears it and keeps bits 31..1. -/
theorem insertBits_lowest_zero (old : Word) : insertBits old 0 1 0 = old &&& ~~~1#32 := by
  simp [insertBits, lowMask_one]

/-- The completion under the layout the spec takes: the trigger is bit 0 of its word (10_state.md R113). -/
theorem completeCmd_eq {p : Params} (hl : p.layout = Layout.spec) (x : Memory) :
    completeCmd p x = x.setWord 0x63C (x.word 0x63C &&& ~~~1#32) := by
  unfold completeCmd setFieldAt
  rw [fieldPos_cmd_trigger hl, insertBits_lowest_zero]

/-- Settles O53, by the two replies of CMDDONE. -/
theorem commandCompletionClearsTheTriggerBit : Obligations.CommandCompletionClearsTheTriggerBit := by
  intro s c hl h
  rw [exec_of_context h _ (by simp)]
  refine ⟨fun q hbusy => ?_, fun hidle => ?_⟩
  · rw [replyOf_cmddone_busy hbusy, completeCmd_eq hl]
    rfl
  · rw [replyOf_cmddone_idle hidle]
    rfl

end Sys2Proof.Machine
end

section
/-! PROOFS of the family 60_exceptions.md: what a request port receives (O11), the completion of a Busy region (O15), that
earlier responses have no part in a step (O6), and the causes of FieldOverflow (O21) and OutOfRange (O29). -/

namespace Sys2Proof.Machine

/-! ### Emissions (60_exceptions.md R820) -/

/-- A reply that emits starts some region: it was Idle and now holds the request emitted. -/
theorem Effect.starts_of_emitted {i : Instr} {p : Params} {c : Context} {reply : Reply} {q : Request}
    (he : Effect i p c reply) (hq : reply.emitted = some q) :
    ∃ r, c.isBusy r = false ∧ reply.ctx.held r = some q := by
  cases he with
  | unchanged st res => cases hq
  | stored k v st hk hw => cases hq
  | fillStarts u k v m hk hi hidle hm =>
    refine ⟨fillRegion u, (c.not_busy_iff_held _).mpr (Context.held_fillRegion_of_idle hidle), ?_⟩
    exact (Context.held_setFillOp_busy ..).trans hq
  | xferStarts k v q' hk hi hidle hq' => exact ⟨.xfer, (c.not_busy_iff_held _).mpr (by simp [Context.held, hidle]), hq⟩
  | cmdStarts k v hk hi hidle => exact ⟨.cmd, (c.not_busy_iff_held _).mpr (by simp [Context.held, hidle]), hq⟩
  | fillCompletes u q' hi hbusy => cases hq
  | xferCompletes q' hi hbusy => cases hq
  | cmdCompletes q' hi hbusy => cases hq

/-- A region that goes from Idle to Busy emits the request it then holds. -/
theorem HeldMove.emitted_of_starts {i : Instr} {p : Params} {c : Context} {reply : Reply} {r : Region} {q : Request}
    (h : HeldMove i p c reply r) (hidle : c.isBusy r = false) (hq : reply.ctx.held r = some q) :
    reply.emitted = some q := by
  cases h with
  | stays hheld =>
    have hnone : c.held r = none := (c.not_busy_iff_held r).mp hidle
    simp [hheld, hnone] at hq
  | starts hidle' hi hst hres hem => exact hem.trans hq
  | completes hi hheld => simp [hheld] at hq

/-- Settles O11: over a context an emission and a move from Idle to Busy come together, and only a reply over a context
emits. -/
theorem emissionIsOneRequestPerStart : Obligations.EmissionIsOneRequestPerStart := by
  intro i s s' h
  cases exec_inv h with
  | refused hnone | constructed hnone hi hl | violation hnone hi =>
    exact ⟨fun c c' hc => by simp [hnone] at hc, fun _ => rfl⟩
  | destroyed d words hd hi hb hw => exact ⟨fun c c' _ hc' => (by cases hc'), fun _ => rfl⟩
  | replied d hd reply he =>
    refine ⟨fun c c' hc hc' q => ?_, by simp [hd]⟩
    obtain rfl : d = c := Option.some.inj (hd.symm.trans hc)
    obtain rfl : reply.ctx = c' := Option.some.inj hc'
    exact ⟨he.starts_of_emitted, fun ⟨r, hidle, hq⟩ => (he.heldMove r).emitted_of_starts hidle hq⟩

/-! ### Completions (60_exceptions.md R821) -/

theorem completionOf_ne_teardown (r : Region) : completionOf r ≠ .teardown := by cases r <;> simp [completionOf]

theorem completionOf_ne_busWriteOf (r : Region) (w : Width) (a v : Word) : completionOf r ≠ busWriteOf w a v := by
  cases w <;> cases r <;> simp [completionOf, busWriteOf]

theorem completionOf_injective : Function.Injective completionOf := by
  intro r r' h
  cases r <;> cases r' <;> simp [completionOf] at h ⊢

/-- The completion of a Busy region is answered OK without data. -/
theorem replyOf_completionOf_busy {c : Context} {r : Region} (h : c.isBusy r = true) (p : Params) :
    (replyOf (completionOf r) p c).status = .ok ∧ (replyOf (completionOf r) p c).result = none := by
  have fillCase : ∀ u, c.isBusy (fillRegion u) = true →
      (replyOf (.filldone u) p c).status = .ok ∧ (replyOf (.filldone u) p c).result = none := by
    intro u hu
    cases hop : c.fillOp u with
    | idle => simp [Context.isBusy, Context.held_fillRegion_of_idle hop] at hu
    | busy q => rw [replyOf_filldone_busy hop]; exact ⟨rfl, rfl⟩
  cases r with
  | fill0 => exact fillCase .fill0 h
  | fill1 => exact fillCase .fill1 h
  | xfer =>
    cases hop : c.xfer with
    | idle => simp [Context.isBusy, Context.held, hop] at h
    | busy q => rw [completionOf, replyOf_xferdone_busy hop]; exact ⟨rfl, rfl⟩
  | cmd =>
    cases hop : c.cmd with
    | idle => simp [Context.isBusy, Context.held, hop] at h
    | busy q => rw [completionOf, replyOf_cmddone_busy hop]; exact ⟨rfl, rfl⟩

/-- A completion leaves every other region as it was. -/
theorem held_replyOf_completionOf_ne {r r' : Region} (hne : r' ≠ r) (p : Params) (c : Context) :
    (replyOf (completionOf r) p c).ctx.held r' = c.held r' := by
  cases (replyOf_effect (completionOf r) p c).heldMove r' with
  | stays hheld => exact hheld
  | starts hidle hi hst hres hem =>
    obtain ⟨w, a, v, hwrite, -⟩ := hi
    exact absurd hwrite (completionOf_ne_busWriteOf r w a v)
  | completes hi hheld => exact absurd (completionOf_injective hi).symm hne

/-- Settles O15, by the reply of the completion. -/
theorem completionOfABusyRegionSucceeds : Obligations.CompletionOfABusyRegionSucceeds := by
  intro s c r hc hbusy
  obtain ⟨hstatus, hresult⟩ := replyOf_completionOf_busy hbusy s.params
  refine ⟨_, _, exec_of_context hc _ (completionOf_ne_teardown r), rfl, by simp [hstatus, hresult], ?_, ?_⟩
  · exact (Context.not_busy_iff_held _ r).mpr (held_replyOf_completionOf r s.params c)
  · exact fun r' hne => held_replyOf_completionOf_ne hne s.params c

/-! ### Earlier responses and emissions (60_exceptions.md R813, R814) -/

/-- An instruction overwrites the response and the emission and reads neither. -/
theorem exec_congr_ports (i : Instr) (s : State) (r : Option Response) (q : Option Request) :
    exec i { s with response := r, emitted := q } = exec i s := by
  obtain hc | ⟨c, hc⟩ := Option.eq_none_or_eq_some s.ctx
  · by_cases hi : i = .init
    · subst hi
      cases hl : layoutOk s.params with
      | true => exact (execInit_ok hc hl).trans (execInit_ok hc hl).symm
      | false => exact (execInit_violation hc hl).trans (execInit_violation hc hl).symm
    · exact (exec_of_no_context hc i hi).trans (exec_of_no_context hc i hi).symm
  · by_cases ht : i = .teardown
    · subst ht
      cases hb : c.anyBusy with
      | true => exact (execTeardown_busy hc hb).trans (execTeardown_busy hc hb).symm
      | false => exact (execTeardown_idle hc hb).trans (execTeardown_idle hc hb).symm
    · exact (exec_of_context hc i ht).trans (exec_of_context hc i ht).symm

/-- Settles O6: a step is total, and the instruction or the refusal it ends with reads no response and no emission. -/
theorem errorsDoNotAffectLaterTransactions : Obligations.ErrorsDoNotAffectLaterTransactions := by
  intro s
  refine ⟨step_total s, fun hne r q => ?_⟩
  obtain ⟨t, rest, hp⟩ := List.exists_cons_of_ne_nil hne
  rw [step_cons hp, step_cons (s := { s with response := r, emitted := q }) hp]
  cases decode t with
  | ok i => exact exec_congr_ports i { s with pending := rest, position := s.position + 1 } r q
  | reject e => rfl

/-! ### FieldOverflow (60_exceptions.md R803) -/

theorem checkAccess_ne_fieldOverflow (a : Word) (w : Width) (value : Word) (width : Nat) :
    checkAccess a w ≠ some (.fieldOverflow value width) := by
  unfold checkAccess
  split
  · simp
  · split <;> simp

theorem busRead_ne_fieldOverflow (w : Width) (a : Word) (c : Context) (value : Word) (width : Nat) :
    (busRead w a c).status ≠ .error (.fieldOverflow value width) := by
  unfold busRead
  split
  next e he =>
    intro h
    cases h
    exact checkAccess_ne_fieldOverflow _ _ _ _ he
  next => simp

theorem answerFormat_ne_fieldOverflow (c : Context) (code value : Word) (width : Nat) :
    (answerFormat c code).status ≠ .error (.fieldOverflow value width) := by
  unfold answerFormat
  split
  next e he =>
    intro h
    cases h
    exact decFmt_ne_fieldOverflow _ _ _ he
  next => simp

/-- No reply but FSET's is FieldOverflow. -/
theorem replyOf_ne_fieldOverflow {i : Instr} (hi : ∀ id v, i ≠ .fset id v) (p : Params) (c : Context) (value : Word)
    (width : Nat) : (replyOf i p c).status ≠ .error (.fieldOverflow value width) := by
  cases i with
  | bread8 a | bread16 a | bread32 a => exact busRead_ne_fieldOverflow _ _ _ _ _
  | bwrite8 a v | bwrite16 a v | bwrite32 a v => exact busWrite_ne_fieldOverflow _ _ _ _ _ _ _
  | rread j | rwrite j v | filldone u | xferdone | cmddone | fget id => simp only [replyOf]; split <;> simp
  | fset id v => exact absurd rfl (hi id v)
  | decfmt code | fbfmt f => exact answerFormat_ne_fieldOverflow _ _ _ _
  | decaddr v | fblive f e | init | teardown => simp [replyOf]

/-- Over a context an instruction is answered as its reply is, or OK when it is the TEARDOWN of an Idle context. -/
theorem response_of_exec_context {i : Instr} {s s' : State} {c : Context} (hc : s.ctx = some c)
    (h : exec i s = .next s') :
    s'.response = some ⟨.ok, none⟩
      ∨ s'.response = some ⟨(replyOf i s.params c).status, (replyOf i s.params c).result⟩ := by
  by_cases ht : i = .teardown
  · subst ht
    cases hb : c.anyBusy with
    | true => rw [execTeardown_busy hc hb] at h; cases h; exact .inr rfl
    | false => rw [execTeardown_idle hc hb] at h; cases h; exact .inl rfl
  · rw [exec_of_context hc i ht] at h
    cases h
    exact .inr rfl

/-- Settles O21: `insertField` and FSET refuse the wide value, and no other instruction's response is FieldOverflow. -/
theorem fieldOverflowOnlyFromInsert : Obligations.FieldOverflowOnlyFromInsert := by
  refine ⟨fun w v off wid hv => if_pos hv, fun s c id f v h hid hv => ?_, fun i s s' value width r hi h => ?_⟩
  · rw [exec_of_context h _ (by simp), replyOf_fset_of_le hid hv]
    rfl
  · cases exec_inv h with
    | refused | constructed | violation | destroyed => simp
    | replied c hc reply he =>
      obtain hresp | hresp := response_of_exec_context hc h
      · rw [hresp]
        simp
      · rw [hresp]
        simp [replyOf_ne_fieldOverflow hi]

/-! ### OutOfRange (60_exceptions.md R801) -/

/-- Settles O29: outside the window the address check fails before the alignment is looked at, and so does the index
check of the raw port. -/
theorem outsideTheWindowIsOutOfRange : Obligations.OutsideTheWindowIsOutOfRange := by
  intro s c a h
  refine ⟨fun ha => ?_, fun ha => ⟨exec_rread_of_le h ha, exec_rwrite_of_le h ha⟩⟩
  have hread : ∀ w, exec (busReadOf w a) s = .next (s.replied c (.error (.outOfRange a)) none none) :=
    fun w => exec_busReadOf_error h (checkAccess_outOfRange ha w)
  have hwrite : ∀ w v, exec (busWriteOf w a v) s = .next (s.replied c (.error (.outOfRange a)) none none) :=
    fun w v => exec_busWriteOf_error h v (checkAccess_outOfRange ha w)
  refine ⟨hread .w8, hread .w16, hread .w32, fun v => ?_, fun v => ?_, hwrite .w32⟩
  · rw [← busWriteOf_setWidth_8]
    exact hwrite .w8 _
  · rw [← busWriteOf_setWidth_16]
    exact hwrite .w16 _

end Sys2Proof.Machine
end

section
/-! PROOFS of the family 70_reset_and_hazards.md: the parameters (O9), the layout assertions (O55), INIT (O54), TEARDOWN
(O56), the refusals with no context (O57), and the machine after reset (O8). -/

namespace Sys2Proof.Machine

/-! ### Parameters -/

theorem exec_keeps_params {i : Instr} {s s' : State} (h : exec i s = .next s') : s'.params = s.params := by
  cases exec_inv h with
  | refused | constructed | violation | destroyed | replied => rfl

/-- Settles O9: no instruction and no refusal writes a parameter. -/
theorem stepKeepsTheParameters : Obligations.StepKeepsTheParameters := by
  intro s s' h
  obtain rfl | ⟨t, rest, -, ⟨i, -, hexec⟩ | rfl⟩ := step_inv h
  · rfl
  · exact (exec_keeps_params hexec :)
  · rfl

/-! ### The layout assertions (70_reset_and_hazards.md R902, 10_state.md R114) -/

theorem layoutOk_iff (p : Params) :
    layoutOk p = true ↔
      p.layout.wordCount = 4096 ∧ p.layout.regions = RegionTable.spec ∧ fieldLayoutOk p = true := by
  unfold layoutOk
  simp only [Bool.and_eq_true, beq_iff_eq, and_assoc]

theorem viewInside_iff (p : Params) (u : FillUnit) (f : FillField) :
    viewInside p u f = true ↔
      (fieldPos p (.fill u f)).word = (fieldPos p (.fill u .value32)).word
      ∧ (fieldPos p (.fill u .value32)).lsb ≤ (fieldPos p (.fill u f)).lsb
      ∧ (fieldPos p (.fill u f)).lsb + (fieldPos p (.fill u f)).width
          ≤ (fieldPos p (.fill u .value32)).lsb + (fieldPos p (.fill u .value32)).width := by
  unfold viewInside
  simp only [Bool.and_eq_true, decide_eq_true_eq, and_assoc]

theorem fillField_mem_all (f : FillField) : f ∈ FillField.all := by cases f <;> decide

/-- The fields pass region by region, and the value forms of either fill unit are views of value_32bit. -/
theorem fieldLayoutOk_iff (p : Params) :
    fieldLayoutOk p = true ↔
      (∀ f, regionFieldsOk p (siblings f) = true)
      ∧ ∀ (u : FillUnit) (f : FillField), f.isValueForm = true → viewInside p u f = true := by
  have hview : (FillField.all.all fun f => !f.isValueForm || (viewInside p .fill0 f && viewInside p .fill1 f)) = true ↔
      ∀ (u : FillUnit) (f : FillField), f.isValueForm = true → viewInside p u f = true := by
    simp only [List.all_eq_true, Bool.or_eq_true, Bool.not_eq_true', Bool.and_eq_true]
    constructor
    · intro h u f hf
      obtain ⟨h0, h1⟩ := (h f (fillField_mem_all f)).resolve_left (by simp [hf])
      cases u with
      | fill0 => exact h0
      | fill1 => exact h1
    · intro h f _
      cases hf : f.isValueForm with
      | false => exact .inl rfl
      | true => exact .inr ⟨h .fill0 f hf, h .fill1 f hf⟩
  unfold fieldLayoutOk
  simp only [Bool.and_eq_true, hview]
  refine and_congr_left fun _ => ?_
  constructor
  · intro ⟨⟨⟨⟨⟨hfill0, hfill1⟩, hfb0⟩, hfb1⟩, hxfer⟩, hcmd⟩ f
    cases f with
    | fill u f =>
      cases u with
      | fill0 => exact hfill0
      | fill1 => exact hfill1
    | fb u f =>
      cases u with
      | fb0 => exact hfb0
      | fb1 => exact hfb1
    | xfer f => exact hxfer
    | cmd f => exact hcmd
  · intro h
    exact ⟨⟨⟨⟨⟨h (.fill .fill0 .trigger), h (.fill .fill1 .trigger)⟩, h (.fb .fb0 .width)⟩, h (.fb .fb1 .width)⟩,
      h (.xfer .trigger)⟩, h (.cmd .trigger)⟩

/-- Fields that are well placed and share no bit unless a table allows it pass as the fields of one region. -/
theorem regionFieldsOk_of_forall {p : Params} (hplaced : ∀ f, wellPlaced (fieldPos p f) (regionRow p.layout f) = true)
    (hdisjoint : ∀ f g, f ≠ g → mayAlias f g = false → overlaps (fieldPos p f) (fieldPos p g) = false)
    (fs : List FieldId) : regionFieldsOk p fs = true := by
  unfold regionFieldsOk
  simp only [List.all_eq_true, Bool.and_eq_true, Bool.or_eq_true, beq_iff_eq, Bool.not_eq_true']
  refine fun f _ => ⟨hplaced f, fun g _ => ?_⟩
  by_cases hne : f = g
  · exact .inl (.inl hne)
  cases ha : mayAlias f g with
  | true => exact .inr rfl
  | false => exact .inl (.inr (hdisjoint f g hne ha))

/-- The fields of the region a word belongs to, the rows of R104 in the order of their offsets (10_state.md R104); a word
of no region is counted to a neighbour. -/
def fieldsAt (k : Nat) : List FieldId :=
  if k < 0x008 then siblings (.fill .fill0 .trigger)
  else if k < 0x00C then siblings (.fill .fill1 .trigger)
  else if k < 0x157 then siblings (.fb .fb0 .width)
  else if k < 0x300 then siblings (.fb .fb1 .width)
  else if k < 0x638 then siblings (.xfer .trigger)
  else siblings (.cmd .trigger)

/-- The rows of R104 do not meet, so the word of a field gives the region of the field. -/
theorem fieldsAt_word {p : Params} (hl : layoutOk p = true) (f : FieldId) : fieldsAt (fieldPos p f).word = siblings f := by
  have hword := word_of_layoutOk hl f
  unfold fieldsAt
  cases f with
  | fill u f =>
    cases u with
    | fill0 =>
      change 0x004 ≤ _ ∧ _ < 0x008 at hword
      rw [if_pos hword.2]; rfl
    | fill1 =>
      change 0x008 ≤ _ ∧ _ < 0x00C at hword
      rw [if_neg (by omega), if_pos hword.2]; rfl
  | fb u f =>
    cases u with
    | fb0 =>
      change 0x117 ≤ _ ∧ _ < 0x157 at hword
      rw [if_neg (by omega), if_neg (by omega), if_pos hword.2]; rfl
    | fb1 =>
      change 0x157 ≤ _ ∧ _ < 0x197 at hword
      rw [if_neg (by omega), if_neg (by omega), if_neg (by omega), if_pos (by omega)]; rfl
  | xfer f =>
    change 0x300 ≤ _ ∧ _ < 0x30B at hword
    rw [if_neg (by omega), if_neg (by omega), if_neg (by omega), if_neg (by omega), if_pos (by omega)]; rfl
  | cmd f =>
    change 0x638 ≤ _ ∧ _ < 0x63D at hword
    rw [if_neg (by omega), if_neg (by omega), if_neg (by omega), if_neg (by omega), if_neg (by omega)]; rfl

/-- Fields with one word are fields of one region. -/
theorem mem_siblings_of_word_eq {p : Params} (hl : layoutOk p = true) {f g : FieldId}
    (h : (fieldPos p f).word = (fieldPos p g).word) : g ∈ siblings f := by
  rw [← fieldsAt_word hl f, h, fieldsAt_word hl g]
  exact mem_siblings g

/-- Settles O55. The assertions compare the fields of one region at a time; fields of two regions have no word in
common. -/
theorem layoutAssertionsAreTheRegionTableAndFieldRules :
    Obligations.LayoutAssertionsAreTheRegionTableAndFieldRules := by
  intro p
  constructor
  · intro hl
    obtain ⟨hcount, hregions, hfields⟩ := (layoutOk_iff p).mp hl
    obtain ⟨-, hviews⟩ := (fieldLayoutOk_iff p).mp hfields
    refine ⟨hcount, hregions, fun f => (wellPlaced_iff _ _).mp (wellPlaced_of_layoutOk hl f), ?_, ?_⟩
    · exact fun f g hne ha hword => disjoint_of_layoutOk hl (mem_siblings_of_word_eq hl hword) hne ha hword
    · exact fun u f hf => (viewInside_iff p u f).mp (hviews u f hf)
  · intro ⟨hcount, hregions, hplaced, hdisjoint, hviews⟩
    have hregion : ∀ f, regionFieldsOk p (siblings f) = true := fun f =>
      regionFieldsOk_of_forall (fun f => (wellPlaced_iff _ _).mpr (hplaced f))
        (fun f g hne ha => (overlaps_false_iff _ _).mpr (hdisjoint f g hne ha)) (siblings f)
    exact (layoutOk_iff p).mpr
      ⟨hcount, hregions, (fieldLayoutOk_iff p).mpr ⟨hregion, fun u f hf => (viewInside_iff p u f).mpr (hviews u f hf)⟩⟩

/-! ### The lifetime of the context (70_reset_and_hazards.md R901, R904, R905) -/

/-- Settles O54, by the three equations of INIT. -/
theorem initConstructsTheContext : Obligations.InitConstructsTheContext := by
  intro s
  refine ⟨fun hnone hl => execInit_ok hnone hl, fun hnone hl => ?_, fun c hc => exec_of_context hc .init (by simp)⟩
  rw [execInit_violation hnone hl, ← hnone]
  rfl

/-- Settles O56, by the two equations of TEARDOWN with a context. -/
theorem teardownDestroysAnIdleContext : Obligations.TeardownDestroysAnIdleContext := by
  intro s c hc
  refine ⟨fun hidle => ?_, fun r hbusy => ?_⟩
  · exact ⟨_, execTeardown_idle hc ((Context.anyBusy_false_iff c).mpr hidle), wf_drawInitWords _⟩
  · have hany : c.anyBusy = true := by
      rw [← Bool.not_eq_false, Context.anyBusy_false_iff]
      exact fun hidle => by simp [hidle r] at hbusy
    rw [execTeardown_busy hc hany, State.refuse_eq_replied hc]
    rfl

/-- Settles O57: without a context exec refuses, and a refusal writes the ports only. -/
theorem noContextRefusesEverythingButInit : Obligations.NoContextRefusesEverythingButInit :=
  fun _ i hnone hi => exec_of_no_context hnone i hi

/-! ### Reset -/

theorem Memory.wf_nil : Memory.wf [] := ⟨List.Pairwise.nil, by simp⟩

/-- The layout the spec takes passes the assertions (10_state.md R104, R110..R114). -/
theorem layoutOk_spec : layoutOk Params.spec = true := by decide +kernel

/-- Settles O8: the context of reset is a new one over the empty window. -/
theorem resetMeetsTheInvariant : Obligations.ResetMeetsTheInvariant :=
  State.inv_of_context rfl Memory.wf_nil layoutOk_spec (Context.fresh_inv Memory.wf_nil)

end Sys2Proof.Machine
end
